-- ==== Sys2Proof/Word.lean ====
section
/-! DEFINITION. The widths of HYB-CORE: a byte, the 32-bit bus and command word, a 16-byte block
(00_scope.md R7, 10_state.md R29 to R33). -/

namespace Sys2Proof

/-- A byte, 0..255 (R7). -/
abbrev Byte := BitVec 8

/-- A 32-bit word: one bus transfer, one command word, one 32-bit register (R7, R62). -/
abbrev Word := BitVec 32

/-- A 16-byte string; byte `i` of the string is bits `8i+7 : 8i` (R29, lanes of R63). -/
abbrev Block := BitVec 128

/-- A byte offset of the host register space, 17 bits (R61). -/
abbrev Offset := BitVec 17

end Sys2Proof
end

