-- ==== Sys2Proof/Syntax.lean ====
section
/-! DEFINITION. The 29 commands of HYB-CORE (30_encoding.md R93, opcode_table.json), one constructor per row.
The only explicit operand is the 8-bit `ARG` of four of them (R91); every other operand is a register the
command's rule names. -/

namespace Sys2Proof

inductive Instr where
  | nop
  | sreset
  | aesKeyexp
  | aesEncBlock
  | aesDecBlock
  | aesSubbytes
  | aesInvSubbytes
  | aesShiftrows
  | aesInvShiftrows
  | aesMixcolumns
  | aesInvMixcolumns
  | aesAddroundkey (r : Byte)
  | aesGfmul (c : Byte)
  | rngKey
  | rngIv
  | pkcs7Pad
  | pkcs7Unpad
  | cbcEncRaw
  | cbcDecRaw
  | cbcEnc
  | cbcDec
  | mrTest (t : Byte)
  | rsaKeygen (t : Byte)
  | modexp
  | modinv
  | pkcs1Pad
  | pkcs1Unpad
  | rsaEnc
  | rsaDec
  deriving DecidableEq, Repr

end Sys2Proof
end

