-- ==== Sys2Proof/WellFormed.lean ====
section
/-! DEFINITION. Which commands carry a legal argument (30_encoding.md R91). An ill-formed command is still
decoded and executed: its meaning raises BAD_OPERAND (R91, R314). -/

namespace Sys2Proof

/-- The legal ranges of `ARG` (R91): `r` in 0..10, round counts in 1..255, any `c`. -/
def Instr.wellFormed : Instr → Bool
  | .aesAddroundkey r => r.toNat ≤ 10
  | .mrTest t => t ≠ 0#8
  | .rsaKeygen t => t ≠ 0#8
  | .nop | .sreset | .aesKeyexp | .aesEncBlock | .aesDecBlock | .aesSubbytes | .aesInvSubbytes
  | .aesShiftrows | .aesInvShiftrows | .aesMixcolumns | .aesInvMixcolumns | .aesGfmul _ | .rngKey | .rngIv
  | .pkcs7Pad | .pkcs7Unpad | .cbcEncRaw | .cbcDecRaw | .cbcEnc | .cbcDec | .modexp | .modinv
  | .pkcs1Pad | .pkcs1Unpad | .rsaEnc | .rsaDec => true

/-- `i` carries a legal argument. -/
abbrev Instr.WellFormed (i : Instr) : Prop := i.wellFormed = true

end Sys2Proof
end

