-- ==== Sys2Proof/Decode.lean ====
section
/-! DEFINITION. The command word (30_encoding.md R90 to R97): the decoder, total and rejecting by name, then the
encoder, the match/mask table of R94, and the assembler's mnemonics. -/

namespace Sys2Proof

/-- Why a command word is illegal (R92, R95). -/
inductive DecodeError where
  /-- `RSV` = `cw[31:16]` is not 0. -/
  | reservedField
  /-- `OP` = `cw[7:0]` is no opcode of R93 (the extension range 0xC0..0xFF among them). -/
  | reservedOpcode (op : Byte)
  /-- `ARG` ≠ 0 on a command that takes no argument. -/
  | argumentNotTaken (op : Byte)
  deriving DecidableEq, Repr

/-- `OP` = `cw[7:0]` (R90). -/
def fieldOp (cw : Word) : Byte := cw.extractLsb' 0 8

/-- `ARG` = `cw[15:8]` (R90). -/
def fieldArg (cw : Word) : Byte := cw.extractLsb' 8 8

/-- `RSV` = `cw[31:16]` (R90). -/
def fieldRsv (cw : Word) : BitVec 16 := cw.extractLsb' 16 16

/-- A command that takes no argument requires `ARG` = 0 (R91, R92). -/
def withoutArg (cw : Word) (i : Instr) : Except DecodeError Instr :=
  if fieldArg cw = 0#8 then .ok i else .error (.argumentNotTaken (fieldOp cw))

/-- The opcode map (R93). -/
def decodeOp (cw : Word) : Except DecodeError Instr :=
  match (fieldOp cw).toNat with
  | 0x00 => withoutArg cw .nop
  | 0x01 => withoutArg cw .sreset
  | 0x10 => withoutArg cw .aesKeyexp
  | 0x11 => withoutArg cw .aesEncBlock
  | 0x12 => withoutArg cw .aesDecBlock
  | 0x13 => withoutArg cw .aesSubbytes
  | 0x14 => withoutArg cw .aesInvSubbytes
  | 0x15 => withoutArg cw .aesShiftrows
  | 0x16 => withoutArg cw .aesInvShiftrows
  | 0x17 => withoutArg cw .aesMixcolumns
  | 0x18 => withoutArg cw .aesInvMixcolumns
  | 0x19 => .ok (.aesAddroundkey (fieldArg cw))
  | 0x1A => .ok (.aesGfmul (fieldArg cw))
  | 0x20 => withoutArg cw .rngKey
  | 0x21 => withoutArg cw .rngIv
  | 0x22 => withoutArg cw .pkcs7Pad
  | 0x23 => withoutArg cw .pkcs7Unpad
  | 0x24 => withoutArg cw .cbcEncRaw
  | 0x25 => withoutArg cw .cbcDecRaw
  | 0x26 => withoutArg cw .cbcEnc
  | 0x27 => withoutArg cw .cbcDec
  | 0x30 => .ok (.mrTest (fieldArg cw))
  | 0x38 => .ok (.rsaKeygen (fieldArg cw))
  | 0x40 => withoutArg cw .modexp
  | 0x41 => withoutArg cw .modinv
  | 0x48 => withoutArg cw .pkcs1Pad
  | 0x49 => withoutArg cw .pkcs1Unpad
  | 0x4A => withoutArg cw .rsaEnc
  | 0x4B => withoutArg cw .rsaDec
  | _ => .error (.reservedOpcode (fieldOp cw))

/-- Decoding (R92): a word with `RSV` ≠ 0 is illegal whatever its opcode. It reads nothing but `cw`. -/
def decode (cw : Word) : Except DecodeError Instr :=
  if fieldRsv cw = 0#16 then decodeOp cw else .error .reservedField

/-- The opcode of a command (R93). -/
def Instr.opcode : Instr → Byte
  | .nop => 0x00#8
  | .sreset => 0x01#8
  | .aesKeyexp => 0x10#8
  | .aesEncBlock => 0x11#8
  | .aesDecBlock => 0x12#8
  | .aesSubbytes => 0x13#8
  | .aesInvSubbytes => 0x14#8
  | .aesShiftrows => 0x15#8
  | .aesInvShiftrows => 0x16#8
  | .aesMixcolumns => 0x17#8
  | .aesInvMixcolumns => 0x18#8
  | .aesAddroundkey _ => 0x19#8
  | .aesGfmul _ => 0x1A#8
  | .rngKey => 0x20#8
  | .rngIv => 0x21#8
  | .pkcs7Pad => 0x22#8
  | .pkcs7Unpad => 0x23#8
  | .cbcEncRaw => 0x24#8
  | .cbcDecRaw => 0x25#8
  | .cbcEnc => 0x26#8
  | .cbcDec => 0x27#8
  | .mrTest _ => 0x30#8
  | .rsaKeygen _ => 0x38#8
  | .modexp => 0x40#8
  | .modinv => 0x41#8
  | .pkcs1Pad => 0x48#8
  | .pkcs1Unpad => 0x49#8
  | .rsaEnc => 0x4A#8
  | .rsaDec => 0x4B#8

/-- The argument a command carries; 0 where it takes none (R91). -/
def Instr.arg : Instr → Byte
  | .aesAddroundkey r => r
  | .aesGfmul c => c
  | .mrTest t => t
  | .rsaKeygen t => t
  | .nop | .sreset | .aesKeyexp | .aesEncBlock | .aesDecBlock | .aesSubbytes | .aesInvSubbytes
  | .aesShiftrows | .aesInvShiftrows | .aesMixcolumns | .aesInvMixcolumns | .rngKey | .rngIv
  | .pkcs7Pad | .pkcs7Unpad | .cbcEncRaw | .cbcDecRaw | .cbcEnc | .cbcDec | .modexp | .modinv
  | .pkcs1Pad | .pkcs1Unpad | .rsaEnc | .rsaDec => 0#8

/-- The command word of a command (R90, R97): `RSV` = 0, then `ARG`, then `OP`. -/
def encode (i : Instr) : Word := 0#16 ++ i.arg ++ i.opcode

/-- The `match` and `mask` pairs of R94 (opcode_table.json) for the commands without an argument. -/
def exactRows : List Word :=
  [0x00, 0x01, 0x10, 0x11, 0x12, 0x13, 0x14, 0x15, 0x16, 0x17, 0x18] ++
  [0x20, 0x21, 0x22, 0x23, 0x24, 0x25, 0x26, 0x27] ++
  [0x40, 0x41, 0x48, 0x49, 0x4A, 0x4B]

/-- The `match` values of R94 for the commands that take an argument, under the mask 0xFFFF00FF. -/
def argumentRows : List Word := [0x19, 0x1A, 0x30, 0x38]

/-- The table's rows as (match, mask) pairs (R94). -/
def matchMaskRows : List (Word × Word) :=
  exactRows.map (fun m => (m, 0xFFFFFFFF#32)) ++ argumentRows.map (fun m => (m, 0xFFFF00FF#32))

/-- `cw` matches a row of the table (R94). -/
def matchesRow (cw : Word) : Bool := matchMaskRows.any (fun row => cw &&& row.2 == row.1)

/-- The instruction the decoder reads from the word numbered as opcode_table.json numbers it; `none` where the
decoder rejects it, or where the number does not fit the 32-bit command word. -/
def decodeTableWord (nbits w : Nat) : Option Instr :=
  if nbits ≤ 32 ∧ w < 2 ^ 32 then (decode (BitVec.ofNat 32 w)).toOption else none

/-- The mnemonics of R93. -/
def Instr.mnemonic : Instr → String
  | .nop => "NOP"
  | .sreset => "SRESET"
  | .aesKeyexp => "AES_KEYEXP"
  | .aesEncBlock => "AES_ENC_BLOCK"
  | .aesDecBlock => "AES_DEC_BLOCK"
  | .aesSubbytes => "AES_SUBBYTES"
  | .aesInvSubbytes => "AES_INV_SUBBYTES"
  | .aesShiftrows => "AES_SHIFTROWS"
  | .aesInvShiftrows => "AES_INV_SHIFTROWS"
  | .aesMixcolumns => "AES_MIXCOLUMNS"
  | .aesInvMixcolumns => "AES_INV_MIXCOLUMNS"
  | .aesAddroundkey _ => "AES_ADDROUNDKEY"
  | .aesGfmul _ => "AES_GFMUL"
  | .rngKey => "RNG_KEY"
  | .rngIv => "RNG_IV"
  | .pkcs7Pad => "PKCS7_PAD"
  | .pkcs7Unpad => "PKCS7_UNPAD"
  | .cbcEncRaw => "CBC_ENC_RAW"
  | .cbcDecRaw => "CBC_DEC_RAW"
  | .cbcEnc => "CBC_ENC"
  | .cbcDec => "CBC_DEC"
  | .mrTest _ => "MR_TEST"
  | .rsaKeygen _ => "RSA_KEYGEN"
  | .modexp => "MODEXP"
  | .modinv => "MODINV"
  | .pkcs1Pad => "PKCS1_PAD"
  | .pkcs1Unpad => "PKCS1_UNPAD"
  | .rsaEnc => "RSA_ENC"
  | .rsaDec => "RSA_DEC"

/-- Whether a command takes an argument (R91, R93). -/
def Instr.takesArg : Instr → Bool
  | .aesAddroundkey _ | .aesGfmul _ | .mrTest _ | .rsaKeygen _ => true
  | .nop | .sreset | .aesKeyexp | .aesEncBlock | .aesDecBlock | .aesSubbytes | .aesInvSubbytes
  | .aesShiftrows | .aesInvShiftrows | .aesMixcolumns | .aesInvMixcolumns | .rngKey | .rngIv
  | .pkcs7Pad | .pkcs7Unpad | .cbcEncRaw | .cbcDecRaw | .cbcEnc | .cbcDec | .modexp | .modinv
  | .pkcs1Pad | .pkcs1Unpad | .rsaEnc | .rsaDec => false

/-- The written form of a command (R97): its mnemonic, then the decimal argument where it takes one. -/
def Instr.assembly (i : Instr) : String :=
  if i.takesArg then i.mnemonic ++ " " ++ toString i.arg.toNat else i.mnemonic

end Sys2Proof
end

