-- ==== Sys2Proof/Config.lean ====
section
/-! DEFINITION. What an implementation fixes (00_scope.md R5) and the values the spec leaves open
(93_implementation_defined.md Part 1): the latter are constants without a body. -/

namespace Sys2Proof.Config

/-- `BIG_BITS` (R5): the reference width of a big-number register. DESIGN CHOICE (log 1): the reference value. -/
abbrev bigBits : Nat := 2048

/-- `BIG_BYTES = BIG_BITS / 8` (R5). -/
abbrev bigBytes : Nat := 256

/-- `PBUF_BYTES = BIG_BYTES` (R5). -/
abbrev pbufBytes : Nat := 256

/-- `MBUF_BYTES` (R5). DESIGN CHOICE (log 1): the reference value. -/
abbrev mbufBytes : Nat := 4096

/-- `PUB_E` (R5, R240). DESIGN CHOICE (log 1): the reference value. -/
abbrev pubE : Nat := 65537

/-- `RSA_MIN_K` (R5, R240). DESIGN CHOICE (log 1): the reference value. -/
abbrev rsaMinK : Nat := 27

/-- `NMIN = 8·(RSA_MIN_K − 1) + 1` (R240). -/
abbrev nMin : Nat := 8 * (rsaMinK - 1) + 1

/-- The reference value of `KG_MAX_CANDIDATES` (R5); the parameter itself is the field `kgMaxCandidates` of the
state, so that claims hold for every value of it (log 2). -/
abbrev kgMaxCandidatesReference : Nat := 1048576

/-- `ID_VALUE` (R5, R21). -/
abbrev idValue : Word := 0x48594231#32

/-- `HYB_BASE` (R5, R61): the platform address of offset 0. No rule of the block reads it (log 12). -/
opaque hybBase : Nat

/-- The platform address of an offset (R61). -/
def platformAddress (off : Offset) : Nat := hybBase + off.toNat

/-- The answer of the random source to its draw number `n`, before it is fitted into the range of the draw
(R77, U9). FREE VALUE (log 3). -/
opaque rngAnswer : Nat → Nat

/-- The 176 bytes RK holds after reset number `n` (R32, R45, U1, U3). FREE VALUE (log 4). -/
opaque unspecifiedRk : Nat → BitVec 1408

/-- What the byte of PBUF or MBUF at bus offset `a` reads as after reset number `n` while nothing has written it
(R35, R36, R45, U2, U3). FREE VALUE (log 5). -/
opaque unspecifiedByte : Nat → Nat → Byte

/-- What unspecified read number `n` of the host in a BUSY window returns (R70 (d), U4). FREE VALUE (log 7). -/
opaque busyReadValue : Nat → Word

end Sys2Proof.Config
end

