-- ==== Sys2Proof/Machine/State.lean ====
section
/-! DEFINITION. The state of HYB-CORE (10_state.md), as plain data, its reset value (R45), and the reasons a step
could stop. -/

namespace Sys2Proof.Machine

/-- Why the machine would stop with a fault. It has no constructor: no host access faults (R327) and an error
is a STATUS update after which the engine is IDLE (R312, R319). -/
inductive Fault where
  deriving DecidableEq, Repr

/-- Why an instruction would have no meaning. -/
inductive Refusal where
  /-- Raised by an arm of `exec` for an instruction without a meaning; safe. No arm raises it. -/
  | notModelled (mnemonic : String)
  deriving DecidableEq, Repr

/-- The engine's phase (R40): idle, or executing the command word `cw`. -/
inductive Phase where
  | idle
  | busy (cw : Word)
  deriving DecidableEq, Repr

/-- `STATUS.ERRCODE` (R314). The reserved codes 7 to 15 are never produced (log 13). -/
inductive ErrorCode where
  | none
  | paddingError
  | noInverse
  | keygenExhausted
  | invalidInputLength
  | illegalCommand
  | badOperand
  deriving DecidableEq, Repr

/-- `STATUS.ENGINE` (R315). The reserved codes 9 to 15 are never produced (log 13). -/
inductive EngineCode where
  | none
  | decoder
  | aesKeysched
  | aesBlock
  | aesCbc
  | primality
  | keygen
  | bigint
  | rsa
  deriving DecidableEq, Repr

/-- `STATUS.STAGE` (R316). The reserved codes 4 to 15 are never produced (log 13). -/
inductive StageCode where
  | none
  | validation
  | compute
  | padding
  deriving DecidableEq, Repr

/-- The fields of STATUS (R23) but `BUSY`, which is the phase (R40). -/
structure Status where
  done : Bool
  err : Bool
  result : Bool
  errcode : ErrorCode
  engine : EngineCode
  stage : StageCode
  lastop : Byte
  deriving DecidableEq, Repr

/-- The random source as this block meets it (R77): the answers the environment has ready, oldest first, and
how many draws have been made. The MODEL's own (log 3). -/
structure Rng where
  queue : List Nat
  count : Nat
  deriving DecidableEq, Repr

/-- What reaches the block from outside, in the order it takes effect (R60, R71). The MODEL's own (log 8). -/
inductive Input where
  /-- `MemRead(off, 4)` (R62). -/
  | read (off : Offset)
  /-- `MemWrite(off, 4, v)` (R62). -/
  | write (off : Offset) (v : Word)
  /-- The engine takes its turn before the next access: a running command completes (R71, R362). -/
  | engine
  /-- The hardware reset input (R350, R351); a command it abandons has made at most `draws` draws (U10, log 10). -/
  | hardwareReset (draws : Nat)
  deriving DecidableEq, Repr

/-- The bytes of PBUF and MBUF something has written, by bus offset (R64), addresses strictly rising. An
unlisted byte has no listed value. -/
abbrev Memory := List Host.Cell

/-- The canonical form of a memory. -/
abbrev Memory.wf (m : Memory) : Prop := m.Pairwise (fun x y => x.1 < y.1)

/-- The state of HYB-CORE (R20 to R45) and, last, the fields that are the MODEL's own (INVENTORY.md, State). -/
structure State where
  phase : Phase
  irqEn : Bool
  status : Status
  mlen : Word
  plen : Word
  kgBits : Word
  key : Block
  iv : Block
  data : Block
  rk : BitVec 1408
  a : BitVec Config.bigBits
  b : BitVec Config.bigBits
  m : BitVec Config.bigBits
  r : BitVec Config.bigBits
  rsaN : BitVec Config.bigBits
  rsaE : BitVec Config.bigBits
  rsaD : BitVec Config.bigBits
  rsaC : BitVec Config.bigBits
  rsaMb : BitVec Config.bigBits
  mem : Memory
  /-- `KG_MAX_CANDIDATES` (R5), a parameter no step writes (log 2). -/
  kgMaxCandidates : Nat
  /-- The random source (log 3). -/
  rng : Rng
  /-- How many resets have happened (log 6). -/
  epoch : Nat
  /-- How many unspecified reads the host has made in BUSY windows (log 7). -/
  busyReads : Nat
  /-- The inputs still to come, oldest first (log 8). -/
  inputs : List Input
  /-- The word the last host read returned (log 11). -/
  readData : Option Word
  deriving DecidableEq, Repr

/-- STATUS at reset (R23, R45). -/
def Status.reset : Status :=
  { done := false, err := false, result := false, errcode := .none, engine := .none, stage := .none, lastop := 0#8 }

/-- The machine right after reset (R45, R350). RK is unspecified (log 4), PBUF and MBUF list nothing (log 5). -/
def State.reset : State :=
  { phase := .idle
    irqEn := false
    status := Status.reset
    mlen := 0#32
    plen := 0#32
    kgBits := 0#32
    key := 0#128
    iv := 0#128
    data := 0#128
    rk := Config.unspecifiedRk 0
    a := BitVec.zero Config.bigBits
    b := BitVec.zero Config.bigBits
    m := BitVec.zero Config.bigBits
    r := BitVec.zero Config.bigBits
    rsaN := BitVec.zero Config.bigBits
    rsaE := BitVec.zero Config.bigBits
    rsaD := BitVec.zero Config.bigBits
    rsaC := BitVec.zero Config.bigBits
    rsaMb := BitVec.zero Config.bigBits
    mem := []
    kgMaxCandidates := Config.kgMaxCandidatesReference
    rng := { queue := [], count := 0 }
    epoch := 0
    busyReads := 0
    inputs := []
    readData := none }

end Sys2Proof.Machine
end

