-- ==== Sys2Proof/Machine/Flags.lean ====
section
/-! DEFINITION. STATUS as the word the host reads (10_state.md R23, 60_exceptions.md R314 to R316) and the IRQ
output (10_state.md R41, 60_exceptions.md R320). HYB-CORE has no other flags (R44). -/

namespace Sys2Proof.Machine

/-- The error codes (R314). -/
def errorCodeBits : ErrorCode → BitVec 4
  | .none => 0#4
  | .paddingError => 1#4
  | .noInverse => 2#4
  | .keygenExhausted => 3#4
  | .invalidInputLength => 4#4
  | .illegalCommand => 5#4
  | .badOperand => 6#4

/-- The engine codes (R315). -/
def engineCodeBits : EngineCode → BitVec 4
  | .none => 0#4
  | .decoder => 1#4
  | .aesKeysched => 2#4
  | .aesBlock => 3#4
  | .aesCbc => 4#4
  | .primality => 5#4
  | .keygen => 6#4
  | .bigint => 7#4
  | .rsa => 8#4

/-- The stage codes (R316). -/
def stageCodeBits : StageCode → BitVec 4
  | .none => 0#4
  | .validation => 1#4
  | .compute => 2#4
  | .padding => 3#4

/-- `BUSY`: 1 while the phase is `BUSY(cw)` (R23, R40). -/
def Phase.isBusy : Phase → Bool
  | .idle => false
  | .busy _ => true

/-- STATUS (R23), from bit 31 down: LASTOP, reserved, STAGE, ENGINE, ERRCODE, reserved, RESULT, ERR, DONE, BUSY. -/
def State.statusWord (s : State) : Word :=
  s.status.lastop ++ 0#4 ++ stageCodeBits s.status.stage ++ engineCodeBits s.status.engine ++
    errorCodeBits s.status.errcode ++ 0#4 ++ BitVec.ofBool s.status.result ++ BitVec.ofBool s.status.err ++
    BitVec.ofBool s.status.done ++ BitVec.ofBool s.phase.isBusy

/-- CTRL (R22): bit 0 is `IRQ_EN`, bits 31:1 read 0. -/
def State.ctrlWord (s : State) : Word := (BitVec.ofBool s.irqEn).setWidth 32

/-- The interrupt output (R41, R320). -/
def State.irq (s : State) : Bool := s.irqEn && (s.status.done || s.status.err)

end Sys2Proof.Machine
end

