-- ==== Sys2Proof/Machine/Lanes.lean ====
section
/-! DEFINITION. Bytes, words and byte strings of fixed-width values (00_scope.md R8, R9; 20_memory.md R63, R78):
byte `i` is bits `8i+7 : 8i`, word `k` is bits `32k+31 : 32k`. -/

namespace Sys2Proof.Machine

/-- Byte `i` of a byte-string register (R63). -/
def byteAt {n : Nat} (x : BitVec n) (i : Nat) : Byte := x.extractLsb' (8 * i) 8

/-- The 32-bit word at byte offset `4k` of a register (R63, R64). -/
def wordAt {n : Nat} (x : BitVec n) (k : Nat) : Word := x.extractLsb' (32 * k) 32

/-- `x` with the 32-bit word at byte offset `4k` replaced by `v` (R63). -/
def setWordAt {n : Nat} (x : BitVec n) (k : Nat) (v : Word) : BitVec n :=
  (x &&& ~~~((0xFFFFFFFF#32).setWidth n <<< (32 * k))) ||| (v.setWidth n <<< (32 * k))

/-- `Σ_{i<n} f(i) · 2^(w·i)`: lane 0 least significant (R63). -/
def packNat (w : Nat) : Nat → (Nat → BitVec w) → Nat
  | 0, _ => 0
  | n + 1, f => packNat w n f + (f n).toNat * 2 ^ (w * n)

/-- The value of width `out` whose lane `i` of width `w` is `f i`, for `i < n`. -/
def packLanes (out w n : Nat) (f : Nat → BitVec w) : BitVec out := BitVec.ofNat out (packNat w n f)

/-- The 16-byte string with byte `i` equal to `f i`. -/
def blockOfBytes (f : Nat → Byte) : Block := packLanes 128 8 16 f

/-- The 4-byte word `[f 0, f 1, f 2, f 3]`, `f 0` first (R120). -/
def wordOfBytes (f : Nat → Byte) : Word := packLanes 32 8 4 f

/-- The bytes of a block, byte 0 first (R9). -/
def blockBytes (x : Block) : List Byte := (List.range 16).map (byteAt x)

/-- The bytes `X[16j .. 16j+16)` of a byte string (R184). -/
def blockOfString (X : List Byte) (j : Nat) : Block := blockOfBytes (fun i => X.getD (16 * j + i) 0#8)

/-- `bitlen(v)`: the number of bits without leading zeros, 0 for 0 (R8). -/
def bitlen (v : Nat) : Nat := if v = 0 then 0 else Nat.log2 v + 1

/-- `byteLen(v) = (bitlen(v) + 7) div 8` (R8, R280). -/
def byteLen (v : Nat) : Nat := (bitlen v + 7) / 8

/-- `OS2IP(X)`: a byte string read as a big-endian integer (R9, R283). -/
def os2ip (X : List Byte) : Nat := X.foldl (fun acc x => acc * 256 + x.toNat) 0

/-- `I2OSP(v, k)`: the `k`-byte big-endian string of `v < 256^k` (R9, R283). -/
def i2osp (v k : Nat) : List Byte :=
  (List.range k).map (fun i => BitVec.ofNat 8 (v / 256 ^ (k - 1 - i)))

end Sys2Proof.Machine
end

