-- ==== Sys2Proof/Machine/Random.lean ====
section
/-! DEFINITION. Draws from the random source (20_memory.md R77). An answer the environment has ready is taken
first; where there is none the answer is a free value (log 3). Every draw is answered. -/

namespace Sys2Proof.Machine

/-- An answer constrained to its range `[lo, hi]` (R77): one already in range is taken as it is. -/
def fitRange (lo hi raw : Nat) : Nat :=
  if lo ≤ raw ∧ raw ≤ hi then raw else lo + raw % (hi - lo + 1)

/-- The next answer of the source, before it is fitted to the draw's range, and the source after it. -/
def Rng.answer (g : Rng) : Nat × Rng :=
  match g.queue with
  | [] => (Config.rngAnswer g.count, { queue := [], count := g.count + 1 })
  | x :: rest => (x, { queue := rest, count := g.count + 1 })

/-- `Draw.range(lo, hi)` (R77). -/
def Rng.range (g : Rng) (lo hi : Nat) : Nat × Rng := (fitRange lo hi g.answer.1, g.answer.2)

/-- `Draw.bits(k)`, in `[0, 2^k − 1]` (R77). -/
def Rng.bits (g : Rng) (k : Nat) : Nat × Rng := g.range 0 (2 ^ k - 1)

/-- `Draw.byte()`, in `[0, 255]` (R77). -/
def Rng.byte (g : Rng) : Byte × Rng := (BitVec.ofNat 8 (g.range 0 255).1, (g.range 0 255).2)

/-- `Draw.nonzeroByte()`, in `[1, 255]` (R77). -/
def Rng.nonzeroByte (g : Rng) : Byte × Rng := (BitVec.ofNat 8 (g.range 1 255).1, (g.range 1 255).2)

/-- `n` draws of a byte, the first first (R180, R181). -/
def Rng.bytes : Nat → Rng → List Byte × Rng
  | 0, g => ([], g)
  | n + 1, g => (g.byte.1 :: (Rng.bytes n g.byte.2).1, (Rng.bytes n g.byte.2).2)

/-- `n` draws of a non-zero byte, the first first (R281). -/
def Rng.nonzeroBytes : Nat → Rng → List Byte × Rng
  | 0, g => ([], g)
  | n + 1, g => (g.nonzeroByte.1 :: (Rng.nonzeroBytes n g.nonzeroByte.2).1, (Rng.nonzeroBytes n g.nonzeroByte.2).2)

/-- The source after `n` answers nobody looked at (R351, log 10). -/
def Rng.skip (g : Rng) (n : Nat) : Rng := { queue := g.queue.drop n, count := g.count + n }

end Sys2Proof.Machine
end

