-- ==== Sys2Proof/Machine/Ops.lean ====
section
/-! DEFINITION. The named operations of the command frame (60_exceptions.md R310 to R313), of reset
(70_reset_and_hazards.md R350) and over the bytes of PBUF and MBUF (10_state.md R35, R36).

HYB-CORE has no trap entry and no return from one (R319): what other machines call taking an exception is the
error completion `State.raise`, and the next `State.issue` clears its report. -/

namespace Sys2Proof.Machine

/-- Cells for the byte string `X` at the addresses from `base` on. -/
def cellsAt : Nat → List Byte → Memory
  | _, [] => []
  | base, x :: rest => (base, x) :: cellsAt (base + 1) rest

/-- `m` with the byte string `X` written from `base` on, in canonical form. -/
def Memory.write (m : Memory) (base : Nat) (X : List Byte) : Memory :=
  m.filter (fun c => decide (c.1 < base)) ++ cellsAt base X ++ m.filter (fun c => decide (base + X.length ≤ c.1))

/-- The byte of PBUF or MBUF at bus offset `a`: what was last written there, and before that the free value of
the reset it dates from (U2, log 5). -/
def State.readByte (s : State) (a : Nat) : Byte := (s.mem.lookup a).getD (Config.unspecifiedByte s.epoch a)

/-- The byte string of `n` bytes from bus offset `base` on. -/
def State.readBytes (s : State) (base n : Nat) : List Byte := (List.range n).map (fun i => s.readByte (base + i))

/-- Write a byte string into PBUF or MBUF from bus offset `base` on. -/
def State.writeBytes (s : State) (base : Nat) (X : List Byte) : State := { s with mem := s.mem.write base X }

/-- Issue of the command word `cw` (R310). -/
def State.issue (s : State) (cw : Word) : State :=
  { s with
    phase := .busy cw
    status :=
      { done := false, err := false, result := false, errcode := .none, engine := .none, stage := .none
        lastop := cw.extractLsb' 0 8 } }

/-- Successful completion `complete(res)` (R311): the working copy `w` becomes the architectural state. -/
def State.complete (w : State) (res : Bool) : State :=
  { w with phase := .idle, status := { w.status with done := true, result := res } }

/-- Error completion `raise Error(code, engine, stage)` (R312), on the state `s` whose registers are those before
the command; the draws it has made stay consumed, so the caller hands over the source as it stands. -/
def State.raise (s : State) (code : ErrorCode) (engine : EngineCode) (stage : StageCode) : State :=
  { s with
    phase := .idle
    status :=
      { s.status with err := true, result := false, errcode := code, engine := engine, stage := stage } }

/-- An illegal command word (R92, R312). -/
def State.illegalCommand (s : State) : State := s.raise .illegalCommand .decoder .validation

/-- Reset, from the SRESET command or the reset input (R350, R45). The random source, the parameter and the
inputs still to come are outside the block; the unspecified bytes get fresh free values (log 6). -/
def State.applyReset (s : State) : State :=
  { State.reset with
    rk := Config.unspecifiedRk (s.epoch + 1)
    kgMaxCandidates := s.kgMaxCandidates
    rng := s.rng
    epoch := s.epoch + 1
    busyReads := s.busyReads
    inputs := s.inputs
    readData := s.readData }

/-- The bus offset of `PBUF[0]` (R64). -/
abbrev pbufBase : Nat := 0x03400

/-- The bus offset of `MBUF[0]` (R64). -/
abbrev mbufBase : Nat := 0x10000

end Sys2Proof.Machine
end

