-- ==== Sys2Proof/Machine/AddressMap.lean ====
section
/-! DEFINITION. The register map of the host space and the word at each place of it (20_memory.md R61 to R65,
R78). -/

namespace Sys2Proof.Machine

/-- The nine big-number registers (R34). -/
inductive BigReg where
  | a
  | b
  | m
  | r
  | rsaN
  | rsaE
  | rsaD
  | rsaC
  | rsaMb
  deriving DecidableEq, Repr

/-- What the word at an offset belongs to (R64). `k` counts 32-bit words inside a register; `mem o` is the word of
PBUF or MBUF at the aligned bus offset `o`. -/
inductive Place where
  | id
  | ctrl
  | status
  | cmd
  | mlen
  | plen
  | kgBits
  | key (k : Nat)
  | iv (k : Nat)
  | data (k : Nat)
  | rk (k : Nat)
  | big (reg : BigReg) (k : Nat)
  | mem (o : Nat)
  | reserved
  deriving DecidableEq, Repr

/-- The word at window offset `w` of a big-number window: the register in its first `BIG_BYTES` bytes, reserved
beyond (R64, R65). -/
def bigPlace (reg : BigReg) (w : Nat) : Place := if w < Config.bigBytes then .big reg (w / 4) else .reserved

/-- The register map (R64) at a byte offset; the address bits `off[1:0]` are ignored (R62). -/
def placeAt (o : Nat) : Place :=
  if o < 0x00004 then .id
  else if o < 0x00008 then .ctrl
  else if o < 0x0000C then .status
  else if o < 0x00010 then .cmd
  else if o < 0x00014 then .mlen
  else if o < 0x00018 then .plen
  else if o < 0x0001C then .kgBits
  else if o < 0x00020 then .reserved
  else if o < 0x00030 then .key ((o - 0x00020) / 4)
  else if o < 0x00040 then .iv ((o - 0x00030) / 4)
  else if o < 0x00050 then .data ((o - 0x00040) / 4)
  else if o < 0x00100 then .reserved
  else if o < 0x001B0 then .rk ((o - 0x00100) / 4)
  else if o < 0x01000 then .reserved
  else if o < 0x01400 then bigPlace .a (o - 0x01000)
  else if o < 0x01800 then bigPlace .b (o - 0x01400)
  else if o < 0x01C00 then bigPlace .m (o - 0x01800)
  else if o < 0x02000 then bigPlace .r (o - 0x01C00)
  else if o < 0x02400 then bigPlace .rsaN (o - 0x02000)
  else if o < 0x02800 then bigPlace .rsaE (o - 0x02400)
  else if o < 0x02C00 then bigPlace .rsaD (o - 0x02800)
  else if o < 0x03000 then bigPlace .rsaC (o - 0x02C00)
  else if o < 0x03400 then bigPlace .rsaMb (o - 0x03000)
  else if o < pbufBase + Config.pbufBytes then .mem (o - o % 4)
  else if o < 0x10000 then .reserved
  else if o < mbufBase + Config.mbufBytes then .mem (o - o % 4)
  else .reserved

/-- A big-number register (R34). -/
def State.big (s : State) : BigReg → BitVec Config.bigBits
  | .a => s.a
  | .b => s.b
  | .m => s.m
  | .r => s.r
  | .rsaN => s.rsaN
  | .rsaE => s.rsaE
  | .rsaD => s.rsaD
  | .rsaC => s.rsaC
  | .rsaMb => s.rsaMb

/-- Write a big-number register (R34). -/
def State.setBig (s : State) (reg : BigReg) (x : BitVec Config.bigBits) : State :=
  match reg with
  | .a => { s with a := x }
  | .b => { s with b := x }
  | .m => { s with m := x }
  | .r => { s with r := x }
  | .rsaN => { s with rsaN := x }
  | .rsaE => { s with rsaE := x }
  | .rsaD => { s with rsaD := x }
  | .rsaC => { s with rsaC := x }
  | .rsaMb => { s with rsaMb := x }

/-- The word of PBUF or MBUF at the bus offset `o` (R63). -/
def State.memWord (s : State) (o : Nat) : Word := wordOfBytes (fun i => s.readByte (o + i))

/-- The word at a place (R63, R64); CMD and reserved places read 0 (R65). -/
def State.wordAtPlace (s : State) : Place → Word
  | .id => Config.idValue
  | .ctrl => s.ctrlWord
  | .status => s.statusWord
  | .cmd => 0#32
  | .mlen => s.mlen
  | .plen => s.plen
  | .kgBits => s.kgBits
  | .key k => wordAt s.key k
  | .iv k => wordAt s.iv k
  | .data k => wordAt s.data k
  | .rk k => wordAt s.rk k
  | .big reg k => wordAt (s.big reg) k
  | .mem o => s.memWord o
  | .reserved => 0#32

/-- A host write of `v` at a place while the phase is IDLE: CMD issues the command (R66, R310), ID, STATUS, RK
and reserved places ignore it (R65), CTRL holds bit 0 (R22). -/
def State.writePlace (s : State) (p : Place) (v : Word) : State :=
  match p with
  | .id => s
  | .ctrl => { s with irqEn := v.getLsbD 0 }
  | .status => s
  | .cmd => s.issue v
  | .mlen => { s with mlen := v }
  | .plen => { s with plen := v }
  | .kgBits => { s with kgBits := v }
  | .key k => { s with key := setWordAt s.key k v }
  | .iv k => { s with iv := setWordAt s.iv k v }
  | .data k => { s with data := setWordAt s.data k v }
  | .rk _ => s
  | .big reg k => s.setBig reg (setWordAt (s.big reg) k v)
  | .mem o => s.writeBytes o ((List.range 4).map (byteAt v))
  | .reserved => s

end Sys2Proof.Machine
end

