-- ==== Sys2Proof/Machine/Gf.lean ====
section
/-! DEFINITION. GF(2^8) arithmetic and the substitution tables (42_aes_block.md R140 to R147). -/

namespace Sys2Proof.Machine

/-- `xtime(a)`: multiplication by `{02}` (R141). -/
def xtime (x : Byte) : Byte := (x <<< 1) ^^^ (if x.getLsbD 7 then 0x1B#8 else 0x00#8)

/-- `xtime^i(a)` (R142). -/
def xtimes : Nat → Byte → Byte
  | 0, x => x
  | i + 1, x => xtime (xtimes i x)

/-- The terms `i < n` of the sum in R142. -/
def gmulSum (x y : Byte) : Nat → Byte
  | 0 => 0#8
  | i + 1 => gmulSum x y i ^^^ (if y.getLsbD i then xtimes i x else 0#8)

/-- `a • b`, the product modulo `x^8 + x^4 + x^3 + x + 1` (R140, R142). -/
def gmul (x y : Byte) : Byte := gmulSum x y 8

/-- `a^(2^n − 1)`, by squaring and multiplying (R143). -/
def gpowOnes (x : Byte) : Nat → Byte
  | 0 => 0x01#8
  | n + 1 => gmul (gmul (gpowOnes x n) (gpowOnes x n)) x

/-- `ginv(a) = a^254 = (a^127)²` (R143), so `ginv(0) = 0`; only R145 uses it. -/
def ginv (x : Byte) : Byte := gmul (gpowOnes x 7) (gpowOnes x 7)

/-- The affine map of R145, bit by bit. -/
def sboxAffine (x : Byte) : Byte :=
  BitVec.ofNat 8 (packNat 1 8 fun i =>
    BitVec.ofBool (x.getLsbD i ^^ x.getLsbD ((i + 4) % 8) ^^ x.getLsbD ((i + 5) % 8) ^^
      x.getLsbD ((i + 6) % 8) ^^ x.getLsbD ((i + 7) % 8) ^^ (0x63#8).getLsbD i))

/-- The rows of `SBOX` (R146): the entry of column 0 is the leftmost byte. -/
def sboxRows : List (BitVec 128) :=
  [0x637c777bf26b6fc53001672bfed7ab76,
   0xca82c97dfa5947f0add4a2af9ca472c0,
   0xb7fd9326363ff7cc34a5e5f171d83115,
   0x04c723c31896059a071280e2eb27b275,
   0x09832c1a1b6e5aa0523bd6b329e32f84,
   0x53d100ed20fcb15b6acbbe394a4c58cf,
   0xd0efaafb434d338545f9027f503c9fa8,
   0x51a3408f929d38f5bcb6da2110fff3d2] ++
  [0xcd0c13ec5f974417c4a77e3d645d1973,
   0x60814fdc222a908846eeb814de5e0bdb,
   0xe0323a0a4906245cc2d3ac629195e479,
   0xe7c8376d8dd54ea96c56f4ea657aae08,
   0xba78252e1ca6b4c6e8dd741f4bbd8b8a,
   0x703eb5664803f60e613557b986c11d9e,
   0xe1f8981169d98e949b1e87e9ce5528df,
   0x8ca1890dbfe6426841992d0fb054bb16]

/-- The rows of `INV_SBOX` (R147). -/
def invSboxRows : List (BitVec 128) :=
  [0x52096ad53036a538bf40a39e81f3d7fb,
   0x7ce339829b2fff87348e4344c4dee9cb,
   0x547b9432a6c2233dee4c950b42fac34e,
   0x082ea16628d924b2765ba2496d8bd125,
   0x72f8f66486689816d4a45ccc5d65b692,
   0x6c704850fdedb9da5e154657a78d9d84,
   0x90d8ab008cbcd30af7e45805b8b34506,
   0xd02c1e8fca3f0f02c1afbd0301138a6b] ++
  [0x3a9111414f67dcea97f2cfcef0b4e673,
   0x96ac7422e7ad3585e2f937e81c75df6e,
   0x47f11a711d29c5896fb7620eaa18be1b,
   0xfc563e4bc6d279209adbc0fe78cd5af4,
   0x1fdda8338807c731b11210592780ec5f,
   0x60517fa919b54a0d2de57a9f93c99cef,
   0xa0e03b4dae2af5b0c8ebbb3c83539961,
   0x172b047eba77d626e169146355210c7d]

/-- The entry of a table at row `x[7:4]`, column `x[3:0]` (R146). -/
def tableEntry (rows : List (BitVec 128)) (x : Byte) : Byte :=
  (rows.getD (x.toNat / 16) 0#128).extractLsb' (8 * (15 - x.toNat % 16)) 8

/-- `SBOX[x]` (R146). -/
def sbox (x : Byte) : Byte := tableEntry sboxRows x

/-- `INV_SBOX[x]` (R147). -/
def invSbox (x : Byte) : Byte := tableEntry invSboxRows x

end Sys2Proof.Machine
end

