-- ==== Sys2Proof/Machine/Operands.lean ====
section
/-! DEFINITION. The operand forms of the commands: every command names its operands implicitly (30_encoding.md
R90), as a register's number, a message, a payload or the 8-bit argument. -/

namespace Sys2Proof.Machine

/-- `ARG` as a number (R91): `zext(cw[15:8])`. -/
def argValue (x : Byte) : Nat := x.toNat

/-- `val(X)` of a big-number register (R33): byte 0 least significant. -/
def bigVal (x : BitVec Config.bigBits) : Nat := x.toNat

/-- `X <-val v` (R33), for `v < 2^BIG_BITS`. -/
def bigOf (v : Nat) : BitVec Config.bigBits := BitVec.ofNat Config.bigBits v

/-- The length `L` of the message in MBUF (R26). -/
def State.messageLength (s : State) : Nat := s.mlen.toNat

/-- The message `MBUF[0..MLEN)` (R36). -/
def State.message (s : State) : List Byte := s.readBytes mbufBase s.messageLength

/-- The length `L` of the RSA payload in PBUF (R27). -/
def State.payloadLength (s : State) : Nat := s.plen.toNat

/-- The payload `PBUF[0..PLEN)` (R35). -/
def State.payload (s : State) : List Byte := s.readBytes pbufBase s.payloadLength

/-- `K`, the modulus byte width (R280). -/
def State.modulusBytes (s : State) : Nat := byteLen (bigVal s.rsaN)

/-- The working copy with `n` written as a 32-bit length. -/
def lengthWord (n : Nat) : Word := BitVec.ofNat 32 n

/-- The number of bytes PKCS7 adds to `L` bytes: 1 to 16 (R182). -/
def padCount (L : Nat) : Nat := 16 - L % 16

/-- `L` is no length of whole blocks inside MBUF (R186 to R190). -/
def badBlockLength (L : Nat) : Bool := decide (Config.mbufBytes < L) || decide (L % 16 ≠ 0)

/-- `L` bytes do not fit in MBUF once padded (R185, R189). -/
def badPaddedLength (L : Nat) : Bool := decide (Config.mbufBytes < L + padCount L)

/-- A payload of `L` bytes is too long for a modulus of `K` bytes, or for PBUF (R284, R286). -/
def badPayloadLength (L K : Nat) : Bool := decide (Config.pbufBytes < L) || decide (K < L + 11)

end Sys2Proof.Machine
end

