-- ==== Sys2Proof/Machine/AesKeySchedule.lean ====
section
/-! DEFINITION. The AES-128 key schedule and its command (41_aes_key_schedule.md R120 to R126). A key word
`[a0, a1, a2, a3]` is a 32-bit word with `a0` in bits 7:0, the lane order of the bus (R63). -/

namespace Sys2Proof.Machine

/-- `RotWord([a0, a1, a2, a3]) = [a1, a2, a3, a0]` (R121). -/
def rotWord (w : Word) : Word := wordOfBytes (fun i => byteAt w ((i + 1) % 4))

/-- `SubWord` (R122). -/
def subWord (w : Word) : Word := wordOfBytes (fun i => sbox (byteAt w i))

/-- `rc_j` for `j ≥ 1` (R123). -/
def roundConstant (j : Nat) : Byte := xtimes (j - 1) 0x01#8

/-- `Rcon[j] = [rc_j, 0, 0, 0]` (R123). -/
def rcon (j : Nat) : Word := (roundConstant j).setWidth 32

/-- What R124 XORs into `w[i-4]` to get `w[i]`, from `w[i-1]`. -/
def scheduleTemp (i : Nat) (prev : Word) : Word :=
  if i % 4 = 0 then subWord (rotWord prev) ^^^ rcon (i / 4) else prev

/-- The words `w[0..n+4)` of R124, the newest first. -/
def keyWordsFrom (key : Block) : Nat → List Word
  | 0 => [wordAt key 3, wordAt key 2, wordAt key 1, wordAt key 0]
  | n + 1 =>
    match keyWordsFrom key n with
    | ws => (ws.getD 3 0#32 ^^^ scheduleTemp (n + 4) (ws.getD 0 0#32)) :: ws

/-- The 44 words `w[0..44)` of `KeyExpansion(KEY)` in order (R124). -/
def keyWords (key : Block) : List Word := (keyWordsFrom key 40).reverse

/-- The 176 bytes `RK_0 ‖ … ‖ RK_10` of `KeyExpansion(KEY)` (R125): word `w[4r+k]` at byte offset `16r+4k`. -/
def keyExpansion (key : Block) : BitVec 1408 :=
  match keyWords key with
  | ws => packLanes 1408 32 44 (fun i => ws.getD i 0#32)

/-- The round key `RK_r`, bytes `16r .. 16r+16` of the schedule (R125). -/
def roundKey (sched : BitVec 1408) (r : Nat) : Block := sched.extractLsb' (128 * r) 128

/-- AES_KEYEXP (R126). -/
def execAesKeyexp (s : State) : Host.Outcome State Fault Refusal :=
  .next (State.complete { s with rk := keyExpansion s.key } false)

end Sys2Proof.Machine
end

