-- ==== Sys2Proof/Machine/AesRounds.lean ====
section
/-! DEFINITION. The AES state, the round transformations, the cipher and the inverse cipher
(42_aes_block.md R144 to R156). -/

namespace Sys2Proof.Machine

/-- `s[r][c] = in[r + 4c]` (R144). -/
def stateByte (x : Block) (r c : Nat) : Byte := byteAt x (r + 4 * c)

/-- The block whose state is `f r c` in row `r`, column `c` (R144). -/
def blockOfState (f : Nat → Nat → Byte) : Block := blockOfBytes (fun i => f (i % 4) (i / 4))

/-- `SubBytes` (R148). -/
def subBytes (x : Block) : Block := blockOfState fun r c => sbox (stateByte x r c)

/-- `InvSubBytes` (R149). -/
def invSubBytes (x : Block) : Block := blockOfState fun r c => invSbox (stateByte x r c)

/-- `ShiftRows` (R150): `s'[r][c] = s[r][(c + r) mod 4]`. -/
def shiftRows (x : Block) : Block := blockOfState fun r c => stateByte x r ((c + r) % 4)

/-- `InvShiftRows` (R151): `s'[r][(c + r) mod 4] = s[r][c]`, that is `s'[r][c] = s[r][(c + 4 − r) mod 4]`. -/
def invShiftRows (x : Block) : Block := blockOfState fun r c => stateByte x r ((c + (4 - r)) % 4)

/-- Row `r` of the product of column `c` with the circulant matrix whose row 0 is `[k0, k1, k2, k3]` (R152, R153). -/
def circulant (k0 k1 k2 k3 : Byte) (x : Block) (r c : Nat) : Byte :=
  gmul k0 (stateByte x r c) ^^^ gmul k1 (stateByte x ((r + 1) % 4) c) ^^^
    gmul k2 (stateByte x ((r + 2) % 4) c) ^^^ gmul k3 (stateByte x ((r + 3) % 4) c)

/-- `MixColumns` (R152). -/
def mixColumns (x : Block) : Block := blockOfState (circulant 0x02#8 0x03#8 0x01#8 0x01#8 x)

/-- `InvMixColumns` (R153). -/
def invMixColumns (x : Block) : Block := blockOfState (circulant 0x0e#8 0x0b#8 0x0d#8 0x09#8 x)

/-- `AddRoundKey` (R154). -/
def addRoundKey (x k : Block) : Block := x ^^^ k

/-- The full rounds `r = 1 .. n` of R155, from the state after the initial key-XOR. -/
def cipherRounds (sched : BitVec 1408) (x : Block) : Nat → Block
  | 0 => x
  | n + 1 => addRoundKey (mixColumns (shiftRows (subBytes (cipherRounds sched x n)))) (roundKey sched (n + 1))

/-- `Cipher(in, RK)` (R155). -/
def cipher (sched : BitVec 1408) (x : Block) : Block :=
  addRoundKey (shiftRows (subBytes (cipherRounds sched (addRoundKey x (roundKey sched 0)) 9))) (roundKey sched 10)

/-- The rounds `r = n, …, 1` of R156. -/
def invCipherRounds (sched : BitVec 1408) : Nat → Block → Block
  | 0, x => x
  | n + 1, x =>
    invCipherRounds sched n
      (invMixColumns (addRoundKey (invSubBytes (invShiftRows x)) (roundKey sched (n + 1))))

/-- `InvCipher(in, RK)` (R156). -/
def invCipher (sched : BitVec 1408) (x : Block) : Block :=
  addRoundKey (invSubBytes (invShiftRows (invCipherRounds sched 9 (addRoundKey x (roundKey sched 10)))))
    (roundKey sched 0)

end Sys2Proof.Machine
end

