-- ==== Sys2Proof/Machine/AesBlock.lean ====
section
/-! DEFINITION. The single-block and round-transformation commands (42_aes_block.md R160 to R169). -/

namespace Sys2Proof.Machine

/-- AES_ENC_BLOCK (R160). -/
def execAesEncBlock (s : State) : Host.Outcome State Fault Refusal :=
  let sched := keyExpansion s.key
  .next (State.complete { s with rk := sched, data := cipher sched s.data } false)

/-- AES_DEC_BLOCK (R161). -/
def execAesDecBlock (s : State) : Host.Outcome State Fault Refusal :=
  let sched := keyExpansion s.key
  .next (State.complete { s with rk := sched, data := invCipher sched s.data } false)

/-- AES_SUBBYTES (R162). -/
def execAesSubbytes (s : State) : Host.Outcome State Fault Refusal :=
  .next (State.complete { s with data := subBytes s.data } false)

/-- AES_INV_SUBBYTES (R163). -/
def execAesInvSubbytes (s : State) : Host.Outcome State Fault Refusal :=
  .next (State.complete { s with data := invSubBytes s.data } false)

/-- AES_SHIFTROWS (R164). -/
def execAesShiftrows (s : State) : Host.Outcome State Fault Refusal :=
  .next (State.complete { s with data := shiftRows s.data } false)

/-- AES_INV_SHIFTROWS (R165). -/
def execAesInvShiftrows (s : State) : Host.Outcome State Fault Refusal :=
  .next (State.complete { s with data := invShiftRows s.data } false)

/-- AES_MIXCOLUMNS (R166). -/
def execAesMixcolumns (s : State) : Host.Outcome State Fault Refusal :=
  .next (State.complete { s with data := mixColumns s.data } false)

/-- AES_INV_MIXCOLUMNS (R167). -/
def execAesInvMixcolumns (s : State) : Host.Outcome State Fault Refusal :=
  .next (State.complete { s with data := invMixColumns s.data } false)

/-- AES_ADDROUNDKEY r (R168): a round index above 10 raises BAD_OPERAND and writes nothing, RK included. -/
def execAesAddroundkey (r : Byte) (s : State) : Host.Outcome State Fault Refusal :=
  if 10 < argValue r then .next (s.raise .badOperand .aesBlock .validation)
  else
    let sched := keyExpansion s.key
    .next (State.complete { s with rk := sched, data := addRoundKey s.data (roundKey sched (argValue r)) } false)

/-- AES_GFMUL c (R169): every byte of DATA times `c`. -/
def execAesGfmul (c : Byte) (s : State) : Host.Outcome State Fault Refusal :=
  .next (State.complete { s with data := blockOfBytes fun i => gmul (byteAt s.data i) c } false)

end Sys2Proof.Machine
end

