-- ==== Sys2Proof/Machine/CbcMode.lean ====
section
/-! DEFINITION. PKCS7 padding and cipher block chaining (43_aes_cbc.md R182 to R184). -/

namespace Sys2Proof.Machine

/-- `Pad7(X)` (R182): always 1 to 16 bytes, each of the value of their count. -/
def pad7 (X : List Byte) : List Byte :=
  X ++ List.replicate (padCount X.length) (BitVec.ofNat 8 (padCount X.length))

/-- `Unpad7(X)` (R183); `none` where the padding is inconsistent. -/
def unpad7 (X : List Byte) : Option (List Byte) :=
  match X.getLast? with
  | none => none
  | some last =>
    let n := last.toNat
    if n = 0 ∨ 16 < n then none
    else if (X.drop (X.length - n)).all (fun x => x == last) then some (X.take (X.length - n))
    else none

/-- The blocks `P_0, …, P_{nb−1}` of a byte string (R184). -/
def blocksOf (X : List Byte) : List Block := (List.range (X.length / 16)).map (blockOfString X)

/-- The byte string of a list of blocks (R184). -/
def bytesOf (Bs : List Block) : List Byte := Bs.flatMap blockBytes

/-- The chaining of `CbcEnc` from the previous ciphertext block on (R184). -/
def cbcEncBlocks (sched : BitVec 1408) : Block → List Block → List Block
  | _, [] => []
  | prev, p :: rest => cipher sched (p ^^^ prev) :: cbcEncBlocks sched (cipher sched (p ^^^ prev)) rest

/-- The chaining of `CbcDec` from the previous ciphertext block on (R184). -/
def cbcDecBlocks (sched : BitVec 1408) : Block → List Block → List Block
  | _, [] => []
  | prev, c :: rest => (invCipher sched c ^^^ prev) :: cbcDecBlocks sched c rest

/-- `CbcEnc(P, sched, iv)` (R184). -/
def cbcEnc (P : List Byte) (sched : BitVec 1408) (iv : Block) : List Byte :=
  bytesOf (cbcEncBlocks sched iv (blocksOf P))

/-- `CbcDec(C, sched, iv)` (R184, R359: on the ciphertext as issued). -/
def cbcDec (C : List Byte) (sched : BitVec 1408) (iv : Block) : List Byte :=
  bytesOf (cbcDecBlocks sched iv (blocksOf C))

end Sys2Proof.Machine
end

