-- ==== Sys2Proof/Machine/AesCbc.lean ====
section
/-! DEFINITION. Key and IV generation and the commands on the message in MBUF (43_aes_cbc.md R180, R181,
R185 to R190). -/

namespace Sys2Proof.Machine

/-- The 16-byte string whose byte `i` is entry `i` of a list of draws (R180). -/
def blockOfDraws (X : List Byte) : Block := blockOfBytes (fun i => X.getD i 0#8)

/-- RNG_KEY (R180). -/
def execRngKey (s : State) : Host.Outcome State Fault Refusal :=
  let drawn := Rng.bytes 16 s.rng
  .next (State.complete { s with key := blockOfDraws drawn.1, rng := drawn.2 } false)

/-- RNG_IV (R181). -/
def execRngIv (s : State) : Host.Outcome State Fault Refusal :=
  let drawn := Rng.bytes 16 s.rng
  .next (State.complete { s with iv := blockOfDraws drawn.1, rng := drawn.2 } false)

/-- PKCS7_PAD (R185): the message bytes stay, `n` bytes of value `n` follow them. -/
def execPkcs7Pad (s : State) : Host.Outcome State Fault Refusal :=
  let L := s.messageLength
  let n := padCount L
  if badPaddedLength L then .next (s.raise .invalidInputLength .aesCbc .validation)
  else
    .next (State.complete
      { s.writeBytes (mbufBase + L) (List.replicate n (BitVec.ofNat 8 n)) with mlen := lengthWord (L + n) } false)

/-- PKCS7_UNPAD (R186): MBUF is not changed. -/
def execPkcs7Unpad (s : State) : Host.Outcome State Fault Refusal :=
  if badBlockLength s.messageLength then .next (s.raise .invalidInputLength .aesCbc .validation)
  else
    match unpad7 s.message with
    | none => .next (s.raise .paddingError .aesCbc .padding)
    | some X => .next (State.complete { s with mlen := lengthWord X.length } false)

/-- CBC_ENC_RAW (R187). -/
def execCbcEncRaw (s : State) : Host.Outcome State Fault Refusal :=
  if badBlockLength s.messageLength then .next (s.raise .invalidInputLength .aesCbc .validation)
  else
    let sched := keyExpansion s.key
    .next (State.complete
      { s.writeBytes mbufBase (cbcEnc s.message sched s.iv) with rk := sched } false)

/-- CBC_DEC_RAW (R188). -/
def execCbcDecRaw (s : State) : Host.Outcome State Fault Refusal :=
  if badBlockLength s.messageLength then .next (s.raise .invalidInputLength .aesCbc .validation)
  else
    let sched := keyExpansion s.key
    .next (State.complete
      { s.writeBytes mbufBase (cbcDec s.message sched s.iv) with rk := sched } false)

/-- CBC_ENC (R189). -/
def execCbcEnc (s : State) : Host.Outcome State Fault Refusal :=
  let L := s.messageLength
  if badPaddedLength L then .next (s.raise .invalidInputLength .aesCbc .validation)
  else
    let sched := keyExpansion s.key
    .next (State.complete
      { s.writeBytes mbufBase (cbcEnc (pad7 s.message) sched s.iv) with
        rk := sched, mlen := lengthWord (L + padCount L) } false)

/-- CBC_DEC (R190): on a padding error MBUF, MLEN and RK keep their values; on success the new length is
`L − P[L − 1]`, the length of the unpadded string, and the decrypted padding bytes stay in `MBUF[newMLEN..L)`, as
the pseudocode and the corner cases of R190 say (beside the general sentence of R36: log 26). -/
def execCbcDec (s : State) : Host.Outcome State Fault Refusal :=
  if badBlockLength s.messageLength then .next (s.raise .invalidInputLength .aesCbc .validation)
  else
    let sched := keyExpansion s.key
    let P := cbcDec s.message sched s.iv
    match unpad7 P with
    | none => .next (s.raise .paddingError .aesCbc .padding)
    | some X =>
      .next (State.complete { s.writeBytes mbufBase P with rk := sched, mlen := lengthWord X.length } false)

end Sys2Proof.Machine
end

