-- ==== Sys2Proof/Machine/BigMath.lean ====
section
/-! DEFINITION. Modular exponentiation and the modular inverse, on exact naturals (46_bigint.md R260, R261). -/

namespace Sys2Proof.Machine

/-- The loop of R260 over the bits `i − 1, …, 0` of the exponent. -/
def modExpLoop (a b m : Nat) : Nat → Nat → Nat
  | 0, acc => acc
  | i + 1, acc =>
    let squared := acc * acc % m
    modExpLoop a b m i (if b.testBit i then squared * a % m else squared)

/-- `ModExp(a, b, m)` for `m ≥ 1` (R260): square and multiply, most significant bit first. -/
def modExp (a b m : Nat) : Nat := modExpLoop a b m (bitlen b) (1 % m)

/-- The loop of R261: the pair `(r0, t0)` when `r1` has become 0. `r1` falls at every turn, so `fuel > r1` turns
are enough (log 18). -/
def euclidLoop : Nat → Nat → Nat → Int → Int → Nat × Int
  | 0, r0, _, t0, _ => (r0, t0)
  | fuel + 1, r0, r1, t0, t1 =>
    if r1 = 0 then (r0, t0)
    else euclidLoop fuel r1 (r0 - r0 / r1 * r1) t1 (t0 - (r0 / r1 : Nat) * t1)

/-- `ModInv(a, m)` for `m ≥ 1` (R261); `none` is NO_INVERSE. -/
def modInv (a m : Nat) : Option Nat :=
  let last := euclidLoop (a % m + 1) m (a % m) 0 1
  if last.1 = 1 then some (last.2 % (m : Int)).toNat else none

end Sys2Proof.Machine
end

