-- ==== Sys2Proof/Machine/BigInt.lean ====
section
/-! DEFINITION. The commands of the big-integer engine (46_bigint.md R262, R263). -/

namespace Sys2Proof.Machine

/-- MODEXP (R262). -/
def execModexp (s : State) : Host.Outcome State Fault Refusal :=
  if bigVal s.m = 0 then .next (s.raise .badOperand .bigint .validation)
  else .next (State.complete { s with r := bigOf (modExp (bigVal s.a) (bigVal s.b) (bigVal s.m)) } false)

/-- MODINV (R263). -/
def execModinv (s : State) : Host.Outcome State Fault Refusal :=
  if bigVal s.m = 0 then .next (s.raise .badOperand .bigint .validation)
  else
    match modInv (bigVal s.a) (bigVal s.m) with
    | none => .next (s.raise .noInverse .bigint .compute)
    | some x => .next (State.complete { s with r := bigOf x } false)

end Sys2Proof.Machine
end

