-- ==== Sys2Proof/Machine/MillerRabin.lean ====
section
/-! DEFINITION. The Miller–Rabin test and MR_TEST (44_primality.md R220 to R222). -/

namespace Sys2Proof.Machine

/-- The decomposition of R220: `(s, d)` with `v = 2^s · d` and `d` odd, for `v ≥ 1`; `fuel ≥ s` turns are
enough (log 18). -/
def splitTwos : Nat → Nat → Nat × Nat
  | 0, v => (0, v)
  | fuel + 1, v => if v % 2 = 0 then ((splitTwos fuel (v / 2)).1 + 1, (splitTwos fuel (v / 2)).2) else (0, v)

/-- Whether one of `k` successive squarings of `x` modulo `n` gives `n − 1` (R221). -/
def reachesMinusOne (n : Nat) : Nat → Nat → Bool
  | 0, _ => false
  | k + 1, x => x * x % n == n - 1 || reachesMinusOne n k (x * x % n)

/-- Whether the round with base `base` passes (R221), with `n − 1 = 2^s · d`. -/
def roundPasses (n s d base : Nat) : Bool :=
  let x := modExp base d n
  x == 1 || x == n - 1 || reachesMinusOne n (s - 1) x

/-- `t` rounds (R221): one draw per round, before its exponentiation; the first failing round ends the test. -/
def millerRabinRounds (n s d : Nat) : Nat → Rng → Bool × Rng
  | 0, g => (true, g)
  | t + 1, g =>
    if roundPasses n s d (g.range 2 (n - 2)).1 then millerRabinRounds n s d t (g.range 2 (n - 2)).2
    else (false, (g.range 2 (n - 2)).2)

/-- `MillerRabin(n, t)` (R221) and the random source after its draws. -/
def millerRabin (n t : Nat) (g : Rng) : Bool × Rng :=
  if n < 2 then (false, g)
  else if n = 2 ∨ n = 3 then (true, g)
  else if n % 2 = 0 then (false, g)
  else millerRabinRounds n (splitTwos (bitlen n) (n - 1)).1 (splitTwos (bitlen n) (n - 1)).2 t g

/-- MR_TEST t (R222). -/
def execMrTest (t : Byte) (s : State) : Host.Outcome State Fault Refusal :=
  if argValue t = 0 then .next (s.raise .badOperand .primality .validation)
  else
    let verdict := millerRabin (bigVal s.a) (argValue t) s.rng
    .next (State.complete { s with rng := verdict.2 } verdict.1)

end Sys2Proof.Machine
end

