-- ==== Sys2Proof/Machine/KeyGen.lean ====
section
/-! DEFINITION. The RSA key generator and RSA_KEYGEN (45_rsa_keygen.md R240 to R244). -/

namespace Sys2Proof.Machine

/-- A key pair `(N, E, D)` (R244). -/
structure KeyPair where
  n : Nat
  e : Nat
  d : Nat
  deriving DecidableEq, Repr

/-- `Draw.bits(h) | 2^(h−1) | 1` (R242): exactly `h` bits, odd. -/
def primeCandidate (h drawn : Nat) : Nat := drawn ||| 2 ^ (h - 1) ||| 1

/-- What R244 makes of the primes `p` and `q`: a key pair, or `none` where `q` is drawn again. -/
def keyPairOf (p q : Nat) : Option KeyPair :=
  if q = p then none
  else if bitlen (p * q) < Config.nMin then none
  else if Nat.gcd Config.pubE (Nat.lcm (p - 1) (q - 1)) ≠ 1 then none
  else
    match modInv Config.pubE (Nat.lcm (p - 1) (q - 1)) with
    | none => none
    | some d => some { n := p * q, e := Config.pubE, d := d }

/-- The candidate loop of `GenPrime` (R242) inside `KeyGen` (R244), with `fuel` = `KG_MAX_CANDIDATES − count`
candidates left and `p` the first prime once there is one (log 17). `none` is KEYGEN_EXHAUSTED. -/
def keyGenLoop (h t : Nat) : Nat → Option Nat → Rng → Option KeyPair × Rng
  | 0, _, g => (none, g)
  | fuel + 1, p, g =>
    let drawn := g.bits h
    let c := primeCandidate h drawn.1
    let verdict := millerRabin c t drawn.2
    if verdict.1 then
      match p with
      | none => keyGenLoop h t fuel (some c) verdict.2
      | some first =>
        match keyPairOf first c with
        | none => keyGenLoop h t fuel (some first) verdict.2
        | some kp => (some kp, verdict.2)
    else keyGenLoop h t fuel p verdict.2

/-- `KeyGen(bits, t)` (R244) under the bound `maxCandidates`, and the random source after its draws. -/
def keyGen (maxCandidates bits t : Nat) (g : Rng) : Option KeyPair × Rng :=
  keyGenLoop (bits / 2) t maxCandidates none g

/-- `KG_BITS` is not valid (R241). -/
def badKeyBits (bits : Nat) : Bool :=
  decide (bits % 2 ≠ 0) || decide (bits < Config.nMin + 1) || decide (Config.bigBits < bits)

/-- RSA_KEYGEN t (R243). -/
def execRsaKeygen (t : Byte) (s : State) : Host.Outcome State Fault Refusal :=
  if argValue t = 0 ∨ badKeyBits s.kgBits.toNat then .next (s.raise .badOperand .keygen .validation)
  else
    let made := keyGen s.kgMaxCandidates s.kgBits.toNat (argValue t) s.rng
    match made.1 with
    | none => .next (State.raise { s with rng := made.2 } .keygenExhausted .keygen .compute)
    | some kp =>
      .next (State.complete
        { s with rsaN := bigOf kp.n, rsaE := bigOf kp.e, rsaD := bigOf kp.d, rng := made.2 } false)

end Sys2Proof.Machine
end

