-- ==== Sys2Proof/Machine/RsaPadding.lean ====
section
/-! DEFINITION. PKCS#1 v1.5 padding and RSA encryption and decryption (47_rsa_padding.md R280 to R287). -/

namespace Sys2Proof.Machine

/-- `EM = 0x00 ‖ 0x02 ‖ PS ‖ 0x00 ‖ P` (R281). -/
def encodedMessage (PS P : List Byte) : List Byte := 0x00#8 :: 0x02#8 :: (PS ++ 0x00#8 :: P)

/-- `Pad1(P, K)` (R281), for `|P| + 11 ≤ K`, and the random source after its `K − |P| − 3` draws. -/
def pad1 (P : List Byte) (K : Nat) (g : Rng) : List Byte × Rng :=
  let drawn := Rng.nonzeroBytes (K - P.length - 3) g
  (encodedMessage drawn.1 P, drawn.2)

/-- What follows the first zero byte of a string (R282); `none` where there is none. -/
def afterDelimiter : List Byte → Option (List Byte)
  | [] => none
  | x :: rest => if x = 0x00#8 then some rest else afterDelimiter rest

/-- `Unpad1(EM)` (R282); `none` where the padding is malformed. -/
def unpad1 (EM : List Byte) : Option (List Byte) :=
  match EM with
  | x0 :: x1 :: rest => if x0 = 0x00#8 ∧ x1 = 0x02#8 then afterDelimiter rest else none
  | _ => none

/-- PKCS1_PAD (R284). -/
def execPkcs1Pad (s : State) : Host.Outcome State Fault Refusal :=
  if badPayloadLength s.payloadLength s.modulusBytes then .next (s.raise .invalidInputLength .rsa .validation)
  else
    let padded := pad1 s.payload s.modulusBytes s.rng
    .next (State.complete { s with rsaMb := bigOf (os2ip padded.1), rng := padded.2 } false)

/-- PKCS1_UNPAD (R285). -/
def execPkcs1Unpad (s : State) : Host.Outcome State Fault Refusal :=
  let K := s.modulusBytes
  let m := bigVal s.rsaMb
  if K < 2 ∨ 256 ^ K ≤ m then .next (s.raise .paddingError .rsa .padding)
  else
    match unpad1 (i2osp m K) with
    | none => .next (s.raise .paddingError .rsa .padding)
    | some P => .next (State.complete { s.writeBytes pbufBase P with plen := lengthWord P.length } false)

/-- RSA_ENC (R286). -/
def execRsaEnc (s : State) : Host.Outcome State Fault Refusal :=
  if badPayloadLength s.payloadLength s.modulusBytes then .next (s.raise .invalidInputLength .rsa .validation)
  else
    let padded := pad1 s.payload s.modulusBytes s.rng
    let m := os2ip padded.1
    .next (State.complete
      { s with
        rsaMb := bigOf m
        rsaC := bigOf (modExp m (bigVal s.rsaE) (bigVal s.rsaN))
        rng := padded.2 } false)

/-- RSA_DEC (R287): the decrypted integer of a failed decryption is not written. -/
def execRsaDec (s : State) : Host.Outcome State Fault Refusal :=
  let N := bigVal s.rsaN
  if N = 0 then .next (s.raise .badOperand .rsa .validation)
  else
    let K := s.modulusBytes
    let m := modExp (bigVal s.rsaC) (bigVal s.rsaD) N
    if K < 2 then .next (s.raise .paddingError .rsa .padding)
    else
      match unpad1 (i2osp m K) with
      | none => .next (s.raise .paddingError .rsa .padding)
      | some P =>
        .next (State.complete { s.writeBytes pbufBase P with rsaMb := bigOf m, plen := lengthWord P.length } false)

end Sys2Proof.Machine
end

