-- ==== Sys2Proof/Machine/Dispatch.lean ====
section
/-! DEFINITION. The execution of a decoded command: one arm per row of the opcode map (30_encoding.md R93). -/

namespace Sys2Proof.Machine

def exec (i : Instr) (s : State) : Host.Outcome State Fault Refusal :=
  match i with
  | .nop => Sys2Proof.Machine.execNop s
  | .sreset => Sys2Proof.Machine.execSreset s
  | .aesKeyexp => Sys2Proof.Machine.execAesKeyexp s
  | .aesEncBlock => Sys2Proof.Machine.execAesEncBlock s
  | .aesDecBlock => Sys2Proof.Machine.execAesDecBlock s
  | .aesSubbytes => Sys2Proof.Machine.execAesSubbytes s
  | .aesInvSubbytes => Sys2Proof.Machine.execAesInvSubbytes s
  | .aesShiftrows => Sys2Proof.Machine.execAesShiftrows s
  | .aesInvShiftrows => Sys2Proof.Machine.execAesInvShiftrows s
  | .aesMixcolumns => Sys2Proof.Machine.execAesMixcolumns s
  | .aesInvMixcolumns => Sys2Proof.Machine.execAesInvMixcolumns s
  | .aesAddroundkey r => Sys2Proof.Machine.execAesAddroundkey r s
  | .aesGfmul c => Sys2Proof.Machine.execAesGfmul c s
  | .rngKey => Sys2Proof.Machine.execRngKey s
  | .rngIv => Sys2Proof.Machine.execRngIv s
  | .pkcs7Pad => Sys2Proof.Machine.execPkcs7Pad s
  | .pkcs7Unpad => Sys2Proof.Machine.execPkcs7Unpad s
  | .cbcEncRaw => Sys2Proof.Machine.execCbcEncRaw s
  | .cbcDecRaw => Sys2Proof.Machine.execCbcDecRaw s
  | .cbcEnc => Sys2Proof.Machine.execCbcEnc s
  | .cbcDec => Sys2Proof.Machine.execCbcDec s
  | .mrTest t => Sys2Proof.Machine.execMrTest t s
  | .rsaKeygen t => Sys2Proof.Machine.execRsaKeygen t s
  | .modexp => Sys2Proof.Machine.execModexp s
  | .modinv => Sys2Proof.Machine.execModinv s
  | .pkcs1Pad => Sys2Proof.Machine.execPkcs1Pad s
  | .pkcs1Unpad => Sys2Proof.Machine.execPkcs1Unpad s
  | .rsaEnc => Sys2Proof.Machine.execRsaEnc s
  | .rsaDec => Sys2Proof.Machine.execRsaDec s

end Sys2Proof.Machine
end

