-- ==== Sys2Proof/Machine/Engine.lean ====
section
/-! DEFINITION. What each agent does when its turn comes: the host's accesses (20_memory.md R62 to R70), the
engine's turn (60_exceptions.md R310 to R312) and the hardware reset input (70_reset_and_hazards.md R350, R351). -/

namespace Sys2Proof.Machine

/-- Whether a read of this place returns its value in the BUSY window (R70 (c)). -/
def Place.readableWhileBusy : Place → Bool
  | .id | .ctrl | .status => true
  | .cmd | .mlen | .plen | .kgBits | .key _ | .iv _ | .data _ | .rk _ | .big _ _ | .mem _ | .reserved => false

/-- Whether a host read at `off` returns an unspecified word: in the BUSY window, at a place other than ID, CTRL and
STATUS (R70 (d)). -/
def State.readsUnspecified (s : State) (off : Offset) : Bool :=
  s.phase.isBusy && !(placeAt off.toNat).readableWhileBusy

/-- The word `MemRead(off, 4)` returns (R62, R63, R65); an unspecified one is a free value (R70 (d), log 7). -/
def State.hostReadWord (s : State) (off : Offset) : Word :=
  if s.readsUnspecified off then Config.busyReadValue s.busyReads else s.wordAtPlace (placeAt off.toNat)

/-- `MemRead(off, 4)`: the word goes to the host and nothing of the block changes (R66). -/
def State.hostRead (s : State) (off : Offset) : State :=
  { s with
    readData := some (s.hostReadWord off)
    busyReads := if s.readsUnspecified off then s.busyReads + 1 else s.busyReads }

/-- `MemWrite(off, 4, v)` (R62, R63, R65): in the BUSY window only a write to CTRL takes effect (R70 (a), (b)). -/
def State.hostWrite (s : State) (off : Offset) (v : Word) : State :=
  let p := placeAt off.toNat
  if s.phase.isBusy && !decide (p = .ctrl) then s else s.writePlace p v

/-- The engine's turn: a running command is decoded and executed to its completion (R310 to R312, R362); an
illegal command word completes with ILLEGAL_COMMAND (R92); in IDLE the engine does nothing (R326). -/
def State.engineTurn (s : State) : Host.Outcome State Fault Refusal :=
  match s.phase with
  | .idle => .next s
  | .busy cw =>
    match decode cw with
    | .ok i => exec i s
    | .error _ => .next s.illegalCommand

/-- How many draws the running command would make if it ran to its completion (U10); 0 in IDLE. -/
def State.drawsOfCommand (s : State) : Nat :=
  match s.engineTurn with
  | .next t => t.rng.count - s.rng.count
  | .fault _ => 0
  | .refused _ => 0

/-- The hardware reset input (R350, R351): a running command is abandoned, none of its results becomes visible,
and the draws it made, `draws` but no more than the full command makes, are consumed (U10, log 10). -/
def State.hardwareReset (s : State) (draws : Nat) : State :=
  State.applyReset { s with rng := s.rng.skip (min draws s.drawsOfCommand) }

/-- One input takes effect (R60, R71). -/
def State.takeInput (s : State) (x : Input) : Host.Outcome State Fault Refusal :=
  match x with
  | .read off => .next (s.hostRead off)
  | .write off v => .next (s.hostWrite off v)
  | .engine => s.engineTurn
  | .hardwareReset draws => .next (s.hardwareReset draws)

/-- One step: the oldest input takes effect; where none is pending it is the engine's turn (R71, R363, log 8). -/
def State.advance (s : State) : Host.Outcome State Fault Refusal :=
  match s.inputs with
  | [] => s.engineTurn
  | x :: rest => State.takeInput { s with inputs := rest } x

/-- `s` with the command word `cw` issued and its execution the very next thing to happen. -/
def State.placeCommand (s : State) (cw : Word) : State :=
  { s.issue cw with inputs := .engine :: s.inputs }

end Sys2Proof.Machine
end

