-- ==== Sys2Proof/Machine/Step.lean ====
section
/-! DEFINITION. The step of HYB-CORE, and how the host places one command where the next step runs it. -/

namespace Sys2Proof.Machine

/-- One step (20_memory.md R71; log 8). -/
def step (s : State) : Host.Outcome State Fault Refusal := s.advance

/-- `s` with the command whose bits are `w` issued (60_exceptions.md R310), so that the next step runs it; the
command word has 32 bits (30_encoding.md R90), the bits above `nbits` are 0 (log 8). -/
def State.withFetchWord (s : State) (nbits w : Nat) : State := s.placeCommand (BitVec.ofNat 32 (w % 2 ^ nbits))

end Sys2Proof.Machine
end

