-- ==== Sys2Proof/Machine/HostForms.lean ====
section
/-! DEFINITION. The host program forms of 30_encoding.md R98: each is a program of bus transactions that ends with
what its line gives the program, the value read where it reads one. -/

namespace Sys2Proof.Machine

/-- A host program that ends with an `α`. Later lines may name the values earlier ones read (R98). `engine` stands
where the engine takes its turn between two accesses (R71, R362, log 8). -/
inductive HostProgram (α : Type) where
  | done (x : α)
  | write (off : Offset) (v : Word) (next : HostProgram α)
  | read (off : Offset) (next : Word → HostProgram α)
  | engine (next : HostProgram α)

/-- The lines of `p`, then those of the program its value gives. -/
def HostProgram.andThen {α β : Type} (p : HostProgram α) (f : α → HostProgram β) : HostProgram β :=
  match p with
  | .done x => f x
  | .write off v next => .write off v (next.andThen f)
  | .read off next => .read off fun v => (next v).andThen f
  | .engine next => .engine (next.andThen f)

/-- The state after a program and what it ends with. -/
def HostProgram.run {α : Type} (p : HostProgram α) (s : State) : Host.Outcome (State × α) Fault Refusal :=
  match p with
  | .done x => .next (s, x)
  | .write off v next => next.run (s.hostWrite off v)
  | .read off next => (next (s.hostReadWord off)).run (s.hostRead off)
  | .engine next =>
    match s.engineTurn with
    | .next t => next.run t
    | .fault r => .fault r
    | .refused r => .refused r

/-- `WR off, v`. -/
def formWr (off : Nat) (v : Word) : HostProgram Unit := .write (BitVec.ofNat 17 off) v (.done ())

/-- `RD off`. -/
def formRd (off : Nat) : HostProgram Word := .read (BitVec.ofNat 17 off) .done

/-- `ISSUE mnem [arg]`: the command word written to CMD. -/
def formIssue (i : Instr) : HostProgram Unit := formWr 0x0000C (encode i)

/-- `WAIT`: `RD 0x00008` until bit 0 of the value is 0; it ends with that value. A command still running after `polls`
reads completes before the next one (log 8), which then reads 0 in bit 0 and is the last. -/
def formWait : Nat → HostProgram Word
  | 0 => .engine (formRd 0x00008)
  | polls + 1 => (formRd 0x00008).andThen fun v => if v.getLsbD 0 then formWait polls else .done v

/-- `RUN mnem [arg]`: `ISSUE` then `WAIT`. -/
def formRun (i : Instr) (polls : Nat) : HostProgram Word := (formIssue i).andThen fun _ => formWait polls

/-- `WR` lines for successive words from `off` on. -/
def writeWords : Nat → List Word → HostProgram Unit
  | _, [] => .done ()
  | off, w :: rest => (formWr off w).andThen fun _ => writeWords (off + 4) rest

/-- `RD` lines for `n` successive words from `off` on. -/
def readWords : Nat → Nat → HostProgram (List Word)
  | 0, _ => .done []
  | n + 1, off => (formRd off).andThen fun w => (readWords n (off + 4)).andThen fun ws => .done (w :: ws)

/-- The words of a byte string followed by zero bytes to a multiple of 4, byte 0 least significant in its word. -/
def wordsOfBytes (X : List Byte) : List Word :=
  (List.range ((X.length + 3) / 4)).map fun k => wordOfBytes fun i => X.getD (4 * k + i) 0#8

/-- The bytes of a list of words, least significant first in each. -/
def bytesOfWords (ws : List Word) : List Byte := ws.flatMap fun w => (List.range 4).map (byteAt w)

/-- The `n` words of an integer, word 0 least significant. -/
def wordsOfValue (n v : Nat) : List Word := (List.range n).map fun k => BitVec.ofNat 32 (v / 2 ^ (32 * k))

/-- The integer of a list of words, word 0 least significant. -/
def valueOfWords : List Word → Nat
  | [] => 0
  | w :: rest => w.toNat + 2 ^ 32 * valueOfWords rest

/-- `WRS off, X`. -/
def formWrs (off : Nat) (X : List Byte) : HostProgram Unit := writeWords off (wordsOfBytes X)

/-- `WRV off, v`. -/
def formWrv (off v : Nat) : HostProgram Unit := writeWords off (wordsOfValue (Config.bigBytes / 4) v)

/-- `RDS off, n`: the `n` bytes read, the inverse of `WRS`. -/
def formRds (off n : Nat) : HostProgram (List Byte) :=
  (readWords ((n + 3) / 4) off).andThen fun ws => .done ((bytesOfWords ws).take n)

/-- `RDV off`: the integer assembled from the words of a big-number register. -/
def formRdv (off : Nat) : HostProgram Nat :=
  (readWords (Config.bigBytes / 4) off).andThen fun ws => .done (valueOfWords ws)

end Sys2Proof.Machine
end

