-- ==== Sys2Proof/Safety.lean ====
section
/-! DEFINITION. The terms claims are stated in: how a command ends, what it leaves unchanged, which errors it may
report, and the invariant of the machine. -/

namespace Sys2Proof.Machine

/-- A command whose state at its start was `s` ended in `t` with success and result `res` (R311); what happened to
the registers its rule writes is said beside it. -/
def Succeeds (s t : State) (res : Bool) : Prop :=
  t.phase = .idle ∧ t.status = { s.status with done := true, result := res }

/-- What STATUS says of an error: code, engine, stage (R314 to R316). -/
abbrev ErrorReport := ErrorCode × EngineCode × StageCode

/-- A command whose state at its start was `s` ended in `t` with an error (R312, R313): nothing but STATUS and the
phase differs, and the draws it made before the error are gone from the random source. -/
def FailsWith (s t : State) (e : ErrorReport) : Prop :=
  t = { s with
        phase := .idle
        rng := t.rng
        status :=
          { s.status with err := true, result := false, errcode := e.1, engine := e.2.1, stage := e.2.2 } }

/-- The same, by a check made before any draw (R317). -/
def RejectsWith (s t : State) (e : ErrorReport) : Prop := FailsWith s t e ∧ t.rng = s.rng

/-- No byte of PBUF or MBUF reads differently. -/
def MemoryKept (s t : State) : Prop := ∀ o : Nat, t.readByte o = s.readByte o

/-- No byte of PBUF or MBUF outside `[base, base + n)` reads differently. -/
def MemoryKeptOutside (s t : State) (base n : Nat) : Prop :=
  ∀ o : Nat, o < base ∨ base + n ≤ o → t.readByte o = s.readByte o

/-- The errors each command can raise (R318). -/
def errorsOf : Instr → List ErrorReport
  | .nop | .sreset | .aesKeyexp | .aesEncBlock | .aesDecBlock | .aesSubbytes | .aesInvSubbytes | .aesShiftrows
  | .aesInvShiftrows | .aesMixcolumns | .aesInvMixcolumns | .aesGfmul _ | .rngKey | .rngIv => []
  | .aesAddroundkey _ => [(.badOperand, .aesBlock, .validation)]
  | .pkcs7Pad | .cbcEncRaw | .cbcDecRaw | .cbcEnc => [(.invalidInputLength, .aesCbc, .validation)]
  | .pkcs7Unpad | .cbcDec => [(.invalidInputLength, .aesCbc, .validation), (.paddingError, .aesCbc, .padding)]
  | .mrTest _ => [(.badOperand, .primality, .validation)]
  | .rsaKeygen _ => [(.badOperand, .keygen, .validation), (.keygenExhausted, .keygen, .compute)]
  | .modexp => [(.badOperand, .bigint, .validation)]
  | .modinv => [(.badOperand, .bigint, .validation), (.noInverse, .bigint, .compute)]
  | .pkcs1Pad | .rsaEnc => [(.invalidInputLength, .rsa, .validation)]
  | .pkcs1Unpad => [(.paddingError, .rsa, .padding)]
  | .rsaDec => [(.badOperand, .rsa, .validation), (.paddingError, .rsa, .padding)]

/-- The report of an illegal command word (R92, R318). -/
def illegalReport : ErrorReport := (.illegalCommand, .decoder, .validation)

/-- A bus offset lies in PBUF or in MBUF (R64). -/
def InBuffers (o : Nat) : Prop :=
  (pbufBase ≤ o ∧ o < pbufBase + Config.pbufBytes) ∨ (mbufBase ≤ o ∧ o < mbufBase + Config.mbufBytes)

/-- The invariant of the machine: the memory lists bytes of PBUF and MBUF in canonical form, and STATUS says only
what R23, R40, R44, R310 to R312 and R318 let it say. -/
structure State.Inv (s : State) : Prop where
  memCanonical : s.mem.wf
  memInBuffers : ∀ c ∈ s.mem, InBuffers c.1
  notDoneAndErr : ¬ (s.status.done = true ∧ s.status.err = true)
  busyClears : s.phase.isBusy = true →
    s.status.done = false ∧ s.status.err = false ∧ s.status.result = false
  busyLastop : ∀ cw : Word, s.phase = .busy cw → s.status.lastop = fieldOp cw
  noErrNoCodes : s.status.err = false →
    s.status.errcode = .none ∧ s.status.engine = .none ∧ s.status.stage = .none
  errHasReport : s.status.err = true →
    (s.status.errcode, s.status.engine, s.status.stage) = illegalReport ∨
    ∃ i : Instr, i.opcode = s.status.lastop ∧ (s.status.errcode, s.status.engine, s.status.stage) ∈ errorsOf i
  resultOnlyOfMrTest : s.status.result = true → s.status.done = true ∧ s.status.lastop = 0x30#8

/-- Commands executed one after another, each completing before the next starts (R71). -/
def execAll : List Instr → State → Host.Outcome State Fault Refusal
  | [], s => .next s
  | i :: rest, s =>
    match exec i s with
    | .next t => execAll rest t
    | .fault r => .fault r
    | .refused r => .refused r

/-- The offsets that name nothing (R64, R65): the reserved rows of the register map and the part of each window
beyond its register or buffer. -/
def ReservedOffset (o : Nat) : Prop :=
  (0x0001C ≤ o ∧ o < 0x00020) ∨ (0x00050 ≤ o ∧ o < 0x00100) ∨ (0x001B0 ≤ o ∧ o < 0x01000) ∨
  (0x01000 ≤ o ∧ o < 0x03800 ∧ 256 ≤ o % 0x400) ∨ (0x03800 ≤ o ∧ o < 0x10000) ∨ (0x11000 ≤ o ∧ o < 0x20000)

/-- The offset of the window of a big-number register (R64). -/
def bigWindow : BigReg → Nat
  | .a => 0x01000
  | .b => 0x01400
  | .m => 0x01800
  | .r => 0x01C00
  | .rsaN => 0x02000
  | .rsaE => 0x02400
  | .rsaD => 0x02800
  | .rsaC => 0x02C00
  | .rsaMb => 0x03000

/-- What every register the spec gives a reset value holds (R45); RK, PBUF and MBUF are unspecified there. -/
def ResetValues (t : State) : Prop :=
  t.phase = .idle ∧ t.wordAtPlace .id = 0x48594231#32 ∧ t.ctrlWord = 0x00000000#32 ∧ t.statusWord = 0x00000000#32 ∧
  t.mlen = 0#32 ∧ t.plen = 0#32 ∧ t.kgBits = 0#32 ∧
  (∀ k : Nat, k < 16 → byteAt t.key k = 0x00#8 ∧ byteAt t.iv k = 0x00#8 ∧ byteAt t.data k = 0x00#8) ∧
  (∀ reg : BigReg, bigVal (t.big reg) = 0) ∧ t.irq = false

/-- The last `n` bytes of `X` are PKCS7 padding (R182, R183). -/
def EndsInPadding (X : List Byte) (n : Nat) : Prop :=
  1 ≤ n ∧ n ≤ 16 ∧ n ≤ X.length ∧ ∀ k : Nat, X.length - n ≤ k → k < X.length → (X.getD k 0#8).toNat = n

/-- `EM` is a PKCS#1 block with the padding string `PS` and the payload `P` (R281, R282). -/
def IsEncoding (EM PS P : List Byte) : Prop :=
  EM = 0x00#8 :: 0x02#8 :: (PS ++ 0x00#8 :: P) ∧ ∀ x ∈ PS, x ≠ 0x00#8

/-- The round with base `a` passes for the odd number `n` (R221): `a^d ≡ 1`, or `a^(d·2^r) ≡ n − 1` for some
`r < k`, where `n − 1 = 2^k · d` with `d` odd (R220). -/
def PassesRound (n a : Nat) : Prop :=
  ∃ k d : Nat, n - 1 = 2 ^ k * d ∧ d % 2 = 1 ∧ (a ^ d % n = 1 ∨ ∃ r : Nat, r < k ∧ a ^ (d * 2 ^ r) % n = n - 1)

/-- What the source answers for one prime candidate: `Draw.bits(h)`, then its Miller–Rabin bases (R242). -/
structure Candidate where
  drawn : Nat
  bases : List Nat
  deriving DecidableEq, Repr

/-- The candidate itself (R242). -/
def Candidate.value (c : Candidate) (h : Nat) : Nat := primeCandidate h c.drawn

/-- The answers are in the ranges of their draws (R242, R221). -/
def Candidate.InRange (c : Candidate) (h : Nat) : Prop :=
  c.drawn < 2 ^ h ∧ ∀ a ∈ c.bases, 2 ≤ a ∧ a ≤ c.value h - 2

/-- The candidate passes its `t` rounds (R221, R242). -/
def Candidate.Accepted (c : Candidate) (h t : Nat) : Prop :=
  c.InRange h ∧ c.bases.length = t ∧ ∀ a ∈ c.bases, PassesRound (c.value h) a

/-- The candidate fails one of its `t` rounds, and that round is the last one drawn for it (R221, R242). -/
def Candidate.Rejected (c : Candidate) (h t : Nat) : Prop :=
  c.InRange h ∧ ∃ (passed : List Nat) (b : Nat), c.bases = passed ++ [b] ∧ passed.length < t ∧
    (∀ a ∈ passed, PassesRound (c.value h) a) ∧ ¬ PassesRound (c.value h) b

/-- The answers of successive candidates, in the order they are drawn (R242). -/
def drawsOf (cs : List Candidate) : List Nat := cs.flatMap fun c => c.drawn :: c.bases

/-- `p` and `q` make a key pair (R244; the check of the length of `N` never fails, R244). -/
def Suitable (p q : Nat) : Prop := p ≠ q ∧ Nat.gcd 65537 (Nat.lcm (p - 1) (q - 1)) = 1

/-- RSA_KEYGEN whose state at its start was `s` wrote the key pair of `p` and `q` and nothing else (R243, R244). -/
def WritesKeyPair (s u : State) (p q : Nat) : Prop :=
  Succeeds s u false ∧
  u = { s with
        rsaN := u.rsaN, rsaE := u.rsaE, rsaD := u.rsaD, rng := u.rng, phase := u.phase, status := u.status } ∧
  MemoryKept s u ∧ bigVal u.rsaN = p * q ∧ bigVal u.rsaE = 65537 ∧
  65537 * bigVal u.rsaD % Nat.lcm (p - 1) (q - 1) = 1 ∧ bigVal u.rsaD < Nat.lcm (p - 1) (q - 1)

/-- The single-step commands of the full rounds `r = 1 .. n` of R155. -/
def cipherRoundSteps : Nat → List Instr
  | 0 => []
  | n + 1 =>
    cipherRoundSteps n ++ [.aesSubbytes, .aesShiftrows, .aesMixcolumns, .aesAddroundkey (BitVec.ofNat 8 (n + 1))]

/-- The single-step commands R155 is made of. -/
def cipherSteps : List Instr :=
  .aesAddroundkey 0#8 :: (cipherRoundSteps 9 ++ [.aesSubbytes, .aesShiftrows, .aesAddroundkey 10#8])

/-- The single-step commands of the rounds `r = n, …, 1` of R156. -/
def invCipherRoundSteps : Nat → List Instr
  | 0 => []
  | n + 1 =>
    [.aesInvShiftrows, .aesInvSubbytes, .aesAddroundkey (BitVec.ofNat 8 (n + 1)), .aesInvMixcolumns] ++
      invCipherRoundSteps n

/-- The single-step commands R156 is made of. -/
def invCipherSteps : List Instr :=
  .aesAddroundkey 10#8 :: (invCipherRoundSteps 9 ++ [.aesInvShiftrows, .aesInvSubbytes, .aesAddroundkey 0#8])

end Sys2Proof.Machine
end

