-- ==== Sys2Proof/Certificates/Slice0/Obligations.lean ====
section
/-! DEFINITION. The statements for the provers, from the numbered rules of spec/. -/

open Sys2Proof Sys2Proof.Machine

/-! ## Command words -/

/-- R90, R91, R93: no bit of an encoding is dropped, every argument at every value. -/
def Obligations.DecodeOfEncodeIsIdentity : Prop := ∀ i : Instr, decode (encode i) = .ok i

/-- R90, R92, R93: a legal word has one reading, and the table's numbering reads it so. -/
def Obligations.EncodeOfDecodeIsIdentity : Prop :=
  ∀ (cw : Word) (i : Instr), decode cw = .ok i → encode i = cw ∧ decodeTableWord 32 cw.toNat = some i

/-- R94: the match and mask pairs select exactly the legal words, with `OP` and `ARG` where R90 puts them. -/
def Obligations.LegalWordsMatchTableRows : Prop :=
  ∀ cw : Word,
    ((∃ i : Instr, decode cw = .ok i) ↔ matchesRow cw = true) ∧
    (∀ i : Instr, decode cw = .ok i → i.opcode = cw.extractLsb' 0 8 ∧ i.arg = cw.extractLsb' 8 8)

/-- R97 and 95_test_vectors.md 2.9: words written out from the encoding. -/
def Obligations.WrittenWordsDecode : Prop :=
  decode 0x00000A19#32 = .ok (.aesAddroundkey 10#8) ∧ decode 0x00002830#32 = .ok (.mrTest 40#8) ∧
  decode 0x00000238#32 = .ok (.rsaKeygen 2#8) ∧ decode 0x0000031A#32 = .ok (.aesGfmul 0x03#8) ∧
  decode 0x00000026#32 = .ok .cbcEnc ∧ decode 0x00000041#32 = .ok .modinv ∧ decode 0x0000004B#32 = .ok .rsaDec ∧
  decode 0x00000100#32 = .error (.argumentNotTaken 0x00#8) ∧ decode 0x80000026#32 = .error .reservedField ∧
  decode 0x000000C0#32 = .error (.reservedOpcode 0xC0#8) ∧
  (Instr.aesAddroundkey 10#8).assembly = "AES_ADDROUNDKEY 10" ∧ Instr.cbcEnc.assembly = "CBC_ENC"

/-! ## The command frame -/

/-- R310, R311: the engine's turn executes the decoded command; nothing is added around `exec`. A placed word is
issued, and the next step executes it (log 8). -/
def Obligations.StepRunsTheDecodedCommand : Prop :=
  (∀ (s : State) (cw : Word) (i : Instr), s.phase = .busy cw → decode cw = .ok i →
    (s.inputs = [] → step s = exec i s) ∧
    (∀ rest : List Input, s.inputs = .engine :: rest → step s = exec i { s with inputs := rest })) ∧
  (∀ (s : State) (w : Nat) (i : Instr), decodeTableWord 32 w = some i →
    step (s.withFetchWord 32 w) = exec i (s.issue (BitVec.ofNat 32 w)))

/-- R310: a write to CMD issues the word in IDLE and is ignored in the BUSY window; STATUS then reads LASTOP and
BUSY. -/
def Obligations.CmdWriteIssuesTheCommand : Prop :=
  ∀ (s : State) (off : Offset) (v : Word) (rest : List Input),
    s.inputs = .write off v :: rest → 0x0000C ≤ off.toNat → off.toNat < 0x00010 →
    (s.phase = .idle → ∃ t : State, step s = .next t ∧
      t = { s with
            inputs := rest
            phase := .busy v
            status :=
              { done := false, err := false, result := false, errcode := .none, engine := .none, stage := .none
                lastop := v.extractLsb' 0 8 } } ∧
      t.statusWord.toNat = v.toNat % 256 * 2 ^ 24 + 1) ∧
    (∀ cw : Word, s.phase = .busy cw → step s = .next { s with inputs := rest })

/-- R92: which words are legal, and what an illegal one does. -/
def Obligations.IllegalWordCompletesWithItsError : Prop :=
  ∀ cw : Word,
    ((∃ i : Instr, decode cw = .ok i) ↔
      ∃ i : Instr, i.opcode = cw.extractLsb' 0 8 ∧ cw.extractLsb' 16 16 = 0#16 ∧
        (i.takesArg = true ∨ cw.extractLsb' 8 8 = 0#8)) ∧
    (∀ (e : DecodeError) (s : State) (rest : List Input), decode cw = .error e → s.phase = .idle →
      s.inputs = .write 0x0000C#17 cw :: .engine :: rest →
      ∃ u t : State, step s = .next u ∧ step u = .next t ∧
        t = { s with
              inputs := rest
              status :=
                { done := false, err := true, result := false, errcode := .illegalCommand, engine := .decoder
                  stage := .validation, lastop := cw.extractLsb' 0 8 } } ∧
        t.statusWord.toNat = cw.toNat % 256 * 2 ^ 24 + 0x11504)

/-- R318, with R311 to R313: every command answers a next state; it succeeds (`RESULT` = 1 only for MR_TEST, R44),
or it ends with an error of its row of the table and changes nothing else. SRESET resets instead (R311). -/
def Obligations.CommandsEndAsTheErrorTableSays : Prop :=
  ∀ (i : Instr) (s : State), ∃ t : State, exec i s = .next t ∧
    ((i = .sreset ∧ t = s.applyReset) ∨
     (i ≠ .sreset ∧
      ((∃ res : Bool, Succeeds s t res ∧ (res = true → ∃ n : Byte, i = .mrTest n)) ∨
       ∃ e ∈ errorsOf i, FailsWith s t e)))

/-- R327, R363: no step faults or refuses, and a running command whose turn comes completes. Which agent's turn it
is stands in the list of inputs, the model's choice (log 8). -/
def Obligations.EveryStepAnswersNext : Prop :=
  ∀ s : State, (∃ t : State, step s = .next t) ∧
    (∀ cw : Word, s.phase = .busy cw → (s.inputs = [] ∨ ∃ rest : List Input, s.inputs = .engine :: rest) →
      ∃ t : State, step s = .next t ∧ t.phase = .idle)

/-- R29 to R32, R34 ("written by"), R77 ("the commands that draw"): which registers the engine writes, and that
no command but SRESET writes any other; inputs, parameters and the host's last word are never touched. -/
def Obligations.EngineWritesOnlyItsRegisters : Prop :=
  ∀ (i : Instr) (s t : State), exec i s = .next t →
    t.inputs = s.inputs ∧ t.readData = s.readData ∧ t.kgMaxCandidates = s.kgMaxCandidates ∧
    t.busyReads = s.busyReads ∧ s.rng.count ≤ t.rng.count ∧
    (t.rng ≠ s.rng → i = .rngKey ∨ i = .rngIv ∨ (∃ n, i = .mrTest n) ∨ (∃ n, i = .rsaKeygen n) ∨
      i = .pkcs1Pad ∨ i = .rsaEnc) ∧
    (i ≠ .sreset →
      t.irqEn = s.irqEn ∧ t.kgBits = s.kgBits ∧ t.a = s.a ∧ t.b = s.b ∧ t.m = s.m ∧ t.epoch = s.epoch ∧
      (t.data ≠ s.data → i = .aesEncBlock ∨ i = .aesDecBlock ∨ i = .aesSubbytes ∨ i = .aesInvSubbytes ∨
        i = .aesShiftrows ∨ i = .aesInvShiftrows ∨ i = .aesMixcolumns ∨ i = .aesInvMixcolumns ∨
        (∃ r, i = .aesAddroundkey r) ∨ ∃ c, i = .aesGfmul c) ∧
      (t.key ≠ s.key → i = .rngKey) ∧ (t.iv ≠ s.iv → i = .rngIv) ∧
      (t.r ≠ s.r → i = .modexp ∨ i = .modinv) ∧
      (t.rsaN ≠ s.rsaN ∨ t.rsaE ≠ s.rsaE ∨ t.rsaD ≠ s.rsaD → ∃ n, i = .rsaKeygen n) ∧
      (t.rsaC ≠ s.rsaC → i = .rsaEnc) ∧
      (t.rsaMb ≠ s.rsaMb → i = .pkcs1Pad ∨ i = .rsaEnc ∨ i = .rsaDec) ∧
      (t.plen ≠ s.plen → i = .pkcs1Unpad ∨ i = .rsaDec) ∧
      (t.mlen ≠ s.mlen → i = .pkcs7Pad ∨ i = .pkcs7Unpad ∨ i = .cbcEnc ∨ i = .cbcDec) ∧
      (t.mem ≠ s.mem → i = .pkcs7Pad ∨ i = .cbcEncRaw ∨ i = .cbcDecRaw ∨ i = .cbcEnc ∨ i = .cbcDec ∨
        i = .pkcs1Unpad ∨ i = .rsaDec) ∧
      (t.rk ≠ s.rk → i = .aesKeyexp ∨ i = .aesEncBlock ∨ i = .aesDecBlock ∨ (∃ r, i = .aesAddroundkey r) ∨
        i = .cbcEncRaw ∨ i = .cbcDecRaw ∨ i = .cbcEnc ∨ i = .cbcDec))

/-- R125, 93_implementation_defined.md U1: no command reads RK. Two runs that differ only in the RK they start
with end alike in all but RK, and where a command writes RK, in RK too; of the RK that SRESET leaves unspecified
(R350, U3) nothing is said. -/
def Obligations.OldRoundKeysAreNeverUsed : Prop :=
  ∀ (i : Instr) (s : State) (x : BitVec 1408), ∃ t u : State,
    exec i s = .next t ∧ exec i { s with rk := x } = .next u ∧
    u = { t with rk := u.rk } ∧ (i ≠ .sreset → u.rk = t.rk ∨ (t.rk = s.rk ∧ u.rk = x))

/-- R35, R36: a command reads of MBUF and PBUF only the message and the payload. Two runs whose buffers agree on
those bytes end alike in all but the buffers, and in the message and the payload they end with; and each byte ends
alike in both or as each run found it, but for the bytes SRESET leaves unspecified (R350, U3). -/
def Obligations.BytesBeyondTheLengthsAreNeverRead : Prop :=
  ∀ (i : Instr) (s : State) (other : Memory),
    (∀ k : Nat, k < s.messageLength →
      State.readByte { s with mem := other } (mbufBase + k) = s.readByte (mbufBase + k)) →
    (∀ k : Nat, k < s.payloadLength →
      State.readByte { s with mem := other } (pbufBase + k) = s.readByte (pbufBase + k)) →
    ∃ t u : State, exec i s = .next t ∧ exec i { s with mem := other } = .next u ∧ u = { t with mem := u.mem } ∧
      (∀ k : Nat, k < t.messageLength → u.readByte (mbufBase + k) = t.readByte (mbufBase + k)) ∧
      (∀ k : Nat, k < t.payloadLength → u.readByte (pbufBase + k) = t.readByte (pbufBase + k)) ∧
      (i ≠ .sreset → ∀ o : Nat, u.readByte o = t.readByte o ∨
        (t.readByte o = s.readByte o ∧ u.readByte o = State.readByte { s with mem := other } o))

/-! ## The bus -/

/-- R70: accesses in the BUSY window. The word of clause (d) is a free value: any `x`. -/
def Obligations.BusyWindowAccesses : Prop :=
  ∀ (s : State) (cw : Word), s.phase = .busy cw →
    (∀ (off : Offset) (v : Word) (rest : List Input), s.inputs = .write off v :: rest →
      step s = .next (if off.toNat / 4 = 1 then { s with inputs := rest, irqEn := v.getLsbD 0 }
        else { s with inputs := rest })) ∧
    (∀ (off : Offset) (rest : List Input), s.inputs = .read off :: rest →
      ∃ (t : State) (x : Word), step s = .next t ∧
        t = { s with inputs := rest, readData := some x, busyReads := t.busyReads } ∧
        (off.toNat / 4 = 0 → x = 0x48594231#32) ∧
        (off.toNat / 4 = 1 → x = (if s.irqEn then 1#32 else 0#32)) ∧
        (off.toNat / 4 = 2 → x = s.statusWord ∧ x.getLsbD 0 = true))

/-- R65: reserved offsets, window tails, CMD and the read-only registers, in IDLE (R70 rules the BUSY window); and
no access stops the machine. -/
def Obligations.ReservedOffsetsReadZeroAndIgnoreWrites : Prop :=
  ∀ (s : State) (off : Offset) (v : Word) (rest : List Input),
    (s.phase = .idle → s.inputs = .read off :: rest →
      (ReservedOffset off.toNat ∨ (0x0000C ≤ off.toNat ∧ off.toNat < 0x00010)) →
      step s = .next { s with inputs := rest, readData := some 0#32 }) ∧
    (s.phase = .idle → s.inputs = .write off v :: rest →
      (ReservedOffset off.toNat ∨ off.toNat < 0x00004 ∨ (0x00008 ≤ off.toNat ∧ off.toNat < 0x0000C) ∨
        (0x00100 ≤ off.toNat ∧ off.toNat < 0x001B0)) →
      step s = .next { s with inputs := rest }) ∧
    (s.inputs = .read off :: rest ∨ s.inputs = .write off v :: rest → ∃ t : State, step s = .next t)

/-- R62: `off[1:0]` is ignored. -/
def Obligations.LowAddressBitsAreIgnored : Prop :=
  ∀ (s : State) (off off' : Offset) (v : Word) (rest : List Input), off.toNat / 4 = off'.toNat / 4 →
    step { s with inputs := .read off :: rest } = step { s with inputs := .read off' :: rest } ∧
    step { s with inputs := .write off v :: rest } = step { s with inputs := .write off' v :: rest }

/-- R63, R64: a word written to a read-write register or buffer reads back, and every other word of the map reads as
before. -/
def Obligations.WrittenWordsReadBack : Prop :=
  ∀ (s : State) (off off' : Offset) (v : Word) (rest : List Input), s.phase = .idle →
    ((0x00010 ≤ off.toNat ∧ off.toNat < 0x0001C) ∨ (0x00020 ≤ off.toNat ∧ off.toNat < 0x00050) ∨
      (0x01000 ≤ off.toNat ∧ off.toNat < 0x03800 ∧ off.toNat % 0x400 < 256) ∨
      (0x10000 ≤ off.toNat ∧ off.toNat < 0x11000)) →
    s.inputs = .write off v :: .read off' :: rest →
    ∃ u t before : State, step s = .next u ∧ step u = .next t ∧
      step { s with inputs := .read off' :: rest } = .next before ∧
      (off'.toNat / 4 = off.toNat / 4 → t.readData = some v) ∧
      (off'.toNat / 4 ≠ off.toNat / 4 → t.readData = before.readData)

/-- R63, R64, R78: byte lanes of the byte-string registers and buffers, and word `k` of a big-number register. -/
def Obligations.HostReadsLittleEndianLanes : Prop :=
  ∀ (s : State) (off : Offset) (rest : List Input), s.phase = .idle → s.inputs = .read off :: rest →
    ∃ (t : State) (x : Word), step s = .next t ∧ t = { s with inputs := rest, readData := some x } ∧
      (∀ (base size : Nat) (f : Nat → Byte),
        (base = 0x00020 ∧ size = 16 ∧ f = byteAt s.key) ∨ (base = 0x00030 ∧ size = 16 ∧ f = byteAt s.iv) ∨
        (base = 0x00040 ∧ size = 16 ∧ f = byteAt s.data) ∨ (base = 0x00100 ∧ size = 176 ∧ f = byteAt s.rk) ∨
        (base = 0x03400 ∧ size = 256 ∧ f = fun k => s.readByte (0x03400 + k)) ∨
        (base = 0x10000 ∧ size = 4096 ∧ f = fun k => s.readByte (0x10000 + k)) →
        ∀ k : Nat, 4 * k < size → off.toNat = base + 4 * k →
          x.toNat = (f (4 * k)).toNat + (f (4 * k + 1)).toNat * 256 + (f (4 * k + 2)).toNat * 256 ^ 2 +
            (f (4 * k + 3)).toNat * 256 ^ 3) ∧
      (∀ (reg : BigReg) (k : Nat), k < 64 → off.toNat = bigWindow reg + 4 * k →
        x.toNat = bigVal (s.big reg) / 2 ^ (32 * k) % 2 ^ 32)

/-- R21, R22, R23, R26, R27, R28: the 32-bit registers, read and written in IDLE; the fields of STATUS. -/
def Obligations.ControlRegistersReadAndWrite : Prop :=
  ∀ (s : State) (off : Offset) (v : Word) (rest : List Input), s.phase = .idle →
    (s.inputs = .read off :: rest → ∃ (t : State) (x : Word), step s = .next t ∧
      t = { s with inputs := rest, readData := some x } ∧
      (off.toNat = 0x00000 → x = 0x48594231#32) ∧
      (off.toNat = 0x00004 → x.getLsbD 0 = s.irqEn ∧ ∀ k : Nat, 1 ≤ k → x.getLsbD k = false) ∧
      (off.toNat = 0x00008 →
        x.extractLsb' 24 8 = s.status.lastop ∧ x.extractLsb' 20 4 = 0#4 ∧
        x.extractLsb' 16 4 = stageCodeBits s.status.stage ∧ x.extractLsb' 12 4 = engineCodeBits s.status.engine ∧
        x.extractLsb' 8 4 = errorCodeBits s.status.errcode ∧ x.extractLsb' 4 4 = 0#4 ∧
        x.getLsbD 3 = s.status.result ∧ x.getLsbD 2 = s.status.err ∧ x.getLsbD 1 = s.status.done ∧
        x.getLsbD 0 = false) ∧
      (off.toNat = 0x00010 → x = s.mlen) ∧ (off.toNat = 0x00014 → x = s.plen) ∧
      (off.toNat = 0x00018 → x = s.kgBits)) ∧
    (s.inputs = .write off v :: rest →
      (off.toNat = 0x00004 → step s = .next { s with inputs := rest, irqEn := v.getLsbD 0 }) ∧
      (off.toNat = 0x00010 → step s = .next { s with inputs := rest, mlen := v }) ∧
      (off.toNat = 0x00014 → step s = .next { s with inputs := rest, plen := v }) ∧
      (off.toNat = 0x00018 → step s = .next { s with inputs := rest, kgBits := v }))

/-- R66: reads change nothing but what the host holds, a write other than to CMD done twice is done once, and a
write to KEY does not change RK. -/
def Obligations.AccessesHaveNoOtherSideEffect : Prop :=
  ∀ (s : State) (off : Offset) (v : Word) (rest : List Input), s.phase = .idle →
    (s.inputs = .read off :: rest →
      ∃ t : State, step s = .next t ∧ t = { s with inputs := rest, readData := t.readData }) ∧
    (¬ (0x0000C ≤ off.toNat ∧ off.toNat < 0x00010) → s.inputs = .write off v :: .write off v :: rest →
      ∃ u t : State, step s = .next u ∧ step u = .next t ∧ u = { t with inputs := .write off v :: rest } ∧
        (0x00020 ≤ off.toNat → off.toNat < 0x00030 → t.rk = s.rk))

/-- R320, R41: the interrupt output and what makes it rise and fall. -/
def Obligations.IrqFollowsControlAndStatus : Prop :=
  (∀ s : State, s.irq = (s.ctrlWord.getLsbD 0 && (s.statusWord.getLsbD 1 || s.statusWord.getLsbD 2))) ∧
  (∀ (i : Instr) (s t : State), exec i s = .next t → t.irq = (decide (i ≠ .sreset) && s.irqEn)) ∧
  (∀ (s : State) (cw : Word), (s.issue cw).irq = false) ∧
  (∀ (s t : State) (off : Offset) (v : Word) (rest : List Input), s.inputs = .write off v :: rest →
    off.toNat / 4 = 1 → step s = .next t → t.irq = (v.getLsbD 0 && (s.status.done || s.status.err))) ∧
  State.reset.irq = false

/-! ## Reset and the invariant -/

/-- R45: the values the spec gives for reset, by power-on, by SRESET and by the reset input in IDLE; the random
source is not affected. RK, PBUF and MBUF are unspecified and nothing is said of them. -/
def Obligations.ResetHoldsTheSpecifiedValues : Prop :=
  ResetValues State.reset ∧
  ∀ s t : State,
    (exec .sreset s = .next t → ResetValues t ∧ t.rng = s.rng) ∧
    (∀ (draws : Nat) (rest : List Input), s.phase = .idle → s.inputs = .hardwareReset draws :: rest →
      step s = .next t → ResetValues t ∧ t.rng = s.rng)

/-- R111, R350: SRESET ends in the reset state with STATUS = 0, and does not touch the random source (R43). -/
def Obligations.SresetRestoresTheResetValues : Prop :=
  ∀ s : State, ∃ t : State, exec .sreset s = .next t ∧ ResetValues t ∧ t.rng = s.rng ∧
    t.kgMaxCandidates = s.kgMaxCandidates ∧ t.inputs = s.inputs

/-- R350, R351: the reset input, in either phase. The draws consumed are those of log 10. -/
def Obligations.HardwareResetAbandonsTheCommand : Prop :=
  ∀ (s : State) (draws : Nat) (rest : List Input), s.inputs = .hardwareReset draws :: rest →
    ∃ t : State, step s = .next t ∧ ResetValues t ∧ t.inputs = rest ∧ t.kgMaxCandidates = s.kgMaxCandidates ∧
      (s.phase = .idle → t.rng = s.rng) ∧
      (∀ (cw : Word) (e : DecodeError), s.phase = .busy cw → decode cw = .error e → t.rng = s.rng) ∧
      (∀ (cw : Word) (i : Instr) (u : State), s.phase = .busy cw → decode cw = .ok i → exec i s = .next u →
        t.rng.count = s.rng.count + min draws (u.rng.count - s.rng.count) ∧
        t.rng.queue = s.rng.queue.drop (min draws (u.rng.count - s.rng.count)))

/-- The invariant holds after reset (R45). -/
def Obligations.ResetSatisfiesTheInvariant : Prop := State.reset.Inv

/-- Every step keeps the invariant: canonical memory inside PBUF and MBUF, at most one of BUSY, DONE, ERR, no code
without an error, only the error reports of R318, RESULT only of MR_TEST (R23, R40, R44, R310 to R312, R318). -/
def Obligations.StepKeepsTheInvariant : Prop := ∀ s t : State, s.Inv → step s = .next t → t.Inv

/-! ## Control -/

/-- R110. -/
def Obligations.NopChangesOnlyStatus : Prop :=
  ∀ s : State, ∃ t : State, exec .nop s = .next t ∧ Succeeds s t false ∧
    t = { s with phase := t.phase, status := t.status } ∧ MemoryKept s t

/-! ## AES key schedule -/

/-- R124, R126: AES_KEYEXP writes the 44 words of the recurrence to RK, and nothing else. -/
def Obligations.KeyexpWritesTheSchedule : Prop :=
  ∀ s : State, ∃ t : State, exec .aesKeyexp s = .next t ∧ Succeeds s t false ∧
    t = { s with rk := t.rk, phase := t.phase, status := t.status } ∧ MemoryKept s t ∧
    (∀ i : Nat, i < 4 → wordAt t.rk i = wordAt s.key i) ∧
    (∀ i : Nat, 4 ≤ i → i < 44 →
      wordAt t.rk i = wordAt t.rk (i - 4) ^^^
        (if i % 4 = 0 then subWord (rotWord (wordAt t.rk (i - 1))) ^^^ rcon (i / 4) else wordAt t.rk (i - 1)))

/-- R121, R122, R123: RotWord, SubWord and the round constants, byte by byte. -/
def Obligations.ScheduleFunctionsOnBytes : Prop :=
  ∀ w : Word,
    (byteAt (rotWord w) 0 = byteAt w 1 ∧ byteAt (rotWord w) 1 = byteAt w 2 ∧ byteAt (rotWord w) 2 = byteAt w 3 ∧
      byteAt (rotWord w) 3 = byteAt w 0) ∧
    (∀ i : Nat, i < 4 → byteAt (subWord w) i = sbox (byteAt w i)) ∧
    (∀ j : Nat, 1 ≤ j → j ≤ 10 →
      (byteAt (rcon j) 0).toNat = [0x01, 0x02, 0x04, 0x08, 0x10, 0x20, 0x40, 0x80, 0x1B, 0x36].getD (j - 1) 0 ∧
      ∀ i : Nat, 1 ≤ i → i < 4 → byteAt (rcon j) i = 0x00#8)

/-! ## GF(2^8) and the S-box -/

/-- R142: the laws of the product. -/
def Obligations.FieldProductLaws : Prop :=
  ∀ x y z : Byte, gmul x y = gmul y x ∧ gmul (gmul x y) z = gmul x (gmul y z) ∧
    gmul x (y ^^^ z) = gmul x y ^^^ gmul x z ∧ gmul x 0x01#8 = x ∧ gmul x 0x00#8 = 0x00#8 ∧
    gmul x 0x02#8 = xtime x

/-- R143, R145, R147: `ginv` is the inverse, the table of SBOX is the affine map of the inverse, and INV_SBOX is its
inverse permutation. -/
def Obligations.SboxIsTheAffineMapOfTheInverse : Prop :=
  ginv 0x00#8 = 0x00#8 ∧
  ∀ x : Byte, (x ≠ 0x00#8 → gmul x (ginv x) = 0x01#8 ∧ ∀ y : Byte, gmul x y = 0x01#8 → y = ginv x) ∧
    sbox x = sboxAffine (ginv x) ∧ invSbox (sbox x) = x

/-! ## Block and round commands -/

/-- R148, R149, R162, R163. -/
def Obligations.SubstitutionCommands : Prop :=
  ∀ s : State,
    (∃ t : State, exec .aesSubbytes s = .next t ∧ Succeeds s t false ∧
      t = { s with data := t.data, phase := t.phase, status := t.status } ∧ MemoryKept s t ∧
      ∀ i : Nat, i < 16 → byteAt t.data i = sbox (byteAt s.data i)) ∧
    (∃ t : State, exec .aesInvSubbytes s = .next t ∧ Succeeds s t false ∧
      t = { s with data := t.data, phase := t.phase, status := t.status } ∧ MemoryKept s t ∧
      ∀ i : Nat, i < 16 → byteAt t.data i = invSbox (byteAt s.data i))

/-- R150, R151, R164, R165: the byte permutations as the rules list them. -/
def Obligations.RowShiftCommands : Prop :=
  ∀ s : State,
    (∃ t : State, exec .aesShiftrows s = .next t ∧ Succeeds s t false ∧
      t = { s with data := t.data, phase := t.phase, status := t.status } ∧ MemoryKept s t ∧
      ∀ i : Nat, i < 16 →
        byteAt t.data i = byteAt s.data ([0, 5, 10, 15, 4, 9, 14, 3, 8, 13, 2, 7, 12, 1, 6, 11].getD i 0)) ∧
    (∃ t : State, exec .aesInvShiftrows s = .next t ∧ Succeeds s t false ∧
      t = { s with data := t.data, phase := t.phase, status := t.status } ∧ MemoryKept s t ∧
      ∀ i : Nat, i < 16 →
        byteAt t.data i = byteAt s.data ([0, 13, 10, 7, 4, 1, 14, 11, 8, 5, 2, 15, 12, 9, 6, 3].getD i 0))

/-- R152, R153, R166, R167: the column equations as the rules list them. -/
def Obligations.ColumnMixCommands : Prop :=
  ∀ s : State,
    (∃ t : State, exec .aesMixcolumns s = .next t ∧ Succeeds s t false ∧
      t = { s with data := t.data, phase := t.phase, status := t.status } ∧ MemoryKept s t ∧
      ∀ c : Nat, c < 4 → ∀ x0 x1 x2 x3 : Byte, x0 = byteAt s.data (0 + 4 * c) → x1 = byteAt s.data (1 + 4 * c) →
        x2 = byteAt s.data (2 + 4 * c) → x3 = byteAt s.data (3 + 4 * c) →
        byteAt t.data (0 + 4 * c) = gmul 0x02#8 x0 ^^^ gmul 0x03#8 x1 ^^^ x2 ^^^ x3 ∧
        byteAt t.data (1 + 4 * c) = x0 ^^^ gmul 0x02#8 x1 ^^^ gmul 0x03#8 x2 ^^^ x3 ∧
        byteAt t.data (2 + 4 * c) = x0 ^^^ x1 ^^^ gmul 0x02#8 x2 ^^^ gmul 0x03#8 x3 ∧
        byteAt t.data (3 + 4 * c) = gmul 0x03#8 x0 ^^^ x1 ^^^ x2 ^^^ gmul 0x02#8 x3) ∧
    (∃ t : State, exec .aesInvMixcolumns s = .next t ∧ Succeeds s t false ∧
      t = { s with data := t.data, phase := t.phase, status := t.status } ∧ MemoryKept s t ∧
      ∀ c : Nat, c < 4 → ∀ x0 x1 x2 x3 : Byte, x0 = byteAt s.data (0 + 4 * c) → x1 = byteAt s.data (1 + 4 * c) →
        x2 = byteAt s.data (2 + 4 * c) → x3 = byteAt s.data (3 + 4 * c) →
        byteAt t.data (0 + 4 * c) = gmul 0x0e#8 x0 ^^^ gmul 0x0b#8 x1 ^^^ gmul 0x0d#8 x2 ^^^ gmul 0x09#8 x3 ∧
        byteAt t.data (1 + 4 * c) = gmul 0x09#8 x0 ^^^ gmul 0x0e#8 x1 ^^^ gmul 0x0b#8 x2 ^^^ gmul 0x0d#8 x3 ∧
        byteAt t.data (2 + 4 * c) = gmul 0x0d#8 x0 ^^^ gmul 0x09#8 x1 ^^^ gmul 0x0e#8 x2 ^^^ gmul 0x0b#8 x3 ∧
        byteAt t.data (3 + 4 * c) = gmul 0x0b#8 x0 ^^^ gmul 0x0d#8 x1 ^^^ gmul 0x09#8 x2 ^^^ gmul 0x0e#8 x3)

/-- R169, R142: every byte of DATA times `c`, for every `c`. -/
def Obligations.GfmulCommand : Prop :=
  ∀ (c : Byte) (s : State), ∃ t : State, exec (.aesGfmul c) s = .next t ∧ Succeeds s t false ∧
    t = { s with data := t.data, phase := t.phase, status := t.status } ∧ MemoryKept s t ∧
    (∀ i : Nat, i < 16 → byteAt t.data i = gmul (byteAt s.data i) c) ∧
    (c = 0x00#8 → t.data = 0#128) ∧ (c = 0x01#8 → t.data = s.data)

/-- R168, R154: AES_ADDROUNDKEY, in and out of its argument's range. -/
def Obligations.AddroundkeyCommand : Prop :=
  ∀ (r : Byte) (s : State),
    (r.toNat ≤ 10 → ∃ t : State, exec (.aesAddroundkey r) s = .next t ∧ Succeeds s t false ∧
      t = { s with rk := t.rk, data := t.data, phase := t.phase, status := t.status } ∧ MemoryKept s t ∧
      t.rk = keyExpansion s.key ∧
      ∀ i : Nat, i < 16 → byteAt t.data i = byteAt s.data i ^^^ byteAt t.rk (16 * r.toNat + i)) ∧
    (11 ≤ r.toNat → ∃ t : State, exec (.aesAddroundkey r) s = .next t ∧
      RejectsWith s t (.badOperand, .aesBlock, .validation))

/-- R151, R153, R154, R163, R165, R167, R168: each transformation command undoes its inverse on every input. -/
def Obligations.InverseTransformationCommandsRestoreData : Prop :=
  ∀ (s : State) (i j : Instr),
    (i, j) ∈ [(Instr.aesSubbytes, Instr.aesInvSubbytes), (.aesInvSubbytes, .aesSubbytes),
      (.aesShiftrows, .aesInvShiftrows), (.aesInvShiftrows, .aesShiftrows),
      (.aesMixcolumns, .aesInvMixcolumns), (.aesInvMixcolumns, .aesMixcolumns)] ∨
    (∃ r : Byte, r.toNat ≤ 10 ∧ i = .aesAddroundkey r ∧ j = .aesAddroundkey r) →
    ∃ t : State, execAll [i, j] s = .next t ∧ t.data = s.data

/-- R155, R160: AES_ENC_BLOCK does what the single-step commands do one after another. -/
def Obligations.EncBlockIsItsSingleSteps : Prop :=
  ∀ s : State, ∃ t u : State, exec .aesEncBlock s = .next t ∧ execAll cipherSteps s = .next u ∧
    t.data = u.data ∧ t.rk = u.rk ∧ t.rk = keyExpansion s.key ∧ Succeeds s t false ∧
    t = { s with rk := t.rk, data := t.data, phase := t.phase, status := t.status } ∧ MemoryKept s t

/-- R156, R161: AES_DEC_BLOCK does what the inverse single-step commands do one after another. -/
def Obligations.DecBlockIsItsSingleSteps : Prop :=
  ∀ s : State, ∃ t u : State, exec .aesDecBlock s = .next t ∧ execAll invCipherSteps s = .next u ∧
    t.data = u.data ∧ t.rk = u.rk ∧ t.rk = keyExpansion s.key ∧ Succeeds s t false ∧
    t = { s with rk := t.rk, data := t.data, phase := t.phase, status := t.status } ∧ MemoryKept s t

/-- R157, R161: decryption undoes encryption under every key. -/
def Obligations.DecBlockRestoresTheBlock : Prop :=
  ∀ s : State, ∃ t u : State, exec .aesEncBlock s = .next t ∧ exec .aesDecBlock t = .next u ∧ u.data = s.data

/-! ## Random values -/

/-- R77: every draw is answered in its range, and an answer of the source in range is taken as it is. That the
answers come from a queue of the state and then from free values is the model's choice (log 3). -/
def Obligations.DrawsAreAnsweredInRange : Prop :=
  ∀ g : Rng,
    (∀ lo hi : Nat, lo ≤ hi →
      (lo ≤ (g.range lo hi).1 ∧ (g.range lo hi).1 ≤ hi ∧ (g.range lo hi).2.count = g.count + 1) ∧
      ∀ (x : Nat) (rest : List Nat), g.queue = x :: rest → lo ≤ x → x ≤ hi →
        g.range lo hi = (x, { queue := rest, count := g.count + 1 })) ∧
    (∀ k : Nat, (g.bits k).1 < 2 ^ k) ∧ g.nonzeroByte.1 ≠ 0x00#8

/-- R180, R181: sixteen draws, byte 0 first; the answers are those at the head of the queue of log 3. -/
def Obligations.RngCommandsTakeSixteenDraws : Prop :=
  ∀ s : State,
    (∃ t : State, exec .rngKey s = .next t ∧ Succeeds s t false ∧
      t = { s with key := t.key, rng := t.rng, phase := t.phase, status := t.status } ∧ MemoryKept s t ∧
      t.rng.count = s.rng.count + 16 ∧
      ∀ (answers : List Byte) (rest : List Nat), answers.length = 16 →
        s.rng.queue = answers.map BitVec.toNat ++ rest →
        t.rng.queue = rest ∧ ∀ i : Nat, i < 16 → byteAt t.key i = answers.getD i 0#8) ∧
    (∃ t : State, exec .rngIv s = .next t ∧ Succeeds s t false ∧
      t = { s with iv := t.iv, rng := t.rng, phase := t.phase, status := t.status } ∧ MemoryKept s t ∧
      t.rng.count = s.rng.count + 16 ∧
      ∀ (answers : List Byte) (rest : List Nat), answers.length = 16 →
        s.rng.queue = answers.map BitVec.toNat ++ rest →
        t.rng.queue = rest ∧ ∀ i : Nat, i < 16 → byteAt t.iv i = answers.getD i 0#8)

/-! ## PKCS7 and CBC -/

/-- R185, R182. -/
def Obligations.Pkcs7PadCommand : Prop :=
  ∀ (s : State) (L n : Nat), L = s.mlen.toNat → n = 16 - L % 16 →
    (L + n ≤ 4096 → ∃ t : State, exec .pkcs7Pad s = .next t ∧ Succeeds s t false ∧
      t = { s with mem := t.mem, mlen := t.mlen, phase := t.phase, status := t.status } ∧
      t.mlen.toNat = L + n ∧
      (∀ k : Nat, L ≤ k → k < L + n → (t.readByte (0x10000 + k)).toNat = n) ∧
      MemoryKeptOutside s t (0x10000 + L) n) ∧
    (4096 < L + n → ∃ t : State, exec .pkcs7Pad s = .next t ∧
      RejectsWith s t (.invalidInputLength, .aesCbc, .validation))

/-- R186, R183. -/
def Obligations.Pkcs7UnpadCommand : Prop :=
  ∀ (s : State) (L : Nat), L = s.mlen.toNat →
    (4096 < L ∨ L % 16 ≠ 0 → ∃ t : State, exec .pkcs7Unpad s = .next t ∧
      RejectsWith s t (.invalidInputLength, .aesCbc, .validation)) ∧
    (L ≤ 4096 → L % 16 = 0 →
      (∀ n : Nat, EndsInPadding s.message n → ∃ t : State, exec .pkcs7Unpad s = .next t ∧ Succeeds s t false ∧
        t = { s with mlen := t.mlen, phase := t.phase, status := t.status } ∧ t.mlen.toNat = L - n ∧
        MemoryKept s t) ∧
      ((∀ n : Nat, ¬ EndsInPadding s.message n) → ∃ t : State, exec .pkcs7Unpad s = .next t ∧
        RejectsWith s t (.paddingError, .aesCbc, .padding)))

/-- R187, R184: each ciphertext block is the encryption of its plaintext block XOR the previous ciphertext block. -/
def Obligations.CbcEncRawChains : Prop :=
  ∀ (s : State) (L : Nat), L = s.mlen.toNat →
    (4096 < L ∨ L % 16 ≠ 0 → ∃ t : State, exec .cbcEncRaw s = .next t ∧
      RejectsWith s t (.invalidInputLength, .aesCbc, .validation)) ∧
    (L ≤ 4096 → L % 16 = 0 → ∃ t : State, exec .cbcEncRaw s = .next t ∧ Succeeds s t false ∧
      t = { s with mem := t.mem, rk := t.rk, phase := t.phase, status := t.status } ∧
      t.rk = keyExpansion s.key ∧ MemoryKeptOutside s t 0x10000 L ∧
      ∀ j : Nat, 16 * j < L →
        blockOfString t.message j =
          cipher t.rk (blockOfString s.message j ^^^ (if j = 0 then s.iv else blockOfString t.message (j - 1))))

/-- R188, R184, R359: each plaintext block is the decryption of its ciphertext block XOR the original previous
ciphertext block. -/
def Obligations.CbcDecRawChains : Prop :=
  ∀ (s : State) (L : Nat), L = s.mlen.toNat →
    (4096 < L ∨ L % 16 ≠ 0 → ∃ t : State, exec .cbcDecRaw s = .next t ∧
      RejectsWith s t (.invalidInputLength, .aesCbc, .validation)) ∧
    (L ≤ 4096 → L % 16 = 0 → ∃ t : State, exec .cbcDecRaw s = .next t ∧ Succeeds s t false ∧
      t = { s with mem := t.mem, rk := t.rk, phase := t.phase, status := t.status } ∧
      t.rk = keyExpansion s.key ∧ MemoryKeptOutside s t 0x10000 L ∧
      ∀ j : Nat, 16 * j < L →
        blockOfString t.message j =
          invCipher t.rk (blockOfString s.message j) ^^^ (if j = 0 then s.iv else blockOfString s.message (j - 1)))

/-- R189, R357: CBC_ENC is PKCS7_PAD followed by CBC_ENC_RAW. -/
def Obligations.CbcEncIsPadThenRaw : Prop :=
  ∀ (s : State) (L n : Nat), L = s.mlen.toNat → n = 16 - L % 16 →
    (L + n ≤ 4096 → ∃ t u : State, exec .cbcEnc s = .next t ∧ execAll [.pkcs7Pad, .cbcEncRaw] s = .next u ∧
      Succeeds s t false ∧
      t = { s with mem := t.mem, rk := t.rk, mlen := t.mlen, phase := t.phase, status := t.status } ∧
      t.mlen.toNat = L + n ∧ t.mlen = u.mlen ∧ t.rk = u.rk ∧ MemoryKept u t ∧
      MemoryKeptOutside s t 0x10000 (L + n)) ∧
    (4096 < L + n → ∃ t : State, exec .cbcEnc s = .next t ∧
      RejectsWith s t (.invalidInputLength, .aesCbc, .validation))

/-- R190: CBC_DEC is CBC_DEC_RAW followed by the removal of the padding, and changes nothing when that fails. -/
def Obligations.CbcDecIsRawThenUnpad : Prop :=
  ∀ (s : State) (L : Nat), L = s.mlen.toNat →
    (4096 < L ∨ L % 16 ≠ 0 → ∃ t : State, exec .cbcDec s = .next t ∧
      RejectsWith s t (.invalidInputLength, .aesCbc, .validation)) ∧
    (L ≤ 4096 → L % 16 = 0 → ∃ u : State, exec .cbcDecRaw s = .next u ∧
      (∀ n : Nat, EndsInPadding u.message n → ∃ t : State, exec .cbcDec s = .next t ∧ Succeeds s t false ∧
        t = { s with mem := t.mem, rk := t.rk, mlen := t.mlen, phase := t.phase, status := t.status } ∧
        t.mlen.toNat = L - n ∧ t.rk = u.rk ∧ MemoryKept u t ∧ MemoryKeptOutside s t 0x10000 L) ∧
      ((∀ n : Nat, ¬ EndsInPadding u.message n) → ∃ t : State, exec .cbcDec s = .next t ∧
        RejectsWith s t (.paddingError, .aesCbc, .padding)))

/-- R191: the round trip of every message that fits. -/
def Obligations.CbcDecRestoresTheMessage : Prop :=
  ∀ s : State, s.mlen.toNat + (16 - s.mlen.toNat % 16) ≤ 4096 →
    ∃ t u : State, exec .cbcEnc s = .next t ∧ exec .cbcDec t = .next u ∧ Succeeds s t false ∧ Succeeds t u false ∧
      u.mlen = s.mlen ∧ u.message = s.message

/-! ## Primality and key generation -/

/-- R222, R221, R220: the verdict of MR_TEST and the draws it makes, for every queue of answers (log 3): one per
round, none after the first round that fails. -/
def Obligations.MrTestCommand : Prop :=
  ∀ (t : Byte) (s : State) (n : Nat), n = bigVal s.a →
    (t = 0#8 → ∃ u : State, exec (.mrTest t) s = .next u ∧ RejectsWith s u (.badOperand, .primality, .validation)) ∧
    (t ≠ 0#8 → ∃ (u : State) (res : Bool), exec (.mrTest t) s = .next u ∧ Succeeds s u res ∧
      u = { s with rng := u.rng, phase := u.phase, status := u.status } ∧ MemoryKept s u ∧
      (n < 2 → res = false ∧ u.rng = s.rng) ∧
      (n = 2 ∨ n = 3 → res = true ∧ u.rng = s.rng) ∧
      (4 ≤ n → n % 2 = 0 → res = false ∧ u.rng = s.rng) ∧
      (4 ≤ n → n % 2 = 1 →
        s.rng.count + 1 ≤ u.rng.count ∧ u.rng.count ≤ s.rng.count + t.toNat ∧
        ∀ bases rest : List Nat, bases.length = t.toNat → (∀ b ∈ bases, 2 ≤ b ∧ b ≤ n - 2) →
          s.rng.queue = bases ++ rest →
          (res = true ↔ ∀ b ∈ bases, PassesRound n b) ∧
          (res = true → u.rng = { queue := rest, count := s.rng.count + t.toNat })) ∧
      (4 ≤ n → n % 2 = 1 →
        ∀ (passed rest : List Nat) (b : Nat), passed.length < t.toNat →
          (∀ a ∈ passed, 2 ≤ a ∧ a ≤ n - 2 ∧ PassesRound n a) → 2 ≤ b → b ≤ n - 2 → ¬ PassesRound n b →
          s.rng.queue = passed ++ b :: rest →
          res = false ∧ u.rng = { queue := rest, count := s.rng.count + passed.length + 1 }))

/-- R223 (a): a prime passes whatever the draws. -/
def Obligations.PrimesPassMrTest : Prop :=
  ∀ (t : Byte) (s : State), t ≠ 0#8 → Nat.Prime (bigVal s.a) →
    ∃ u : State, exec (.mrTest t) s = .next u ∧ Succeeds s u true

/-- R241, R242, R243: when RSA_KEYGEN rejects its operands, when it runs out of candidates, and how many draws it
makes: at most those of R243, and exactly those of the candidates the source answers with (the queue of log 3). -/
def Obligations.RsaKeygenRejectsAndExhausts : Prop :=
  ∀ (t : Byte) (s : State) (bits : Nat), bits = s.kgBits.toNat → ∃ u : State, exec (.rsaKeygen t) s = .next u ∧
    u.rng.count ≤ s.rng.count + s.kgMaxCandidates * (1 + t.toNat) ∧
    (t = 0#8 ∨ bits % 2 = 1 ∨ bits < 210 ∨ 2048 < bits → RejectsWith s u (.badOperand, .keygen, .validation)) ∧
    (t ≠ 0#8 → bits % 2 = 0 → 210 ≤ bits → bits ≤ 2048 → s.kgMaxCandidates < 2 →
      FailsWith s u (.keygenExhausted, .keygen, .compute)) ∧
    (∀ (h : Nat) (tried : List Candidate) (rest : List Nat),
      t ≠ 0#8 → bits = 2 * h → 105 ≤ h → h ≤ 1024 → tried.length = s.kgMaxCandidates →
      (∀ c ∈ tried, c.Rejected h t.toNat) ∨
        (∃ (before between : List Candidate) (x : Candidate), tried = before ++ x :: between ∧
          (∀ c ∈ before, c.Rejected h t.toNat) ∧ x.Accepted h t.toNat ∧
          ∀ c ∈ between, c.Rejected h t.toNat ∨ (c.Accepted h t.toNat ∧ ¬ Suitable (x.value h) (c.value h))) →
      s.rng.queue = drawsOf tried ++ rest →
      FailsWith s u (.keygenExhausted, .keygen, .compute) ∧
        u.rng = { queue := rest, count := s.rng.count + (drawsOf tried).length })

/-- R242, R243, R244: the run of RSA_KEYGEN for every sequence of candidates the source answers with (the queue of
log 3): candidates are drawn until one passes, which is `p`; then until one passes that makes a pair with `p`, which
is `q`; only `q` is drawn again. And where the two candidates are suitable primes, whatever their bases. -/
def Obligations.RsaKeygenWritesTheKeyPair : Prop :=
  ∀ (t : Byte) (s : State) (h p q : Nat) (rest : List Nat),
    t ≠ 0#8 → s.kgBits.toNat = 2 * h → 105 ≤ h → h ≤ 1024 → Suitable p q →
    (∀ (before between : List Candidate) (x y : Candidate),
      p = x.value h → q = y.value h →
      (∀ c ∈ before, c.Rejected h t.toNat) → x.Accepted h t.toNat →
      (∀ c ∈ between, c.Rejected h t.toNat ∨ (c.Accepted h t.toNat ∧ ¬ Suitable p (c.value h))) →
      y.Accepted h t.toNat → before.length + 1 + between.length + 1 ≤ s.kgMaxCandidates →
      s.rng.queue = drawsOf (before ++ x :: (between ++ [y])) ++ rest →
      ∃ u : State, exec (.rsaKeygen t) s = .next u ∧ WritesKeyPair s u p q ∧
        u.rng = { queue := rest, count := s.rng.count + (drawsOf (before ++ x :: (between ++ [y]))).length }) ∧
    (∀ bases bases' : List Nat,
      2 ≤ s.kgMaxCandidates → Nat.Prime p → Nat.Prime q →
      2 ^ (h - 1) ≤ p → p < 2 ^ h → 2 ^ (h - 1) ≤ q → q < 2 ^ h →
      bases.length = t.toNat → bases'.length = t.toNat →
      s.rng.queue = p :: bases ++ q :: bases' ++ rest →
      ∃ u : State, exec (.rsaKeygen t) s = .next u ∧ WritesKeyPair s u p q ∧ u.rng.queue = rest)

/-- R245, R241, R242: every key pair RSA_KEYGEN writes is valid, whatever the draws: it is made of two distinct odd
numbers of exactly `KG_BITS / 2` bits. -/
def Obligations.GeneratedKeyPairsAreValid : Prop :=
  ∀ (t : Byte) (s u : State) (h : Nat), h = s.kgBits.toNat / 2 →
    s.status.err = false → exec (.rsaKeygen t) s = .next u → u.status.err = false →
    ∃ p q : Nat, p ≠ q ∧ p % 2 = 1 ∧ q % 2 = 1 ∧ 2 ^ (h - 1) ≤ p ∧ p < 2 ^ h ∧ 2 ^ (h - 1) ≤ q ∧ q < 2 ^ h ∧
      bigVal u.rsaN = p * q ∧ bigVal u.rsaE = 65537 ∧
      Nat.gcd 65537 (Nat.lcm (p - 1) (q - 1)) = 1 ∧
      65537 * bigVal u.rsaD % Nat.lcm (p - 1) (q - 1) = 1 ∧
      1 ≤ bigVal u.rsaD ∧ bigVal u.rsaD < Nat.lcm (p - 1) (q - 1) ∧
      bigVal u.rsaN % 2 = 1 ∧ 2 ^ (s.kgBits.toNat - 2) ≤ bigVal u.rsaN ∧ bigVal u.rsaN < 2 ^ s.kgBits.toNat

/-! ## Big integers -/

/-- R262, R260. -/
def Obligations.ModexpCommand : Prop :=
  ∀ s : State,
    (bigVal s.m ≠ 0 → ∃ t : State, exec .modexp s = .next t ∧ Succeeds s t false ∧
      t = { s with r := t.r, phase := t.phase, status := t.status } ∧ MemoryKept s t ∧
      bigVal t.r = bigVal s.a ^ bigVal s.b % bigVal s.m) ∧
    (bigVal s.m = 0 → ∃ t : State, exec .modexp s = .next t ∧
      RejectsWith s t (.badOperand, .bigint, .validation))

/-- R263, R261. -/
def Obligations.ModinvCommand : Prop :=
  ∀ s : State,
    (bigVal s.m = 0 → ∃ t : State, exec .modinv s = .next t ∧
      RejectsWith s t (.badOperand, .bigint, .validation)) ∧
    (bigVal s.m ≠ 0 → Nat.gcd (bigVal s.a % bigVal s.m) (bigVal s.m) = 1 →
      ∃ t : State, exec .modinv s = .next t ∧ Succeeds s t false ∧
        t = { s with r := t.r, phase := t.phase, status := t.status } ∧ MemoryKept s t ∧
        bigVal t.r < bigVal s.m ∧ bigVal s.a * bigVal t.r % bigVal s.m = 1 % bigVal s.m) ∧
    (bigVal s.m ≠ 0 → Nat.gcd (bigVal s.a % bigVal s.m) (bigVal s.m) ≠ 1 →
      ∃ t : State, exec .modinv s = .next t ∧ RejectsWith s t (.noInverse, .bigint, .compute))

/-! ## PKCS#1 and RSA -/

/-- R280, R281, R283, R284: `K` is the width of the modulus, and RSA_MB becomes the big-endian integer of a block
with the payload behind `K − L − 3` nonzero draws. -/
def Obligations.Pkcs1PadCommand : Prop :=
  ∀ (s : State) (K L : Nat), K = s.modulusBytes → L = s.plen.toNat →
    (1 ≤ K → 256 ^ (K - 1) ≤ bigVal s.rsaN ∧ bigVal s.rsaN < 256 ^ K) ∧ (K = 0 → bigVal s.rsaN = 0) ∧
    (L ≤ 256 → L + 11 ≤ K → ∃ (t : State) (PS : List Byte), exec .pkcs1Pad s = .next t ∧ Succeeds s t false ∧
      t = { s with rsaMb := t.rsaMb, rng := t.rng, phase := t.phase, status := t.status } ∧ MemoryKept s t ∧
      PS.length = K - L - 3 ∧ IsEncoding (i2osp (bigVal t.rsaMb) K) PS s.payload ∧ bigVal t.rsaMb < 256 ^ K ∧
      t.rng.count = s.rng.count + (K - L - 3) ∧
      ∀ (answers : List Byte) (rest : List Nat), answers.length = K - L - 3 → (∀ x ∈ answers, x ≠ 0x00#8) →
        s.rng.queue = answers.map BitVec.toNat ++ rest → PS = answers ∧ t.rng.queue = rest) ∧
    (256 < L ∨ K < L + 11 → ∃ t : State, exec .pkcs1Pad s = .next t ∧
      RejectsWith s t (.invalidInputLength, .rsa, .validation))

/-- R285, R282. -/
def Obligations.Pkcs1UnpadCommand : Prop :=
  ∀ (s : State) (K m : Nat), K = s.modulusBytes → m = bigVal s.rsaMb →
    (K < 2 ∨ 256 ^ K ≤ m → ∃ t : State, exec .pkcs1Unpad s = .next t ∧
      RejectsWith s t (.paddingError, .rsa, .padding)) ∧
    (2 ≤ K → m < 256 ^ K →
      (∀ PS P : List Byte, IsEncoding (i2osp m K) PS P → ∃ t : State, exec .pkcs1Unpad s = .next t ∧
        Succeeds s t false ∧ t = { s with mem := t.mem, plen := t.plen, phase := t.phase, status := t.status } ∧
        t.plen.toNat = P.length ∧ t.payload = P ∧ MemoryKeptOutside s t 0x03400 P.length) ∧
      ((∀ PS P : List Byte, ¬ IsEncoding (i2osp m K) PS P) → ∃ t : State, exec .pkcs1Unpad s = .next t ∧
        RejectsWith s t (.paddingError, .rsa, .padding)))

/-- R286, R288: RSA_ENC pads as PKCS1_PAD does, into an integer below the modulus, and writes its power. -/
def Obligations.RsaEncCommand : Prop :=
  ∀ (s : State) (K L : Nat), K = s.modulusBytes → L = s.plen.toNat →
    (L ≤ 256 → L + 11 ≤ K → ∃ t u : State, exec .rsaEnc s = .next t ∧ exec .pkcs1Pad s = .next u ∧
      Succeeds s t false ∧
      t = { s with rsaMb := t.rsaMb, rsaC := t.rsaC, rng := t.rng, phase := t.phase, status := t.status } ∧
      MemoryKept s t ∧ t.rsaMb = u.rsaMb ∧ t.rng = u.rng ∧
      bigVal t.rsaMb < 3 * 256 ^ (K - 2) ∧ 3 * 256 ^ (K - 2) < 256 ^ (K - 1) ∧ 256 ^ (K - 1) ≤ bigVal s.rsaN ∧
      bigVal t.rsaC = bigVal t.rsaMb ^ bigVal s.rsaE % bigVal s.rsaN) ∧
    (256 < L ∨ K < L + 11 → ∃ t : State, exec .rsaEnc s = .next t ∧
      RejectsWith s t (.invalidInputLength, .rsa, .validation))

/-- R287, R282: RSA_DEC, with the decrypted integer written only when its padding is well formed. -/
def Obligations.RsaDecCommand : Prop :=
  ∀ (s : State) (K m : Nat), K = s.modulusBytes → m = bigVal s.rsaC ^ bigVal s.rsaD % bigVal s.rsaN →
    (bigVal s.rsaN = 0 → ∃ t : State, exec .rsaDec s = .next t ∧
      RejectsWith s t (.badOperand, .rsa, .validation)) ∧
    (bigVal s.rsaN ≠ 0 → K < 2 → ∃ t : State, exec .rsaDec s = .next t ∧
      RejectsWith s t (.paddingError, .rsa, .padding)) ∧
    (2 ≤ K →
      (∀ PS P : List Byte, IsEncoding (i2osp m K) PS P → ∃ t : State, exec .rsaDec s = .next t ∧
        Succeeds s t false ∧
        t = { s with
              mem := t.mem, rsaMb := t.rsaMb, plen := t.plen, phase := t.phase, status := t.status } ∧
        bigVal t.rsaMb = m ∧ t.plen.toNat = P.length ∧ t.payload = P ∧
        MemoryKeptOutside s t 0x03400 P.length) ∧
      ((∀ PS P : List Byte, ¬ IsEncoding (i2osp m K) PS P) → ∃ t : State, exec .rsaDec s = .next t ∧
        RejectsWith s t (.paddingError, .rsa, .padding)))

/-- R289: with a key pair of two distinct primes, RSA_DEC restores the payload RSA_ENC took, whatever the draws. -/
def Obligations.RsaDecRestoresThePayload : Prop :=
  ∀ (s : State) (p q : Nat), Nat.Prime p → Nat.Prime q → p ≠ q → bigVal s.rsaN = p * q →
    bigVal s.rsaE * bigVal s.rsaD % Nat.lcm (p - 1) (q - 1) = 1 →
    s.plen.toNat + 11 ≤ s.modulusBytes →
    ∃ t u : State, exec .rsaEnc s = .next t ∧ exec .rsaDec t = .next u ∧ Succeeds s t false ∧ Succeeds t u false ∧
      u.payload = s.payload
end

