-- ==== Sys2Proof/Laws/BigMath.lean ====
section
/-! SUPPORT. What modular exponentiation and the modular inverse compute (R260, R261). -/

namespace Sys2Proof.Machine

theorem lt_two_pow_bitlen (v : Nat) : v < 2 ^ bitlen v := by
  unfold bitlen
  split
  · next h => simp [h]
  · exact Nat.lt_log2_self

theorem modExpLoop_eq (a b m : Nat) :
    ∀ i acc : Nat, acc = a ^ (b / 2 ^ i) % m → modExpLoop a b m i acc = a ^ b % m := by
  intro i
  induction i with
  | zero => intro acc h; simpa [modExpLoop] using h
  | succ i ih =>
    intro acc h
    rw [modExpLoop]
    apply ih
    have hdiv : b / 2 ^ i = 2 * (b / 2 ^ (i + 1)) + b / 2 ^ i % 2 := by
      rw [Nat.pow_succ, ← Nat.div_div_eq_div_mul]; omega
    have hsq : acc * acc % m = a ^ (2 * (b / 2 ^ (i + 1))) % m := by
      rw [h, ← Nat.mul_mod, ← Nat.pow_add, Nat.two_mul]
    have hbit := Nat.testBit_eq_decide_div_mod_eq (x := b) (i := i)
    by_cases hb : b / 2 ^ i % 2 = 1
    · have ht : b.testBit i = true := by simp [hbit, hb]
      simp only [ht, if_true, hsq]
      rw [hdiv, hb, pow_succ a, Nat.mod_mul_mod]
    · have ht : b.testBit i = false := by simp [hbit, hb]
      have h0 : b / 2 ^ i % 2 = 0 := by omega
      simp only [ht, hsq]
      rw [hdiv, h0]; simp

/-- Square and multiply gives the power (R260). -/
theorem modExp_eq (a b m : Nat) : modExp a b m = a ^ b % m := by
  unfold modExp
  apply modExpLoop_eq
  rw [Nat.div_eq_of_lt (lt_two_pow_bitlen b)]
  simp

/-- What the Euclid loop ends with: the greatest common divisor and a coefficient that gives it modulo `m`. -/
theorem euclidLoop_spec (a m : Nat) :
    ∀ (fuel r0 r1 : Nat) (t0 t1 : Int), r1 < fuel → (m : Int) ∣ r0 - t0 * a → (m : Int) ∣ r1 - t1 * a →
      (euclidLoop fuel r0 r1 t0 t1).1 = Nat.gcd r0 r1 ∧
      (m : Int) ∣ (euclidLoop fuel r0 r1 t0 t1).1 - (euclidLoop fuel r0 r1 t0 t1).2 * a := by
  intro fuel
  induction fuel with
  | zero => intro r0 r1 t0 t1 h; omega
  | succ fuel ih =>
    intro r0 r1 t0 t1 hf h0 h1
    rw [euclidLoop]
    by_cases hz : r1 = 0
    · simp only [hz, if_true, Nat.gcd_zero_right]
      exact ⟨trivial, h0⟩
    · have hmod : r0 - r0 / r1 * r1 = r0 % r1 := by
        have := Nat.div_add_mod r0 r1
        rw [Nat.mul_comm] at this
        omega
      have hlt : r0 % r1 < r1 := Nat.mod_lt _ (by omega)
      have hcast : ((r0 % r1 : Nat) : Int) = r0 - (r0 / r1 : Nat) * r1 := by
        have := Nat.div_add_mod r0 r1
        have hz : ((r1 * (r0 / r1) + r0 % r1 : Nat) : Int) = r0 := by rw [this]
        push_cast at hz ⊢
        linarith
      simp only [hz, if_false, hmod]
      have hstep := ih r1 (r0 % r1) t1 (t0 - (r0 / r1 : Nat) * t1) (by omega) h1 (by
        rw [hcast]
        have := Int.dvd_sub h0 (Dvd.dvd.mul_left h1 ((r0 / r1 : Nat) : Int))
        convert this using 1; ring)
      refine ⟨?_, hstep.2⟩
      rw [hstep.1, Nat.gcd_comm r1, ← Nat.gcd_rec, Nat.gcd_comm]

/-- What the inverse is where there is one (R261). -/
theorem modInv_eq_some {a m : Nat} (hm : m ≠ 0) (hg : Nat.gcd (a % m) m = 1) :
    ∃ x : Nat, modInv a m = some x ∧ x < m ∧ a * x % m = 1 % m := by
  have hspec := euclidLoop_spec a m (a % m + 1) m (a % m) 0 1 (by omega) (by simp) (by
    rw [one_mul, Int.natCast_mod]
    have := Int.emod_add_mul_ediv (a : Int) m
    exact ⟨-((a : Int) / m), by linarith⟩)
  rw [Nat.gcd_comm, hg] at hspec
  obtain ⟨hone, hdvd⟩ := hspec
  generalize hlast : (euclidLoop (a % m + 1) m (a % m) 0 1).2 = t at hdvd
  have hnn := Int.emod_nonneg t (b := (m : Int)) (by omega)
  have hlt := Int.emod_lt_of_pos t (b := (m : Int)) (by omega)
  refine ⟨(t % (m : Int)).toNat, by simp [modInv, hone, hlast], by omega, ?_⟩
  rw [hone] at hdvd
  zify
  rw [Int.toNat_of_nonneg hnn, Int.mul_emod, Int.emod_emod_of_dvd _ (dvd_refl _), ← Int.mul_emod]
  rw [mul_comm]
  exact (Int.emod_eq_emod_iff_emod_sub_eq_zero.2 (Int.emod_eq_zero_of_dvd hdvd)).symm

/-- There is none where the greatest common divisor is not 1 (R261). -/
theorem modInv_eq_none {a m : Nat} (hg : Nat.gcd (a % m) m ≠ 1) : modInv a m = none := by
  have hspec := euclidLoop_spec a m (a % m + 1) m (a % m) 0 1 (by omega) (by simp) (by
    rw [one_mul, Int.natCast_mod]
    have := Int.emod_add_mul_ediv (a : Int) m
    exact ⟨-((a : Int) / m), by linarith⟩)
  rw [Nat.gcd_comm] at hspec
  have hne : (euclidLoop (a % m + 1) m (a % m) 0 1).1 ≠ 1 := by rw [hspec.1]; exact hg
  simp only [modInv, hne, if_false]

end Sys2Proof.Machine
end

