-- ==== Sys2Proof/Laws/Lanes.lean ====
section
/-! SUPPORT. What bytes, words and packed lanes of a register are (R63, R78). -/

namespace Sys2Proof.Machine

theorem packNat_lt (w n : Nat) (f : Nat → BitVec w) : packNat w n f < 2 ^ (w * n) := by
  induction n with
  | zero => simp [packNat]
  | succ n ih =>
    have hlane := (f n).isLt
    have hsplit : 2 ^ (w * (n + 1)) = 2 ^ (w * n) * 2 ^ w := by rw [Nat.mul_succ, Nat.pow_add]
    have hle : ((f n).toNat + 1) * 2 ^ (w * n) ≤ 2 ^ w * 2 ^ (w * n) := Nat.mul_le_mul_right _ hlane
    simp only [packNat]
    rw [hsplit, Nat.mul_comm (2 ^ (w * n))]
    rw [Nat.succ_mul] at hle
    omega

theorem packNat_testBit (w n : Nat) (f : Nat → BitVec w) (i j : Nat) (hi : i < n) (hj : j < w) :
    (packNat w n f).testBit (w * i + j) = (f i).getLsbD j := by
  induction n with
  | zero => omega
  | succ n ih =>
    have hlow := packNat_lt w n f
    rw [packNat, Nat.add_comm, Nat.mul_comm, Nat.testBit_two_pow_mul_add _ hlow]
    by_cases h : i < n
    · have : w * i + j < w * n := by
        have := Nat.mul_le_mul_left w h
        rw [Nat.mul_succ] at this
        omega
      simp [this, ih h]
    · have hin : i = n := by omega
      subst hin
      simp [BitVec.getLsbD]

/-- Lane `i` of a packed value is the lane that was put there. -/
theorem lane_packLanes (out w n : Nat) (f : Nat → BitVec w) (i : Nat) (hi : i < n) (hout : w * n ≤ out) :
    (packLanes out w n f).extractLsb' (w * i) w = f i := by
  apply BitVec.eq_of_getLsbD_eq
  intro j hj
  have hle : w * i + j < out := by
    have := Nat.mul_le_mul_left w hi
    rw [Nat.mul_succ] at this
    omega
  rw [BitVec.getLsbD_extractLsb', packLanes, BitVec.getLsbD_ofNat, packNat_testBit w n f i j hi hj]
  simp [hj, hle]

@[simp] theorem byteAt_blockOfBytes (f : Nat → Byte) (i : Nat) (hi : i < 16) : byteAt (blockOfBytes f) i = f i :=
  lane_packLanes 128 8 16 f i hi (by decide)

@[simp] theorem byteAt_wordOfBytes (f : Nat → Byte) (i : Nat) (hi : i < 4) : byteAt (wordOfBytes f) i = f i :=
  lane_packLanes 32 8 4 f i hi (by decide)

/-- A register is determined by its bytes. -/
theorem eq_of_byteAt_eq {n : Nat} {x y : BitVec (8 * n)} (h : ∀ i, i < n → byteAt x i = byteAt y i) : x = y := by
  apply BitVec.eq_of_getLsbD_eq
  intro j hj
  have hbit := congrArg (fun b : Byte => b.getLsbD (j % 8)) (h (j / 8) (by omega))
  have hmod : j % 8 < 8 := Nat.mod_lt _ (by decide)
  simpa [byteAt, BitVec.getLsbD_extractLsb', hmod, Nat.div_add_mod] using hbit

/-- A block is determined by its 16 bytes. -/
theorem block_ext {x y : Block} (h : ∀ i, i < 16 → byteAt x i = byteAt y i) : x = y :=
  eq_of_byteAt_eq (n := 16) h

/-- A word is determined by its 4 bytes. -/
theorem word_ext {x y : Word} (h : ∀ i, i < 4 → byteAt x i = byteAt y i) : x = y :=
  eq_of_byteAt_eq (n := 4) h

theorem byteAt_xor {n : Nat} (x y : BitVec n) (i : Nat) : byteAt (x ^^^ y) i = byteAt x i ^^^ byteAt y i := by
  apply BitVec.eq_of_getLsbD_eq
  intro j hj
  simp [byteAt, hj]

/-- Reading the word just written. -/
theorem wordAt_setWordAt_same {n : Nat} (x : BitVec n) (k : Nat) (v : Word) (h : 32 * k + 32 ≤ n) :
    wordAt (setWordAt x k v) k = v := by
  apply BitVec.eq_of_getLsbD_eq
  intro j hj
  have h1 : 32 * k + j < n := by omega
  have h3 : (0xFFFFFFFF#32).getLsbD j = true := by
    rw [show (0xFFFFFFFF#32) = BitVec.allOnes 32 from rfl, BitVec.getLsbD_allOnes]; simpa using hj
  simp [wordAt, setWordAt, hj, h1, h3]

/-- Every other word stays. -/
theorem wordAt_setWordAt_other {n : Nat} (x : BitVec n) (k l : Nat) (v : Word) (h : k ≠ l) :
    wordAt (setWordAt x k v) l = wordAt x l := by
  apply BitVec.eq_of_getLsbD_eq
  intro j hj
  by_cases hn : 32 * l + j < n
  · by_cases hlt : 32 * l + j < 32 * k
    · simp [wordAt, setWordAt, hj, hn, hlt]
    · have hge : 32 ≤ 32 * l + j - 32 * k := by omega
      have h1 : v.getLsbD (32 * l + j - 32 * k) = false := BitVec.getLsbD_of_ge _ _ hge
      have h2 : (0xFFFFFFFF#32).getLsbD (32 * l + j - 32 * k) = false := BitVec.getLsbD_of_ge _ _ hge
      simp [wordAt, setWordAt, hj, hn, hlt, h1, h2]
  · have hx : x.getLsbD (32 * l + j) = false := BitVec.getLsbD_of_ge _ _ (by omega)
    have hy : (setWordAt x k v).getLsbD (32 * l + j) = false := BitVec.getLsbD_of_ge _ _ (by omega)
    simp [wordAt, hj, hx, hy]

@[simp] theorem length_blockBytes (x : Block) : (blockBytes x).length = 16 := by simp [blockBytes]

@[simp] theorem getD_blockBytes (x : Block) (i : Nat) (hi : i < 16) : (blockBytes x).getD i 0#8 = byteAt x i := by
  simp [blockBytes, List.getD_eq_getElem?_getD, hi]

@[simp] theorem length_i2osp (v k : Nat) : (i2osp v k).length = k := by simp [i2osp]

theorem bitlen_zero : bitlen 0 = 0 := rfl

/-- `v < 2^n` says the same as `bitlen(v) ≤ n` (R8). -/
theorem bitlen_le_iff (v n : Nat) : bitlen v ≤ n ↔ v < 2 ^ n := by
  unfold bitlen
  split
  · next h => simp [h]
  · next h => rw [← Nat.log2_lt h]; omega

end Sys2Proof.Machine
end

