-- ==== Sys2Proof/Laws/Memory.lean ====
section
/-! SUPPORT. The laws of the byte memory: a read after a write, and the canonical form every operation keeps. -/

namespace Sys2Proof.Machine

theorem lookup_cellsAt (base : Nat) (X : List Byte) (a : Nat) :
    (cellsAt base X).lookup a = if base ≤ a then X[a - base]? else none := by
  induction X generalizing base with
  | nil => simp [cellsAt]
  | cons x rest ih =>
    rw [cellsAt, List.lookup_cons, ih]
    by_cases h : a = base
    · subst h; simp
    · have hne : (a == base) = false := by simpa using h
      rw [hne]
      by_cases hle : base + 1 ≤ a
      · have hb : base ≤ a := by omega
        have hs : a - base = a - (base + 1) + 1 := by omega
        simp [hle, hb, hs]
      · have hb : ¬ base ≤ a := by omega
        simp [hle, hb]

theorem lookup_filter (m : Memory) (p : Nat → Bool) (a : Nat) :
    (m.filter (fun c => p c.1)).lookup a = if p a then m.lookup a else none := by
  induction m with
  | nil => simp
  | cons c rest ih =>
    obtain ⟨k, v⟩ := c
    by_cases hk : a = k
    · subst hk
      cases hp : p a <;> simp [hp, ih]
    · have hne : (a == k) = false := by simpa using hk
      cases hp : p k <;> simp [hp, hne, List.lookup_cons, ih]

theorem lookup_append (m n : Memory) (a : Nat) : (m ++ n).lookup a = (m.lookup a).or (n.lookup a) := by
  induction m with
  | nil => simp
  | cons c rest ih =>
    obtain ⟨k, v⟩ := c
    cases h : a == k <;> simp [h, List.lookup_cons, ih]

/-- What a written memory lists: the string where it was written, the old cells elsewhere. -/
theorem lookup_write (m : Memory) (base : Nat) (X : List Byte) (a : Nat) :
    (m.write base X).lookup a = if base ≤ a ∧ a < base + X.length then X[a - base]? else m.lookup a := by
  rw [Memory.write, lookup_append, lookup_append, lookup_cellsAt,
    lookup_filter m (fun k => decide (k < base)) a, lookup_filter m (fun k => decide (base + X.length ≤ k)) a]
  by_cases h1 : a < base
  · have h2 : ¬ base ≤ a := by omega
    have h3 : ¬ base + X.length ≤ a := by omega
    simp [h1, h2, h3]
  · by_cases h2 : a < base + X.length
    · have h3 : base ≤ a := by omega
      have h4 : ¬ base + X.length ≤ a := by omega
      simp [h1, h2, h3, h4]
    · have h3 : base ≤ a := by omega
      have h4 : base + X.length ≤ a := by omega
      have h5 : X[a - base]? = none := List.getElem?_eq_none (by omega)
      simp [h1, h2, h3, h4, h5]

theorem cellsAt_bounds (base : Nat) (X : List Byte) : ∀ c ∈ cellsAt base X, base ≤ c.1 ∧ c.1 < base + X.length := by
  induction X generalizing base with
  | nil => simp [cellsAt]
  | cons x rest ih =>
    intro c hc
    rcases List.mem_cons.mp hc with h | h
    · subst h; simp
    · have := ih (base + 1) c h
      simp only [List.length_cons]
      omega

theorem cellsAt_wf (base : Nat) (X : List Byte) : (cellsAt base X).wf := by
  induction X generalizing base with
  | nil => simp [Memory.wf, cellsAt]
  | cons x rest ih =>
    refine List.Pairwise.cons ?_ (ih (base + 1))
    intro c hc
    have := cellsAt_bounds (base + 1) rest c hc
    simp only
    omega

/-- A write keeps the canonical form. -/
theorem write_wf (m : Memory) (base : Nat) (X : List Byte) (h : m.wf) : (m.write base X).wf := by
  unfold Memory.write Memory.wf
  rw [List.pairwise_append, List.pairwise_append]
  refine ⟨⟨List.Pairwise.filter _ h, cellsAt_wf base X, ?_⟩, List.Pairwise.filter _ h, ?_⟩
  · intro x hx y hy
    have h1 : x.1 < base := by simpa using (List.mem_filter.mp hx).2
    have h2 := cellsAt_bounds base X y hy
    omega
  · intro x hx y hy
    have h2 : base + X.length ≤ y.1 := by simpa using (List.mem_filter.mp hy).2
    rcases List.mem_append.mp hx with hx | hx
    · have h1 : x.1 < base := by simpa using (List.mem_filter.mp hx).2
      omega
    · have h1 := cellsAt_bounds base X x hx
      omega

/-- The addresses a written memory lists. -/
theorem mem_write_bounds (m : Memory) (base : Nat) (X : List Byte) (c : Host.Cell) (h : c ∈ m.write base X) :
    c ∈ m ∨ (base ≤ c.1 ∧ c.1 < base + X.length) := by
  unfold Memory.write at h
  rcases List.mem_append.mp h with h | h
  · rcases List.mem_append.mp h with h | h
    · exact .inl (List.mem_filter.mp h).1
    · exact .inr (cellsAt_bounds base X c h)
  · exact .inl (List.mem_filter.mp h).1

/-- A read inside what was written. -/
theorem readByte_writeBytes_inside (s : State) (base : Nat) (X : List Byte) (i : Nat) (hi : i < X.length) :
    (s.writeBytes base X).readByte (base + i) = X[i] := by
  have h : base ≤ base + i ∧ base + i < base + X.length := by omega
  have hsub : base + i - base = i := by omega
  simp [State.readByte, State.writeBytes, lookup_write, hi]

/-- A read outside what was written. -/
theorem readByte_writeBytes_outside (s : State) (base : Nat) (X : List Byte) (a : Nat)
    (h : a < base ∨ base + X.length ≤ a) : (s.writeBytes base X).readByte a = s.readByte a := by
  have hn : ¬ (base ≤ a ∧ a < base + X.length) := by omega
  simp only [State.readByte, State.writeBytes, lookup_write, if_neg hn]

@[simp] theorem length_readBytes (s : State) (base n : Nat) : (s.readBytes base n).length = n := by
  simp [State.readBytes]

/-- Reading back the string just written. -/
theorem readBytes_writeBytes (s : State) (base : Nat) (X : List Byte) :
    (s.writeBytes base X).readBytes base X.length = X := by
  apply List.ext_getElem
  · simp
  · intro i h1 h2
    simp only [State.readBytes, List.getElem_map, List.getElem_range]
    exact readByte_writeBytes_inside s base X i h2

@[simp] theorem length_message (s : State) : s.message.length = s.messageLength := length_readBytes _ _ _

@[simp] theorem length_payload (s : State) : s.payload.length = s.payloadLength := length_readBytes _ _ _

theorem reset_mem_wf : State.reset.mem.wf := List.Pairwise.nil

end Sys2Proof.Machine
end

