-- ==== Sys2Proof/Laws/State.lean ====
section
/-! SUPPORT. One lemma per field and update of the state, true by `rfl`, so that no later proof unfolds a record
update. -/

namespace Sys2Proof.Machine

@[simp] theorem complete_phase (s : State) (res : Bool) :
    (s.complete res).phase = .idle := rfl
@[simp] theorem complete_irqEn (s : State) (res : Bool) : (s.complete res).irqEn = s.irqEn := rfl
@[simp] theorem complete_status (s : State) (res : Bool) :
    (s.complete res).status = { s.status with done := true, result := res } := rfl
@[simp] theorem complete_mlen (s : State) (res : Bool) : (s.complete res).mlen = s.mlen := rfl
@[simp] theorem complete_plen (s : State) (res : Bool) : (s.complete res).plen = s.plen := rfl
@[simp] theorem complete_kgBits (s : State) (res : Bool) : (s.complete res).kgBits = s.kgBits := rfl
@[simp] theorem complete_key (s : State) (res : Bool) : (s.complete res).key = s.key := rfl
@[simp] theorem complete_iv (s : State) (res : Bool) : (s.complete res).iv = s.iv := rfl
@[simp] theorem complete_data (s : State) (res : Bool) : (s.complete res).data = s.data := rfl
@[simp] theorem complete_rk (s : State) (res : Bool) : (s.complete res).rk = s.rk := rfl
@[simp] theorem complete_a (s : State) (res : Bool) : (s.complete res).a = s.a := rfl
@[simp] theorem complete_b (s : State) (res : Bool) : (s.complete res).b = s.b := rfl
@[simp] theorem complete_m (s : State) (res : Bool) : (s.complete res).m = s.m := rfl
@[simp] theorem complete_r (s : State) (res : Bool) : (s.complete res).r = s.r := rfl
@[simp] theorem complete_rsaN (s : State) (res : Bool) : (s.complete res).rsaN = s.rsaN := rfl
@[simp] theorem complete_rsaE (s : State) (res : Bool) : (s.complete res).rsaE = s.rsaE := rfl
@[simp] theorem complete_rsaD (s : State) (res : Bool) : (s.complete res).rsaD = s.rsaD := rfl
@[simp] theorem complete_rsaC (s : State) (res : Bool) : (s.complete res).rsaC = s.rsaC := rfl
@[simp] theorem complete_rsaMb (s : State) (res : Bool) : (s.complete res).rsaMb = s.rsaMb := rfl
@[simp] theorem complete_mem (s : State) (res : Bool) : (s.complete res).mem = s.mem := rfl
@[simp] theorem complete_kgMaxCandidates (s : State) (res : Bool) : (s.complete res).kgMaxCandidates = s.kgMaxCandidates := rfl
@[simp] theorem complete_rng (s : State) (res : Bool) : (s.complete res).rng = s.rng := rfl
@[simp] theorem complete_epoch (s : State) (res : Bool) : (s.complete res).epoch = s.epoch := rfl
@[simp] theorem complete_busyReads (s : State) (res : Bool) : (s.complete res).busyReads = s.busyReads := rfl
@[simp] theorem complete_inputs (s : State) (res : Bool) : (s.complete res).inputs = s.inputs := rfl
@[simp] theorem complete_readData (s : State) (res : Bool) : (s.complete res).readData = s.readData := rfl

@[simp] theorem raise_phase (s : State) (c : ErrorCode) (e : EngineCode) (g : StageCode) :
    (s.raise c e g).phase = .idle := rfl
@[simp] theorem raise_irqEn (s : State) (c : ErrorCode) (e : EngineCode) (g : StageCode) : (s.raise c e g).irqEn = s.irqEn := rfl
@[simp] theorem raise_status (s : State) (c : ErrorCode) (e : EngineCode) (g : StageCode) :
    (s.raise c e g).status = { s.status with err := true, result := false, errcode := c, engine := e, stage := g } := rfl
@[simp] theorem raise_mlen (s : State) (c : ErrorCode) (e : EngineCode) (g : StageCode) : (s.raise c e g).mlen = s.mlen := rfl
@[simp] theorem raise_plen (s : State) (c : ErrorCode) (e : EngineCode) (g : StageCode) : (s.raise c e g).plen = s.plen := rfl
@[simp] theorem raise_kgBits (s : State) (c : ErrorCode) (e : EngineCode) (g : StageCode) : (s.raise c e g).kgBits = s.kgBits := rfl
@[simp] theorem raise_key (s : State) (c : ErrorCode) (e : EngineCode) (g : StageCode) : (s.raise c e g).key = s.key := rfl
@[simp] theorem raise_iv (s : State) (c : ErrorCode) (e : EngineCode) (g : StageCode) : (s.raise c e g).iv = s.iv := rfl
@[simp] theorem raise_data (s : State) (c : ErrorCode) (e : EngineCode) (g : StageCode) : (s.raise c e g).data = s.data := rfl
@[simp] theorem raise_rk (s : State) (c : ErrorCode) (e : EngineCode) (g : StageCode) : (s.raise c e g).rk = s.rk := rfl
@[simp] theorem raise_a (s : State) (c : ErrorCode) (e : EngineCode) (g : StageCode) : (s.raise c e g).a = s.a := rfl
@[simp] theorem raise_b (s : State) (c : ErrorCode) (e : EngineCode) (g : StageCode) : (s.raise c e g).b = s.b := rfl
@[simp] theorem raise_m (s : State) (c : ErrorCode) (e : EngineCode) (g : StageCode) : (s.raise c e g).m = s.m := rfl
@[simp] theorem raise_r (s : State) (c : ErrorCode) (e : EngineCode) (g : StageCode) : (s.raise c e g).r = s.r := rfl
@[simp] theorem raise_rsaN (s : State) (c : ErrorCode) (e : EngineCode) (g : StageCode) : (s.raise c e g).rsaN = s.rsaN := rfl
@[simp] theorem raise_rsaE (s : State) (c : ErrorCode) (e : EngineCode) (g : StageCode) : (s.raise c e g).rsaE = s.rsaE := rfl
@[simp] theorem raise_rsaD (s : State) (c : ErrorCode) (e : EngineCode) (g : StageCode) : (s.raise c e g).rsaD = s.rsaD := rfl
@[simp] theorem raise_rsaC (s : State) (c : ErrorCode) (e : EngineCode) (g : StageCode) : (s.raise c e g).rsaC = s.rsaC := rfl
@[simp] theorem raise_rsaMb (s : State) (c : ErrorCode) (e : EngineCode) (g : StageCode) : (s.raise c e g).rsaMb = s.rsaMb := rfl
@[simp] theorem raise_mem (s : State) (c : ErrorCode) (e : EngineCode) (g : StageCode) : (s.raise c e g).mem = s.mem := rfl
@[simp] theorem raise_kgMaxCandidates (s : State) (c : ErrorCode) (e : EngineCode) (g : StageCode) : (s.raise c e g).kgMaxCandidates = s.kgMaxCandidates := rfl
@[simp] theorem raise_rng (s : State) (c : ErrorCode) (e : EngineCode) (g : StageCode) : (s.raise c e g).rng = s.rng := rfl
@[simp] theorem raise_epoch (s : State) (c : ErrorCode) (e : EngineCode) (g : StageCode) : (s.raise c e g).epoch = s.epoch := rfl
@[simp] theorem raise_busyReads (s : State) (c : ErrorCode) (e : EngineCode) (g : StageCode) : (s.raise c e g).busyReads = s.busyReads := rfl
@[simp] theorem raise_inputs (s : State) (c : ErrorCode) (e : EngineCode) (g : StageCode) : (s.raise c e g).inputs = s.inputs := rfl
@[simp] theorem raise_readData (s : State) (c : ErrorCode) (e : EngineCode) (g : StageCode) : (s.raise c e g).readData = s.readData := rfl

@[simp] theorem issue_phase (s : State) (cw : Word) :
    (s.issue cw).phase = .busy cw := rfl
@[simp] theorem issue_irqEn (s : State) (cw : Word) : (s.issue cw).irqEn = s.irqEn := rfl
@[simp] theorem issue_status (s : State) (cw : Word) :
    (s.issue cw).status = 
      { done := false, err := false, result := false, errcode := .none, engine := .none, stage := .none
        lastop := cw.extractLsb' 0 8 } := rfl
@[simp] theorem issue_mlen (s : State) (cw : Word) : (s.issue cw).mlen = s.mlen := rfl
@[simp] theorem issue_plen (s : State) (cw : Word) : (s.issue cw).plen = s.plen := rfl
@[simp] theorem issue_kgBits (s : State) (cw : Word) : (s.issue cw).kgBits = s.kgBits := rfl
@[simp] theorem issue_key (s : State) (cw : Word) : (s.issue cw).key = s.key := rfl
@[simp] theorem issue_iv (s : State) (cw : Word) : (s.issue cw).iv = s.iv := rfl
@[simp] theorem issue_data (s : State) (cw : Word) : (s.issue cw).data = s.data := rfl
@[simp] theorem issue_rk (s : State) (cw : Word) : (s.issue cw).rk = s.rk := rfl
@[simp] theorem issue_a (s : State) (cw : Word) : (s.issue cw).a = s.a := rfl
@[simp] theorem issue_b (s : State) (cw : Word) : (s.issue cw).b = s.b := rfl
@[simp] theorem issue_m (s : State) (cw : Word) : (s.issue cw).m = s.m := rfl
@[simp] theorem issue_r (s : State) (cw : Word) : (s.issue cw).r = s.r := rfl
@[simp] theorem issue_rsaN (s : State) (cw : Word) : (s.issue cw).rsaN = s.rsaN := rfl
@[simp] theorem issue_rsaE (s : State) (cw : Word) : (s.issue cw).rsaE = s.rsaE := rfl
@[simp] theorem issue_rsaD (s : State) (cw : Word) : (s.issue cw).rsaD = s.rsaD := rfl
@[simp] theorem issue_rsaC (s : State) (cw : Word) : (s.issue cw).rsaC = s.rsaC := rfl
@[simp] theorem issue_rsaMb (s : State) (cw : Word) : (s.issue cw).rsaMb = s.rsaMb := rfl
@[simp] theorem issue_mem (s : State) (cw : Word) : (s.issue cw).mem = s.mem := rfl
@[simp] theorem issue_kgMaxCandidates (s : State) (cw : Word) : (s.issue cw).kgMaxCandidates = s.kgMaxCandidates := rfl
@[simp] theorem issue_rng (s : State) (cw : Word) : (s.issue cw).rng = s.rng := rfl
@[simp] theorem issue_epoch (s : State) (cw : Word) : (s.issue cw).epoch = s.epoch := rfl
@[simp] theorem issue_busyReads (s : State) (cw : Word) : (s.issue cw).busyReads = s.busyReads := rfl
@[simp] theorem issue_inputs (s : State) (cw : Word) : (s.issue cw).inputs = s.inputs := rfl
@[simp] theorem issue_readData (s : State) (cw : Word) : (s.issue cw).readData = s.readData := rfl

@[simp] theorem writeBytes_phase (s : State) (base : Nat) (X : List Byte) : (s.writeBytes base X).phase = s.phase := rfl
@[simp] theorem writeBytes_irqEn (s : State) (base : Nat) (X : List Byte) : (s.writeBytes base X).irqEn = s.irqEn := rfl
@[simp] theorem writeBytes_status (s : State) (base : Nat) (X : List Byte) : (s.writeBytes base X).status = s.status := rfl
@[simp] theorem writeBytes_mlen (s : State) (base : Nat) (X : List Byte) : (s.writeBytes base X).mlen = s.mlen := rfl
@[simp] theorem writeBytes_plen (s : State) (base : Nat) (X : List Byte) : (s.writeBytes base X).plen = s.plen := rfl
@[simp] theorem writeBytes_kgBits (s : State) (base : Nat) (X : List Byte) : (s.writeBytes base X).kgBits = s.kgBits := rfl
@[simp] theorem writeBytes_key (s : State) (base : Nat) (X : List Byte) : (s.writeBytes base X).key = s.key := rfl
@[simp] theorem writeBytes_iv (s : State) (base : Nat) (X : List Byte) : (s.writeBytes base X).iv = s.iv := rfl
@[simp] theorem writeBytes_data (s : State) (base : Nat) (X : List Byte) : (s.writeBytes base X).data = s.data := rfl
@[simp] theorem writeBytes_rk (s : State) (base : Nat) (X : List Byte) : (s.writeBytes base X).rk = s.rk := rfl
@[simp] theorem writeBytes_a (s : State) (base : Nat) (X : List Byte) : (s.writeBytes base X).a = s.a := rfl
@[simp] theorem writeBytes_b (s : State) (base : Nat) (X : List Byte) : (s.writeBytes base X).b = s.b := rfl
@[simp] theorem writeBytes_m (s : State) (base : Nat) (X : List Byte) : (s.writeBytes base X).m = s.m := rfl
@[simp] theorem writeBytes_r (s : State) (base : Nat) (X : List Byte) : (s.writeBytes base X).r = s.r := rfl
@[simp] theorem writeBytes_rsaN (s : State) (base : Nat) (X : List Byte) : (s.writeBytes base X).rsaN = s.rsaN := rfl
@[simp] theorem writeBytes_rsaE (s : State) (base : Nat) (X : List Byte) : (s.writeBytes base X).rsaE = s.rsaE := rfl
@[simp] theorem writeBytes_rsaD (s : State) (base : Nat) (X : List Byte) : (s.writeBytes base X).rsaD = s.rsaD := rfl
@[simp] theorem writeBytes_rsaC (s : State) (base : Nat) (X : List Byte) : (s.writeBytes base X).rsaC = s.rsaC := rfl
@[simp] theorem writeBytes_rsaMb (s : State) (base : Nat) (X : List Byte) : (s.writeBytes base X).rsaMb = s.rsaMb := rfl
@[simp] theorem writeBytes_mem (s : State) (base : Nat) (X : List Byte) :
    (s.writeBytes base X).mem = s.mem.write base X := rfl
@[simp] theorem writeBytes_kgMaxCandidates (s : State) (base : Nat) (X : List Byte) : (s.writeBytes base X).kgMaxCandidates = s.kgMaxCandidates := rfl
@[simp] theorem writeBytes_rng (s : State) (base : Nat) (X : List Byte) : (s.writeBytes base X).rng = s.rng := rfl
@[simp] theorem writeBytes_epoch (s : State) (base : Nat) (X : List Byte) : (s.writeBytes base X).epoch = s.epoch := rfl
@[simp] theorem writeBytes_busyReads (s : State) (base : Nat) (X : List Byte) : (s.writeBytes base X).busyReads = s.busyReads := rfl
@[simp] theorem writeBytes_inputs (s : State) (base : Nat) (X : List Byte) : (s.writeBytes base X).inputs = s.inputs := rfl
@[simp] theorem writeBytes_readData (s : State) (base : Nat) (X : List Byte) : (s.writeBytes base X).readData = s.readData := rfl

@[simp] theorem applyReset_phase (s : State) :
    (s.applyReset).phase = State.reset.phase := rfl
@[simp] theorem applyReset_irqEn (s : State) :
    (s.applyReset).irqEn = State.reset.irqEn := rfl
@[simp] theorem applyReset_status (s : State) :
    (s.applyReset).status = State.reset.status := rfl
@[simp] theorem applyReset_mlen (s : State) :
    (s.applyReset).mlen = State.reset.mlen := rfl
@[simp] theorem applyReset_plen (s : State) :
    (s.applyReset).plen = State.reset.plen := rfl
@[simp] theorem applyReset_kgBits (s : State) :
    (s.applyReset).kgBits = State.reset.kgBits := rfl
@[simp] theorem applyReset_key (s : State) :
    (s.applyReset).key = State.reset.key := rfl
@[simp] theorem applyReset_iv (s : State) :
    (s.applyReset).iv = State.reset.iv := rfl
@[simp] theorem applyReset_data (s : State) :
    (s.applyReset).data = State.reset.data := rfl
@[simp] theorem applyReset_rk (s : State) :
    (s.applyReset).rk = Config.unspecifiedRk (s.epoch + 1) := rfl
@[simp] theorem applyReset_a (s : State) :
    (s.applyReset).a = State.reset.a := rfl
@[simp] theorem applyReset_b (s : State) :
    (s.applyReset).b = State.reset.b := rfl
@[simp] theorem applyReset_m (s : State) :
    (s.applyReset).m = State.reset.m := rfl
@[simp] theorem applyReset_r (s : State) :
    (s.applyReset).r = State.reset.r := rfl
@[simp] theorem applyReset_rsaN (s : State) :
    (s.applyReset).rsaN = State.reset.rsaN := rfl
@[simp] theorem applyReset_rsaE (s : State) :
    (s.applyReset).rsaE = State.reset.rsaE := rfl
@[simp] theorem applyReset_rsaD (s : State) :
    (s.applyReset).rsaD = State.reset.rsaD := rfl
@[simp] theorem applyReset_rsaC (s : State) :
    (s.applyReset).rsaC = State.reset.rsaC := rfl
@[simp] theorem applyReset_rsaMb (s : State) :
    (s.applyReset).rsaMb = State.reset.rsaMb := rfl
@[simp] theorem applyReset_mem (s : State) :
    (s.applyReset).mem = State.reset.mem := rfl
@[simp] theorem applyReset_kgMaxCandidates (s : State) : (s.applyReset).kgMaxCandidates = s.kgMaxCandidates := rfl
@[simp] theorem applyReset_rng (s : State) : (s.applyReset).rng = s.rng := rfl
@[simp] theorem applyReset_epoch (s : State) :
    (s.applyReset).epoch = s.epoch + 1 := rfl
@[simp] theorem applyReset_busyReads (s : State) : (s.applyReset).busyReads = s.busyReads := rfl
@[simp] theorem applyReset_inputs (s : State) : (s.applyReset).inputs = s.inputs := rfl
@[simp] theorem applyReset_readData (s : State) : (s.applyReset).readData = s.readData := rfl

end Sys2Proof.Machine
end

