-- ==== Sys2Proof/Laws/Ops.lean ====
section
/-! SUPPORT. What each shared operation of the command frame does, said once. -/

namespace Sys2Proof.Machine

theorem complete_succeeds (s w : State) (res : Bool) (h : w.status = s.status) : Succeeds s (w.complete res) res := by
  simp [Succeeds, h]

theorem raise_failsWith (s : State) (g : Rng) (c : ErrorCode) (e : EngineCode) (x : StageCode) :
    FailsWith s (State.raise { s with rng := g } c e x) (c, e, x) := rfl

theorem raise_rejectsWith (s : State) (c : ErrorCode) (e : EngineCode) (x : StageCode) :
    RejectsWith s (s.raise c e x) (c, e, x) := ⟨rfl, rfl⟩

@[simp] theorem complete_readByte (w : State) (res : Bool) (o : Nat) :
    (w.complete res).readByte o = w.readByte o := rfl

theorem memoryKept_of_mem_eq {s t : State} (hm : t.mem = s.mem) (he : t.epoch = s.epoch) : MemoryKept s t := by
  intro o
  simp [State.readByte, hm, he]

theorem memoryKeptOutside_of_write {s t : State} {base : Nat} {X : List Byte} (hm : t.mem = s.mem.write base X)
    (he : t.epoch = s.epoch) : MemoryKeptOutside s t base X.length := by
  intro o ho
  have h := readByte_writeBytes_outside s base X o ho
  simpa [State.readByte, State.writeBytes, hm, he] using h

/-- What the engine's turn does while a legal command runs. -/
theorem engineTurn_busy {s : State} {cw : Word} {i : Instr} (hp : s.phase = .busy cw) (hd : decode cw = .ok i) :
    s.engineTurn = exec i s := by
  simp [State.engineTurn, hp, hd]

theorem engineTurn_illegal {s : State} {cw : Word} {e : DecodeError} (hp : s.phase = .busy cw)
    (hd : decode cw = .error e) : s.engineTurn = .next s.illegalCommand := by
  simp [State.engineTurn, hp, hd]

theorem engineTurn_idle {s : State} (hp : s.phase = .idle) : s.engineTurn = .next s := by
  simp [State.engineTurn, hp]

theorem step_nil {s : State} (h : s.inputs = []) : step s = s.engineTurn := by
  simp [step, State.advance, h]

theorem step_cons {s : State} {x : Input} {rest : List Input} (h : s.inputs = x :: rest) :
    step s = State.takeInput { s with inputs := rest } x := by
  simp [step, State.advance, h]

end Sys2Proof.Machine
end

