-- ==== Sys2Proof/Laws/HostForms.lean ====
section
/-! SUPPORT. Host programs run line by line, `RDS` and `RDV` assemble what `WRS` and `WRV` take apart, and `WAIT` ends
at the first read of STATUS that has bit 0 clear (R98). -/

namespace Sys2Proof.Machine

/-- A program followed by another runs as one after the other. -/
theorem run_andThen {α β : Type} (p : HostProgram α) (f : α → HostProgram β) (s t : State) (x : α)
    (h : p.run s = .next (t, x)) : (p.andThen f).run s = (f x).run t := by
  induction p generalizing s with
  | done y =>
    obtain ⟨rfl, rfl⟩ : s = t ∧ y = x := by simpa [HostProgram.run] using h
    rfl
  | write off v next ih => exact ih _ h
  | read off next ih => exact ih _ _ h
  | engine next ih =>
    simp only [HostProgram.run] at h
    simp only [HostProgram.andThen, HostProgram.run]
    split at h
    · exact ih _ h
    · cases h
    · cases h

@[simp] theorem run_formRd (off : Nat) (s : State) :
    (formRd off).run s = .next (s.hostRead (BitVec.ofNat 17 off), s.hostReadWord (BitVec.ofNat 17 off)) := rfl

@[simp] theorem run_formWr (off : Nat) (v : Word) (s : State) :
    (formWr off v).run s = .next (s.hostWrite (BitVec.ofNat 17 off) v, ()) := rfl

theorem readsUnspecified_status (s : State) : s.readsUnspecified (BitVec.ofNat 17 0x00008) = false := by
  show (s.phase.isBusy && false) = false
  simp

theorem hostReadWord_status (s : State) : s.hostReadWord (BitVec.ofNat 17 0x00008) = s.statusWord := by
  rw [State.hostReadWord, readsUnspecified_status]
  rfl

theorem statusWord_bit0 (s : State) : s.statusWord.getLsbD 0 = s.phase.isBusy := by
  rw [State.statusWord, BitVec.getLsbD_append]
  simp

/-- A read of STATUS changes nothing but the word the host holds. -/
theorem hostRead_status (s : State) :
    s.hostRead (BitVec.ofNat 17 0x00008) = { s with readData := some s.statusWord } := by
  rw [State.hostRead, hostReadWord_status, readsUnspecified_status]
  rfl

/-- In IDLE `WAIT` reads STATUS once, whatever `polls`. -/
theorem run_formWait_idle (polls : Nat) (s : State) (h : s.phase = .idle) :
    (formWait polls).run s = .next ({ s with readData := some s.statusWord }, s.statusWord) := by
  have hbit : s.statusWord.getLsbD 0 = false := by rw [statusWord_bit0, h]; rfl
  cases polls with
  | zero =>
    simp only [formWait, HostProgram.run, engineTurn_idle h, run_formRd, hostReadWord_status, hostRead_status]
  | succ n =>
    rw [formWait, run_andThen _ _ _ _ _ (run_formRd _ s), hostReadWord_status, hostRead_status, hbit]
    rfl

/-- In the BUSY window every poll reads bit 0 set and `WAIT` goes on; it ends with the STATUS the command leaves. -/
theorem run_formWait_busy (polls : Nat) (s : State) (cw : Word) (h : s.phase = .busy cw)
    (hdone : ∀ u : State, u.phase = .busy cw → ∃ t : State, u.engineTurn = .next t ∧ t.phase = .idle) :
    ∃ t : State, (formWait polls).run s = .next (t, t.statusWord) ∧ t.phase = .idle := by
  induction polls generalizing s with
  | zero =>
    obtain ⟨t, ht, hp⟩ := hdone s h
    refine ⟨{ t with readData := some t.statusWord }, ?_, hp⟩
    simp only [formWait, HostProgram.run, ht, run_formRd, hostReadWord_status, hostRead_status]
    rfl
  | succ n ih =>
    have hbit : s.statusWord.getLsbD 0 = true := by rw [statusWord_bit0, h]; rfl
    obtain ⟨t, ht, hp⟩ := ih { s with readData := some s.statusWord } h
    refine ⟨t, ?_, hp⟩
    rw [formWait, run_andThen _ _ _ _ _ (run_formRd _ s), hostReadWord_status, hostRead_status, hbit]
    exact ht

/-- The words of an integer give it back. -/
theorem valueOfWords_wordsOfValue (n v : Nat) : valueOfWords (wordsOfValue n v) = v % 2 ^ (32 * n) := by
  induction n generalizing v with
  | zero => simp [wordsOfValue, valueOfWords, Nat.mod_one]
  | succ n ih =>
    have hsplit : wordsOfValue (n + 1) v = BitVec.ofNat 32 v :: wordsOfValue n (v / 2 ^ 32) := by
      simp only [wordsOfValue, List.range_succ_eq_map, List.map_cons, List.map_map, Nat.mul_zero, Nat.pow_zero,
        Nat.div_one]
      congr 1
      apply List.map_congr_left
      intro k _
      simp only [Function.comp, Nat.div_div_eq_div_mul, ← Nat.pow_add]
      congr 3
      omega
    have hmod : v % (2 ^ 32 * 2 ^ (32 * n)) = v % 2 ^ 32 + 2 ^ 32 * (v / 2 ^ 32 % 2 ^ (32 * n)) := Nat.mod_mul
    rw [hsplit, valueOfWords, ih, BitVec.toNat_ofNat, show 32 * (n + 1) = 32 + 32 * n by ring, Nat.pow_add, hmod]

theorem bytesOfWords_map_range (m : Nat) (g : Nat → Word) :
    bytesOfWords ((List.range m).map g) = (List.range (4 * m)).map fun i => byteAt (g (i / 4)) (i % 4) := by
  induction m with
  | zero => rfl
  | succ m ih =>
    have hrange : List.range (4 * (m + 1)) = List.range (4 * m) ++ (List.range 4).map (4 * m + ·) := by
      rw [Nat.mul_succ, List.range_add]
    rw [List.range_succ, List.map_append, hrange, List.map_append, ← ih, bytesOfWords, bytesOfWords,
      List.flatMap_append]
    congr 1
    simp only [List.map_cons, List.map_nil, List.flatMap_cons, List.flatMap_nil, List.append_nil, List.map_map]
    apply List.map_congr_left
    intro i hi
    have hi4 : i < 4 := List.mem_range.1 hi
    simp only [Function.comp, show (4 * m + i) / 4 = m by omega, show (4 * m + i) % 4 = i by omega]

/-- `RDS` is the inverse of `WRS`: the bytes of the words of a string are the string. -/
theorem take_bytesOfWords_wordsOfBytes (X : List Byte) : (bytesOfWords (wordsOfBytes X)).take X.length = X := by
  rw [wordsOfBytes, bytesOfWords_map_range, ← List.map_take, List.take_range, Nat.min_eq_left (by omega)]
  apply List.ext_getElem (by simp)
  intro i h1 h2
  have hmod : i % 4 < 4 := Nat.mod_lt _ (by decide)
  simp [byteAt_wordOfBytes _ _ hmod, Nat.div_add_mod, h2]

end Sys2Proof.Machine
end

