-- ==== Sys2Proof/Laws/Random.lean ====
section
/-! SUPPORT. Draws stay in range, take answers in range as they are, and consume one answer each (R77). -/

namespace Sys2Proof.Machine

theorem fitRange_bounds (lo hi raw : Nat) (h : lo ≤ hi) : lo ≤ fitRange lo hi raw ∧ fitRange lo hi raw ≤ hi := by
  unfold fitRange
  split
  · assumption
  · have := Nat.mod_lt raw (show 0 < hi - lo + 1 by omega)
    omega

theorem fitRange_of_mem (lo hi raw : Nat) (h1 : lo ≤ raw) (h2 : raw ≤ hi) : fitRange lo hi raw = raw := by
  simp [fitRange, h1, h2]

/-- An answer in range at the head of the queue is taken as it is. -/
theorem range_of_queue {x lo hi : Nat} (rest : List Nat) (count : Nat) (h1 : lo ≤ x) (h2 : x ≤ hi) :
    Rng.range { queue := x :: rest, count := count } lo hi = (x, { queue := rest, count := count + 1 }) := by
  simp [Rng.range, Rng.answer, fitRange_of_mem _ _ _ h1 h2]

@[simp] theorem count_answer (g : Rng) : g.answer.2.count = g.count + 1 := by
  unfold Rng.answer
  split <;> rfl

@[simp] theorem count_range (g : Rng) (lo hi : Nat) : (g.range lo hi).2.count = g.count + 1 := count_answer g

@[simp] theorem count_bits (g : Rng) (k : Nat) : (g.bits k).2.count = g.count + 1 := count_answer g

@[simp] theorem count_byte (g : Rng) : g.byte.2.count = g.count + 1 := count_answer g

@[simp] theorem count_nonzeroByte (g : Rng) : g.nonzeroByte.2.count = g.count + 1 := count_answer g

@[simp] theorem length_bytes (n : Nat) (g : Rng) : (Rng.bytes n g).1.length = n := by
  induction n generalizing g with
  | zero => rfl
  | succ n ih => simp [Rng.bytes, ih]

@[simp] theorem count_bytes (n : Nat) (g : Rng) : (Rng.bytes n g).2.count = g.count + n := by
  induction n generalizing g with
  | zero => rfl
  | succ n ih => simp [Rng.bytes, ih]; omega

@[simp] theorem length_nonzeroBytes (n : Nat) (g : Rng) : (Rng.nonzeroBytes n g).1.length = n := by
  induction n generalizing g with
  | zero => rfl
  | succ n ih => simp [Rng.nonzeroBytes, ih]

@[simp] theorem count_nonzeroBytes (n : Nat) (g : Rng) : (Rng.nonzeroBytes n g).2.count = g.count + n := by
  induction n generalizing g with
  | zero => rfl
  | succ n ih => simp [Rng.nonzeroBytes, ih]; omega

theorem nonzeroByte_ne_zero (g : Rng) : g.nonzeroByte.1 ≠ 0x00#8 := by
  have h := fitRange_bounds 1 255 g.answer.1 (by decide)
  intro hz
  have h2 := congrArg BitVec.toNat hz
  simp only [Rng.nonzeroByte, Rng.range, BitVec.toNat_ofNat] at h2
  omega

/-- No byte of a padding string is zero (R281). -/
theorem nonzeroBytes_ne_zero (n : Nat) (g : Rng) : ∀ x ∈ (Rng.nonzeroBytes n g).1, x ≠ 0x00#8 := by
  induction n generalizing g with
  | zero => simp [Rng.nonzeroBytes]
  | succ n ih =>
    intro x hx
    rcases List.mem_cons.mp hx with h | h
    · exact h ▸ nonzeroByte_ne_zero g
    · exact ih _ x h

end Sys2Proof.Machine
end

