-- ==== Sys2Proof/Laws/MillerRabin.lean ====
section
/-! SUPPORT. The decomposition of R220 is unique, a round passes as R221 says in one sentence, and the rounds draw one
base each up to the first that fails. -/

namespace Sys2Proof.Machine

/-- The decomposition of R220 (the loop's bound is enough). -/
theorem splitTwos_spec (fuel v : Nat) (hv : v ≠ 0) (hf : v < 2 ^ fuel) :
    v = 2 ^ (splitTwos fuel v).1 * (splitTwos fuel v).2 ∧ (splitTwos fuel v).2 % 2 = 1 := by
  induction fuel generalizing v with
  | zero => simp at hf; omega
  | succ fuel ih =>
    rw [splitTwos]
    split
    · next h =>
      obtain ⟨heq, hodd⟩ := ih (v / 2) (by omega) (by rw [Nat.pow_succ] at hf; omega)
      refine ⟨?_, hodd⟩
      simp only [pow_succ]
      rw [Nat.mul_right_comm, ← heq]
      omega
    · next h => exact ⟨by simp, by omega⟩

/-- A power of two times an odd number determines both (R220). -/
theorem two_pow_mul_odd_inj {k d l e : Nat} (hd : d % 2 = 1) (he : e % 2 = 1) (h : 2 ^ k * d = 2 ^ l * e) :
    k = l ∧ d = e := by
  induction k generalizing l with
  | zero =>
    cases l with
    | zero => simpa using h
    | succ l => rw [Nat.pow_succ', Nat.mul_assoc] at h; omega
  | succ k ih =>
    cases l with
    | zero => rw [Nat.pow_succ', Nat.mul_assoc] at h; omega
    | succ l =>
      rw [Nat.pow_succ', Nat.pow_succ', Nat.mul_assoc, Nat.mul_assoc] at h
      have := ih (l := l) (by omega)
      omega

theorem reachesMinusOne_iff (n k x : Nat) :
    reachesMinusOne n k x = true ↔ ∃ r : Nat, 1 ≤ r ∧ r ≤ k ∧ x ^ 2 ^ r % n = n - 1 := by
  induction k generalizing x with
  | zero =>
    simp only [reachesMinusOne, Bool.false_eq_true, false_iff]
    rintro ⟨r, h1, h2, -⟩
    omega
  | succ k ih =>
    have hsq : ∀ r : Nat, (x * x % n) ^ 2 ^ r % n = x ^ 2 ^ (r + 1) % n := by
      intro r
      rw [← Nat.pow_mod, ← Nat.pow_two, ← Nat.pow_mul, Nat.pow_succ 2 r, Nat.mul_comm 2]
    simp only [reachesMinusOne, Bool.or_eq_true, beq_iff_eq, ih, hsq]
    constructor
    · rintro (h | ⟨r, h1, h2, h⟩)
      · exact ⟨1, by omega, by omega, by rwa [pow_one, Nat.pow_two]⟩
      · exact ⟨r + 1, by omega, by omega, h⟩
    · rintro ⟨r, h1, h2, h⟩
      by_cases hr : r = 1
      · subst hr; exact .inl (by rwa [pow_one, Nat.pow_two] at h)
      · exact .inr ⟨r - 1, by omega, by omega, by rwa [Nat.sub_add_cancel h1]⟩

/-- The model's round with the decomposition of R220 passes exactly when R221 says so. -/
theorem roundPasses_iff_passesRound {n : Nat} (hn : 3 ≤ n) (hodd : n % 2 = 1) (a : Nat) :
    roundPasses n (splitTwos (bitlen n) (n - 1)).1 (splitTwos (bitlen n) (n - 1)).2 a = true ↔ PassesRound n a := by
  have hbound : n - 1 < 2 ^ bitlen n := by have := lt_two_pow_bitlen n; omega
  obtain ⟨heq, hd⟩ := splitTwos_spec (bitlen n) (n - 1) (by omega) hbound
  generalize (splitTwos (bitlen n) (n - 1)).1 = k at *
  generalize (splitTwos (bitlen n) (n - 1)).2 = d at *
  have hk : 1 ≤ k := by
    rcases Nat.eq_zero_or_pos k with h | h
    · subst h; simp at heq; omega
    · exact h
  have hpow : ∀ r : Nat, (a ^ d % n) ^ 2 ^ r % n = a ^ (d * 2 ^ r) % n := by
    intro r; rw [← Nat.pow_mod, ← Nat.pow_mul]
  simp only [roundPasses, modExp_eq, Bool.or_eq_true, beq_iff_eq, reachesMinusOne_iff, hpow]
  constructor
  · rintro ((h | h) | ⟨r, h1, h2, h⟩)
    · exact ⟨k, d, heq, hd, .inl h⟩
    · exact ⟨k, d, heq, hd, .inr ⟨0, by omega, by simpa using h⟩⟩
    · exact ⟨k, d, heq, hd, .inr ⟨r, by omega, h⟩⟩
  · rintro ⟨l, e, heq', he, h⟩
    obtain ⟨rfl, rfl⟩ := two_pow_mul_odd_inj hd he (heq.symm.trans heq')
    rcases h with h | ⟨r, hr, h⟩
    · exact .inl (.inl h)
    · rcases Nat.eq_zero_or_pos r with rfl | hpos
      · exact .inl (.inr (by simpa using h))
      · exact .inr ⟨r, hpos, by omega, h⟩

/-- Rounds that all pass take one base each (R221). -/
theorem millerRabinRounds_of_all_pass {n k d : Nat} (bases rest : List Nat) (count : Nat)
    (h : ∀ b ∈ bases, 2 ≤ b ∧ b ≤ n - 2 ∧ roundPasses n k d b = true) :
    millerRabinRounds n k d bases.length { queue := bases ++ rest, count := count } =
      (true, { queue := rest, count := count + bases.length }) := by
  induction bases generalizing count with
  | nil => rfl
  | cons b bs ih =>
    obtain ⟨h1, h2, h3⟩ := h b List.mem_cons_self
    simp only [List.length_cons, millerRabinRounds, List.cons_append, range_of_queue _ _ h1 h2, h3, if_true]
    rw [ih _ fun x hx => h x (List.mem_cons_of_mem _ hx)]
    congr 2
    omega

/-- The first round that fails is the last one drawn (R221). -/
theorem millerRabinRounds_of_first_failure {n k d t b : Nat} (passed rest : List Nat) (count : Nat)
    (ht : passed.length < t) (h : ∀ a ∈ passed, 2 ≤ a ∧ a ≤ n - 2 ∧ roundPasses n k d a = true) (h1 : 2 ≤ b)
    (h2 : b ≤ n - 2) (hb : roundPasses n k d b = false) :
    millerRabinRounds n k d t { queue := passed ++ b :: rest, count := count } =
      (false, { queue := rest, count := count + passed.length + 1 }) := by
  obtain ⟨t, rfl⟩ : ∃ t' : Nat, t = t' + 1 := ⟨t - 1, by omega⟩
  induction passed generalizing count t with
  | nil => simp [millerRabinRounds, range_of_queue _ _ h1 h2, hb]
  | cons a as ih =>
    obtain ⟨g1, g2, g3⟩ := h a List.mem_cons_self
    rw [List.length_cons] at ht
    obtain ⟨t, rfl⟩ : ∃ t' : Nat, t = t' + 1 := ⟨t - 1, by omega⟩
    rw [millerRabinRounds, List.cons_append, range_of_queue _ _ g1 g2, if_pos g3,
      ih (count + 1) (fun x hx => h x (List.mem_cons_of_mem _ hx)) t (by omega)]
    simp
    omega

/-- For odd `n ≥ 5` the test is its rounds (R221). -/
theorem millerRabin_of_odd {n : Nat} (t : Nat) (g : Rng) (h4 : 4 ≤ n) (hodd : n % 2 = 1) :
    millerRabin n t g =
      millerRabinRounds n (splitTwos (bitlen n) (n - 1)).1 (splitTwos (bitlen n) (n - 1)).2 t g := by
  rw [millerRabin, if_neg (by omega), if_neg (by omega), if_neg (by omega)]

end Sys2Proof.Machine
end

