-- ==== Sys2Proof/Laws/KeyGen.lean ====
section
/-! SUPPORT. The candidates of the key generator, one turn of its loop, and the pairs it accepts (R242, R244). -/

namespace Sys2Proof.Machine

/-- A candidate is odd and has exactly `h` bits (R242). -/
theorem primeCandidate_bounds {h x : Nat} (hh : 2 ≤ h) (hx : x < 2 ^ h) :
    2 ^ (h - 1) ≤ primeCandidate h x ∧ primeCandidate h x < 2 ^ h ∧ primeCandidate h x % 2 = 1 := by
  unfold primeCandidate
  refine ⟨le_trans Nat.right_le_or Nat.left_le_or, ?_, ?_⟩
  · exact Nat.or_lt_two_pow (Nat.or_lt_two_pow hx (Nat.pow_lt_pow_right (by norm_num) (by omega)))
      (Nat.one_lt_two_pow (by omega))
  · rw [Nat.or_mod_two_eq_one]; simp

/-- One turn of the loop: the draw of a candidate, its test, and what becomes of it (R242, R244). -/
theorem keyGenLoop_turn {h t x : Nat} {v : Bool} {g g1 g2 : Rng} (hd : g.bits h = (x, g1))
    (hv : millerRabin (primeCandidate h x) t g1 = (v, g2)) (fuel : Nat) (p : Option Nat) :
    keyGenLoop h t (fuel + 1) p g =
      if v then
        match p with
        | none => keyGenLoop h t fuel (some (primeCandidate h x)) g2
        | some first =>
          match keyPairOf first (primeCandidate h x) with
          | none => keyGenLoop h t fuel (some first) g2
          | some kp => (some kp, g2)
      else keyGenLoop h t fuel p g2 := by
  cases v <;> cases p <;> simp only [keyGenLoop, hd, hv] <;> rfl

/-- What makes no pair has `q` drawn again (R244). -/
theorem keyPairOf_eq_none {p q : Nat} (hs : ¬ Suitable p q) : keyPairOf p q = none := by
  unfold keyPairOf
  by_cases h1 : q = p
  · rw [if_pos h1]
  · rw [if_neg h1]
    split
    · rfl
    · exact if_pos fun hg => hs ⟨fun e => h1 e.symm, hg⟩

/-- Suitable numbers of at least 105 bits make the pair of R244: the check of the length of `N` does not fail. -/
theorem keyPairOf_eq_some {p q : Nat} (hs : Suitable p q) (hp : 2 ^ 104 ≤ p) (hq : 2 ^ 104 ≤ q) :
    ∃ kp : KeyPair, keyPairOf p q = some kp ∧ kp.n = p * q ∧ kp.e = 65537 ∧
      65537 * kp.d % Nat.lcm (p - 1) (q - 1) = 1 ∧ kp.d < Nat.lcm (p - 1) (q - 1) := by
  have hlen : ¬ bitlen (p * q) < Config.nMin := by
    intro hlt
    have hpq : 2 ^ 104 * 2 ^ 104 ≤ p * q := Nat.mul_le_mul hp hq
    have hlow : 2 ^ bitlen (p * q) ≤ 2 ^ 208 := Nat.pow_le_pow_right (by norm_num) (Nat.le_of_lt_succ hlt)
    have := lt_two_pow_bitlen (p * q)
    omega
  have hpos : 0 < Nat.lcm (p - 1) (q - 1) := Nat.lcm_pos (by omega) (by omega)
  have hle := Nat.le_of_dvd hpos (Nat.dvd_lcm_left (p - 1) (q - 1))
  obtain ⟨d, hd, hlt, hinv⟩ := modInv_eq_some (a := 65537) (m := Nat.lcm (p - 1) (q - 1)) (by omega)
    (by rw [← Nat.gcd_rec, Nat.gcd_comm]; exact hs.2)
  refine ⟨{ n := p * q, e := 65537, d := d }, ?_, rfl, rfl, ?_, hlt⟩
  · rw [keyPairOf, if_neg fun e => hs.1 e.symm, if_neg hlen, if_neg fun hg => hg hs.2, hd]
  · exact hinv.trans (Nat.mod_eq_of_lt (by omega))

end Sys2Proof.Machine
end

