-- ==== Sys2Proof/Laws/Strings.lean ====
section
/-! SUPPORT. Byte strings read and written as big-endian integers (R283), and the padding block (R281, R282). -/

namespace Sys2Proof.Machine

theorem foldl_os2ip (X : List Byte) (acc : Nat) :
    X.foldl (fun acc x => acc * 256 + x.toNat) acc = acc * 256 ^ X.length + os2ip X := by
  induction X generalizing acc with
  | nil => simp [os2ip]
  | cons x rest ih =>
    simp only [os2ip, List.foldl_cons, List.length_cons]
    rw [ih, ih (0 * 256 + x.toNat)]
    ring

theorem os2ip_cons (x : Byte) (X : List Byte) : os2ip (x :: X) = x.toNat * 256 ^ X.length + os2ip X := by
  have h := foldl_os2ip X x.toNat
  simpa [os2ip] using h

theorem os2ip_lt (X : List Byte) : os2ip X < 256 ^ X.length := by
  induction X with
  | nil => simp [os2ip]
  | cons x rest ih =>
    rw [os2ip_cons, List.length_cons, pow_succ]
    have hx : x.toNat < 256 := x.isLt
    have hle : (x.toNat + 1) * 256 ^ rest.length ≤ 256 * 256 ^ rest.length := Nat.mul_le_mul_right _ hx
    rw [Nat.succ_mul] at hle
    omega

@[simp] theorem i2osp_length (v k : Nat) : (i2osp v k).length = k := by simp [i2osp]

theorem i2osp_succ (v k : Nat) : i2osp v (k + 1) = BitVec.ofNat 8 (v / 256 ^ k) :: i2osp v k := by
  unfold i2osp
  rw [List.range_succ_eq_map, List.map_cons, List.map_map]
  congr 1
  apply List.map_congr_left
  intro i hi
  have hk : k - (i + 1) = k - 1 - i := by omega
  simp [hk]

theorem i2osp_add_mul (v w k : Nat) : i2osp (w * 256 ^ k + v) k = i2osp v k := by
  unfold i2osp
  apply List.map_congr_left
  intro i hi
  have hik : i < k := List.mem_range.1 hi
  apply BitVec.eq_of_toNat_eq
  have hpow : (256 : Nat) ^ k = 256 ^ (k - 1 - i) * (256 ^ i * 256) := by
    rw [← pow_succ, ← pow_add]; congr 1; omega
  have hdiv : (w * 256 ^ k + v) / 256 ^ (k - 1 - i) = w * 256 ^ i * 256 + v / 256 ^ (k - 1 - i) := by
    have hre : w * 256 ^ k + v = v + 256 ^ (k - 1 - i) * (w * 256 ^ i * 256) := by rw [hpow]; ring
    rw [hre, Nat.add_mul_div_left _ _ (Nat.pos_of_ne_zero (by simp)), Nat.add_comm]
  rw [BitVec.toNat_ofNat, BitVec.toNat_ofNat, hdiv, Nat.mul_add_mod_self_right]

/-- Writing a string as an integer and back gives the string (R283). -/
theorem i2osp_os2ip (X : List Byte) : i2osp (os2ip X) X.length = X := by
  induction X with
  | nil => rfl
  | cons x rest ih =>
    rw [List.length_cons, i2osp_succ, os2ip_cons, i2osp_add_mul, ih]
    congr 1
    rw [Nat.mul_comm, Nat.mul_add_div (Nat.pos_of_ne_zero (by simp)), Nat.div_eq_of_lt (os2ip_lt rest)]
    simp

/-- Writing an integer as a string and back gives the integer modulo `256^k` (R283). -/
theorem os2ip_i2osp (v k : Nat) : os2ip (i2osp v k) = v % 256 ^ k := by
  induction k with
  | zero => simp [i2osp, os2ip, Nat.mod_one]
  | succ k ih =>
    have hsplit : v % (256 ^ k * 256) = v % 256 ^ k + 256 ^ k * (v / 256 ^ k % 256) := Nat.mod_mul
    rw [i2osp_succ, os2ip_cons, i2osp_length, ih, BitVec.toNat_ofNat, pow_succ 256 k, hsplit, Nat.mul_comm, Nat.add_comm]

theorem afterDelimiter_append (PS P : List Byte) (h : ∀ x ∈ PS, x ≠ 0x00#8) :
    afterDelimiter (PS ++ 0x00#8 :: P) = some P := by
  induction PS with
  | nil => simp [afterDelimiter]
  | cons x rest ih =>
    have hx : x ≠ 0x00#8 := h x List.mem_cons_self
    simp [afterDelimiter, hx, ih fun y hy => h y (List.mem_cons_of_mem _ hy)]

theorem afterDelimiter_eq_some {X P : List Byte} (h : afterDelimiter X = some P) :
    ∃ PS : List Byte, X = PS ++ 0x00#8 :: P ∧ ∀ x ∈ PS, x ≠ 0x00#8 := by
  induction X with
  | nil => cases h
  | cons x rest ih =>
    rw [afterDelimiter] at h
    by_cases hx : x = 0x00#8
    · rw [if_pos hx] at h
      exact ⟨[], by simp [hx, Option.some.inj h], by simp⟩
    · rw [if_neg hx] at h
      obtain ⟨PS, hPS, hne⟩ := ih h
      exact ⟨x :: PS, by simp [hPS], by simpa [hx] using hne⟩

/-- The payload of a block is what its encoding holds (R281, R282). -/
theorem unpad1_eq_some_iff (EM P : List Byte) :
    unpad1 EM = some P ↔ ∃ PS : List Byte, EM = encodedMessage PS P ∧ ∀ x ∈ PS, x ≠ 0x00#8 := by
  constructor
  · intro h
    match EM, h with
    | [], h => cases h
    | [_], h => cases h
    | x0 :: x1 :: rest, h =>
      simp only [unpad1] at h
      split at h
      · next hm =>
        obtain ⟨PS, rfl, hne⟩ := afterDelimiter_eq_some h
        exact ⟨PS, by simp [encodedMessage, hm.1, hm.2], hne⟩
      · cases h
  · rintro ⟨PS, rfl, hne⟩
    simp [unpad1, encodedMessage, afterDelimiter_append PS P hne]

end Sys2Proof.Machine
end

