-- ==== Sys2Proof/Laws/MessageFrame.lean ====
section
/-! SUPPORT. The bytes of MBUF a command leaves unchanged (10_state.md R36, 43_aes_cbc.md R190). -/

namespace Sys2Proof.Machine

theorem length_bytesOf (Bs : List Block) : (bytesOf Bs).length = 16 * Bs.length := by
  induction Bs with
  | nil => rfl
  | cons b rest ih =>
    simp only [bytesOf, List.flatMap_cons, List.length_append, List.length_cons, length_blockBytes] at ih ⊢
    omega

theorem length_cbcEncBlocks (sched : BitVec 1408) (prev : Block) (Bs : List Block) :
    (cbcEncBlocks sched prev Bs).length = Bs.length := by
  induction Bs generalizing prev with
  | nil => rfl
  | cons b rest ih => simp [cbcEncBlocks, ih]

theorem length_cbcDecBlocks (sched : BitVec 1408) (prev : Block) (Bs : List Block) :
    (cbcDecBlocks sched prev Bs).length = Bs.length := by
  induction Bs generalizing prev with
  | nil => rfl
  | cons b rest ih => simp [cbcDecBlocks, ih]

theorem length_cbcEnc_le (P : List Byte) (sched : BitVec 1408) (iv : Block) :
    (cbcEnc P sched iv).length ≤ P.length := by
  simp only [cbcEnc, length_bytesOf, length_cbcEncBlocks, blocksOf, List.length_map, List.length_range]
  omega

theorem length_cbcDec_le (C : List Byte) (sched : BitVec 1408) (iv : Block) :
    (cbcDec C sched iv).length ≤ C.length := by
  simp only [cbcDec, length_bytesOf, length_cbcDecBlocks, blocksOf, List.length_map, List.length_range]
  omega

@[simp] theorem length_pad7 (X : List Byte) : (pad7 X).length = X.length + padCount X.length := by simp [pad7]

theorem modulusBytes_le (s : State) : s.modulusBytes ≤ 256 := by
  have h := (bitlen_le_iff (bigVal s.rsaN) Config.bigBits).mpr s.rsaN.isLt
  simp only [State.modulusBytes, byteLen, Config.bigBits] at h ⊢
  omega

/-- A payload taken from a block fits below MBUF. -/
theorem length_of_unpad1 (s : State) {m : Nat} {P : List Byte} (h : unpad1 (i2osp m s.modulusBytes) = some P) :
    P.length ≤ 256 := by
  obtain ⟨PS, hEM, -⟩ := (unpad1_eq_some_iff _ P).mp h
  have hl := congrArg List.length hEM
  have hK := modulusBytes_le s
  simp [encodedMessage] at hl
  omega

/-- A command of which `t` is the state after kept every byte of MBUF from the `L`-th on. -/
def MessageTailKept (s t : State) (L : Nat) : Prop :=
  ∀ k : Nat, L ≤ k → t.readByte (mbufBase + k) = s.readByte (mbufBase + k)

theorem messageTailKept_of_mem_eq {s t : State} (hm : t.mem = s.mem) (he : t.epoch = s.epoch) (L : Nat) :
    MessageTailKept s t L := fun _ _ => memoryKept_of_mem_eq hm he _

theorem messageTailKept_of_write {s t : State} {base : Nat} {X : List Byte} {L : Nat} (hm : t.mem = s.mem.write base X)
    (he : t.epoch = s.epoch) (hL : base + X.length ≤ mbufBase + L) : MessageTailKept s t L :=
  fun k hk => memoryKeptOutside_of_write hm he (mbufBase + k) (.inr (by omega))

theorem lengthWord_toNat {n : Nat} (h : n ≤ 4096) : (lengthWord n).toNat = n := by
  simp only [lengthWord, BitVec.toNat_ofNat]
  omega

theorem padCount_fits {L : Nat} (h : badPaddedLength L = false) : L + padCount L ≤ 4096 := by
  simpa [badPaddedLength] using h

theorem pkcs7Pad_keeps_messageTail {s t : State} (h : execPkcs7Pad s = .next t) : MessageTailKept s t t.messageLength := by
  unfold execPkcs7Pad at h
  dsimp only at h
  split at h
  · cases h; exact messageTailKept_of_mem_eq rfl rfl _
  · next hL =>
    have hn := padCount_fits (by simpa using hL)
    cases h
    refine messageTailKept_of_write rfl rfl ?_
    have hl := lengthWord_toNat hn
    simp only [List.length_replicate, State.messageLength, complete_mlen] at hl ⊢
    omega

theorem pkcs7Unpad_keeps_messageTail {s t : State} (h : execPkcs7Unpad s = .next t) :
    MessageTailKept s t t.messageLength := by
  unfold execPkcs7Unpad at h
  split at h
  · cases h; exact messageTailKept_of_mem_eq rfl rfl _
  · split at h <;> (cases h; exact messageTailKept_of_mem_eq rfl rfl _)

theorem cbcEncRaw_keeps_messageTail {s t : State} (h : execCbcEncRaw s = .next t) :
    MessageTailKept s t t.messageLength := by
  unfold execCbcEncRaw at h
  split at h
  · cases h; exact messageTailKept_of_mem_eq rfl rfl _
  · cases h
    have hl := length_cbcEnc_le s.message (keyExpansion s.key) s.iv
    rw [length_message] at hl
    exact messageTailKept_of_write rfl rfl (Nat.add_le_add_left hl _)

theorem cbcDecRaw_keeps_messageTail {s t : State} (h : execCbcDecRaw s = .next t) :
    MessageTailKept s t t.messageLength := by
  unfold execCbcDecRaw at h
  split at h
  · cases h; exact messageTailKept_of_mem_eq rfl rfl _
  · cases h
    have hl := length_cbcDec_le s.message (keyExpansion s.key) s.iv
    rw [length_message] at hl
    exact messageTailKept_of_write rfl rfl (Nat.add_le_add_left hl _)

theorem cbcEnc_keeps_messageTail {s t : State} (h : execCbcEnc s = .next t) :
    MessageTailKept s t t.messageLength := by
  unfold execCbcEnc at h
  dsimp only at h
  split at h
  · cases h; exact messageTailKept_of_mem_eq rfl rfl _
  · next hL =>
    have hn := padCount_fits (by simpa using hL)
    cases h
    have hl := length_cbcEnc_le (pad7 s.message) (keyExpansion s.key) s.iv
    rw [length_pad7, length_message, ← lengthWord_toNat hn] at hl
    exact messageTailKept_of_write rfl rfl (Nat.add_le_add_left hl _)

/-- R190: CBC_DEC writes `MBUF[0..L)` with `L` the length before it. -/
theorem cbcDec_keeps_messageTail {s t : State} (h : execCbcDec s = .next t) :
    MessageTailKept s t s.messageLength := by
  unfold execCbcDec at h
  dsimp only at h
  split at h
  · cases h; exact messageTailKept_of_mem_eq rfl rfl _
  · split at h
    · cases h; exact messageTailKept_of_mem_eq rfl rfl _
    · cases h
      have hl := length_cbcDec_le s.message (keyExpansion s.key) s.iv
      rw [length_message] at hl
      exact messageTailKept_of_write rfl rfl (Nat.add_le_add_left hl _)

theorem pkcs1Unpad_keeps_message {s t : State} (h : execPkcs1Unpad s = .next t) (L : Nat) : MessageTailKept s t L := by
  unfold execPkcs1Unpad at h
  dsimp only at h
  split at h
  · cases h; exact messageTailKept_of_mem_eq rfl rfl _
  · split at h
    · cases h; exact messageTailKept_of_mem_eq rfl rfl _
    · next hP =>
      have hl := length_of_unpad1 s hP
      cases h
      exact messageTailKept_of_write rfl rfl (by simp only [pbufBase, mbufBase]; omega)

theorem rsaDec_keeps_message {s t : State} (h : execRsaDec s = .next t) (L : Nat) : MessageTailKept s t L := by
  unfold execRsaDec at h
  dsimp only at h
  split at h
  · cases h; exact messageTailKept_of_mem_eq rfl rfl _
  · split at h
    · cases h; exact messageTailKept_of_mem_eq rfl rfl _
    · split at h
      · cases h; exact messageTailKept_of_mem_eq rfl rfl _
      · next hP =>
        have hl := length_of_unpad1 s hP
        cases h
        exact messageTailKept_of_write rfl rfl (by simp only [pbufBase, mbufBase]; omega)

theorem rsaKeygen_keeps_message {s t : State} {n : Byte} (h : execRsaKeygen n s = .next t) (L : Nat) :
    MessageTailKept s t L := by
  unfold execRsaKeygen at h
  dsimp only at h
  split at h
  · cases h; exact messageTailKept_of_mem_eq rfl rfl _
  · split at h <;> (cases h; exact messageTailKept_of_mem_eq rfl rfl _)

theorem modinv_keeps_message {s t : State} (h : execModinv s = .next t) (L : Nat) : MessageTailKept s t L := by
  unfold execModinv at h
  split at h
  · cases h; exact messageTailKept_of_mem_eq rfl rfl _
  · split at h <;> (cases h; exact messageTailKept_of_mem_eq rfl rfl _)

/-- R36: no byte of MBUF at or above the length a command leaves in MLEN changes. CBC_DEC alone is bounded by the
length before it, as R190 says (log 26); SRESET leaves the bytes unspecified (R350). -/
theorem command_keeps_messageTail {i : Instr} {s t : State} (hi : i ≠ .sreset) (h : exec i s = .next t) :
    MessageTailKept s t (if i = .cbcDec then s.messageLength else t.messageLength) := by
  cases i
  case sreset => exact absurd rfl hi
  case pkcs7Pad => exact pkcs7Pad_keeps_messageTail h
  case pkcs7Unpad => exact pkcs7Unpad_keeps_messageTail h
  case cbcEncRaw => exact cbcEncRaw_keeps_messageTail h
  case cbcDecRaw => exact cbcDecRaw_keeps_messageTail h
  case cbcEnc => exact cbcEnc_keeps_messageTail h
  case cbcDec => exact cbcDec_keeps_messageTail h
  case pkcs1Unpad => exact pkcs1Unpad_keeps_message h _
  case rsaDec => exact rsaDec_keeps_message h _
  case rsaKeygen => exact rsaKeygen_keeps_message h _
  case modinv => exact modinv_keeps_message h _
  case aesAddroundkey r =>
    simp only [exec, execAesAddroundkey] at h
    split at h <;> (cases h; exact messageTailKept_of_mem_eq rfl rfl _)
  case mrTest n =>
    simp only [exec, execMrTest] at h
    split at h <;> (cases h; exact messageTailKept_of_mem_eq rfl rfl _)
  case modexp =>
    simp only [exec, execModexp] at h
    split at h <;> (cases h; exact messageTailKept_of_mem_eq rfl rfl _)
  case pkcs1Pad =>
    simp only [exec, execPkcs1Pad] at h
    split at h <;> (cases h; exact messageTailKept_of_mem_eq rfl rfl _)
  case rsaEnc =>
    simp only [exec, execRsaEnc] at h
    split at h <;> (cases h; exact messageTailKept_of_mem_eq rfl rfl _)
  all_goals
    simp only [exec, execNop, execAesKeyexp, execAesEncBlock, execAesDecBlock, execAesSubbytes, execAesInvSubbytes,
      execAesShiftrows, execAesInvShiftrows, execAesMixcolumns, execAesInvMixcolumns, execAesGfmul, execRngKey,
      execRngIv] at h
    cases h
    exact messageTailKept_of_mem_eq rfl rfl _

end Sys2Proof.Machine
end

