-- ==== Sys2Proof/Laws/PerInstr.lean ====
section
/-! SUPPORT. Statements about every command as syntax, one lemma per constructor. -/

namespace Sys2Proof.Laws.OpcodeIsListed

/-- The command's opcode is a row of the table of R94: under its mask for a command with an argument, exactly for
one without; and a command without an argument carries ARG = 0 (R91). -/
def Statement (i : Instr) : Prop :=
  (i.takesArg = true ∧ i.opcode.setWidth 32 ∈ argumentRows) ∨
  (i.takesArg = false ∧ i.opcode.setWidth 32 ∈ exactRows ∧ i.arg = 0#8)

theorem nop : Statement .nop := .inr ⟨rfl, by decide, rfl⟩

theorem sreset : Statement .sreset := .inr ⟨rfl, by decide, rfl⟩

theorem aesKeyexp : Statement .aesKeyexp := .inr ⟨rfl, by decide, rfl⟩

theorem aesEncBlock : Statement .aesEncBlock := .inr ⟨rfl, by decide, rfl⟩

theorem aesDecBlock : Statement .aesDecBlock := .inr ⟨rfl, by decide, rfl⟩

theorem aesSubbytes : Statement .aesSubbytes := .inr ⟨rfl, by decide, rfl⟩

theorem aesInvSubbytes : Statement .aesInvSubbytes := .inr ⟨rfl, by decide, rfl⟩

theorem aesShiftrows : Statement .aesShiftrows := .inr ⟨rfl, by decide, rfl⟩

theorem aesInvShiftrows : Statement .aesInvShiftrows := .inr ⟨rfl, by decide, rfl⟩

theorem aesMixcolumns : Statement .aesMixcolumns := .inr ⟨rfl, by decide, rfl⟩

theorem aesInvMixcolumns : Statement .aesInvMixcolumns := .inr ⟨rfl, by decide, rfl⟩

theorem aesAddroundkey (r : Byte) : Statement (.aesAddroundkey r) := .inl ⟨rfl, by simp [Instr.opcode, argumentRows]⟩

theorem aesGfmul (c : Byte) : Statement (.aesGfmul c) := .inl ⟨rfl, by simp [Instr.opcode, argumentRows]⟩

theorem rngKey : Statement .rngKey := .inr ⟨rfl, by decide, rfl⟩

theorem rngIv : Statement .rngIv := .inr ⟨rfl, by decide, rfl⟩

theorem pkcs7Pad : Statement .pkcs7Pad := .inr ⟨rfl, by decide, rfl⟩

theorem pkcs7Unpad : Statement .pkcs7Unpad := .inr ⟨rfl, by decide, rfl⟩

theorem cbcEncRaw : Statement .cbcEncRaw := .inr ⟨rfl, by decide, rfl⟩

theorem cbcDecRaw : Statement .cbcDecRaw := .inr ⟨rfl, by decide, rfl⟩

theorem cbcEnc : Statement .cbcEnc := .inr ⟨rfl, by decide, rfl⟩

theorem cbcDec : Statement .cbcDec := .inr ⟨rfl, by decide, rfl⟩

theorem mrTest (t : Byte) : Statement (.mrTest t) := .inl ⟨rfl, by simp [Instr.opcode, argumentRows]⟩

theorem rsaKeygen (t : Byte) : Statement (.rsaKeygen t) := .inl ⟨rfl, by simp [Instr.opcode, argumentRows]⟩

theorem modexp : Statement .modexp := .inr ⟨rfl, by decide, rfl⟩

theorem modinv : Statement .modinv := .inr ⟨rfl, by decide, rfl⟩

theorem pkcs1Pad : Statement .pkcs1Pad := .inr ⟨rfl, by decide, rfl⟩

theorem pkcs1Unpad : Statement .pkcs1Unpad := .inr ⟨rfl, by decide, rfl⟩

theorem rsaEnc : Statement .rsaEnc := .inr ⟨rfl, by decide, rfl⟩

theorem rsaDec : Statement .rsaDec := .inr ⟨rfl, by decide, rfl⟩

end Sys2Proof.Laws.OpcodeIsListed
end

