-- ==== Sys2Proof/Tests/Slice0.lean ====
section
/-! SUPPORT. Tests of the model against the vectors of 95_test_vectors.md and the encodings of 30_encoding.md, and
for each statement with hypotheses a witness that meets them, at the ends of the ranges it names. -/

namespace Sys2Proof.Tests

set_option Elab.async false

open Sys2Proof.Machine

/-! ## Helpers -/

/-- What `check` says of the state `i` leaves. -/
def after (i : Instr) (s : State) (check : State → Bool) : Bool :=
  match exec i s with
  | .next t => check t
  | .fault _ => false
  | .refused _ => false

/-- What `check` says of the state one step leaves. -/
def afterStep (s : State) (check : State → Bool) : Bool :=
  match step s with
  | .next t => check t
  | .fault _ => false
  | .refused _ => false

theorem exec_of_after {i : Instr} {s : State} {check : State → Bool} (h : after i s check = true) :
    ∃ t : State, exec i s = .next t ∧ check t = true := by
  unfold after at h
  cases hx : exec i s with
  | next t => exact ⟨t, rfl, by simpa [hx] using h⟩
  | fault r => exact r.casesOn
  | refused r => simp [hx] at h

/-- The 16 bytes whose hex notation is `v`, byte 0 first. -/
def hexBlock (v : Nat) : Block := blockOfString (i2osp v 16) 0

/-- A machine with a key, an IV and DATA. -/
def aesState (key iv data : Nat) : State :=
  { State.reset with key := hexBlock key, iv := hexBlock iv, data := hexBlock data }

/-- The key and the IV of section 2.4. -/
def key24 : Nat := 0x000102030405060708090a0b0c0d0e0f
def iv24 : Nat := 0x101112131415161718191a1b1c1d1e1f

/-- A machine with the `n` bytes written `v` in MBUF as the message. -/
def messageState (key n v : Nat) : State :=
  { State.writeBytes (aesState key iv24 0) mbufBase (i2osp v n) with mlen := BitVec.ofNat 32 n }

/-- A machine with MLEN alone set. -/
def lengthState (n : Nat) : State := { State.reset with mlen := BitVec.ofNat 32 n }

/-- A machine whose random source answers with `draws`. -/
def drawState (draws : List Nat) : State := { State.reset with rng := { queue := draws, count := 0 } }

/-- A machine with `A`, `B` and `M`. -/
def bigState (x y z : Nat) : State := { State.reset with a := bigOf x, b := bigOf y, m := bigOf z }

/-- The key of section 2.6, the `n` bytes written `v` in PBUF as the payload, and the draws of one padding. -/
def rsaState (n v : Nat) (draws : List Nat) : State :=
  { State.writeBytes (drawState draws) pbufBase (i2osp v n) with
    plen := BitVec.ofNat 32 n
    rsaN := bigOf 0x7fffffffffffffffffffffffffffffcd7fffffffffffffffffffffffffffedfd
    rsaE := bigOf 65537
    rsaD := bigOf 0x8abf75408abf75408abf75408abf75082cf7d3082cf7d3082cf7d3082cf7c01 }

/-- The draws of the main vector of section 2.6. -/
def keygenDraws : List Nat := [0, 2, 0x1d, 2, 3, 0x1d, 2, 3, 0xffffffffffffffffffffffffffffff61, 2, 3]

/-- A machine running the command word `cw`, with the inputs still to come. -/
def busyState (cw : Word) (inputs : List Input) : State := { State.reset.issue cw with inputs := inputs }

/-- An idle machine with the inputs still to come. -/
def idleState (inputs : List Input) : State := { State.reset with inputs := inputs }

/-- The message of a state as one number in the hex notation of the vectors. -/
def messageHex (t : State) : Nat := os2ip t.message

/-! ## Well-formedness (R91) -/

theorem test_wellFormed_refuses_round_11 : ¬ (Instr.aesAddroundkey 11#8).WellFormed := by decide
theorem test_wellFormed_accepts_round_10 : (Instr.aesAddroundkey 10#8).WellFormed := by decide
theorem test_wellFormed_refuses_mrTest_0 : ¬ (Instr.mrTest 0#8).WellFormed := by decide
theorem test_wellFormed_refuses_rsaKeygen_0 : ¬ (Instr.rsaKeygen 0#8).WellFormed := by decide
theorem test_wellFormed_accepts_255 : (Instr.mrTest 255#8).WellFormed ∧ (Instr.rsaKeygen 1#8).WellFormed := by decide

/-! ## Decoding: the words of R90 and R93, written out -/

theorem test_decode_control : decode 0x00000000#32 = .ok .nop ∧ decode 0x00000001#32 = .ok .sreset := by
  decide +kernel

theorem test_decode_aes_blocks :
    decode 0x00000010#32 = .ok .aesKeyexp ∧ decode 0x00000011#32 = .ok .aesEncBlock ∧
    decode 0x00000012#32 = .ok .aesDecBlock := by decide +kernel

theorem test_decode_aes_rounds :
    decode 0x00000013#32 = .ok .aesSubbytes ∧ decode 0x00000014#32 = .ok .aesInvSubbytes ∧
    decode 0x00000015#32 = .ok .aesShiftrows ∧ decode 0x00000016#32 = .ok .aesInvShiftrows ∧
    decode 0x00000017#32 = .ok .aesMixcolumns ∧ decode 0x00000018#32 = .ok .aesInvMixcolumns := by decide +kernel

theorem test_decode_argument_forms :
    decode 0x00000A19#32 = .ok (.aesAddroundkey 10#8) ∧ decode 0x00000B19#32 = .ok (.aesAddroundkey 11#8) ∧
    decode 0x0000FF1A#32 = .ok (.aesGfmul 0xFF#8) ∧ decode 0x00002830#32 = .ok (.mrTest 40#8) ∧
    decode 0x00000238#32 = .ok (.rsaKeygen 2#8) := by decide +kernel

theorem test_decode_cbc :
    decode 0x00000020#32 = .ok .rngKey ∧ decode 0x00000021#32 = .ok .rngIv ∧ decode 0x00000022#32 = .ok .pkcs7Pad ∧
    decode 0x00000023#32 = .ok .pkcs7Unpad ∧ decode 0x00000024#32 = .ok .cbcEncRaw ∧
    decode 0x00000025#32 = .ok .cbcDecRaw ∧ decode 0x00000026#32 = .ok .cbcEnc ∧
    decode 0x00000027#32 = .ok .cbcDec := by decide +kernel

theorem test_decode_big :
    decode 0x00000040#32 = .ok .modexp ∧ decode 0x00000041#32 = .ok .modinv ∧ decode 0x00000048#32 = .ok .pkcs1Pad ∧
    decode 0x00000049#32 = .ok .pkcs1Unpad ∧ decode 0x0000004A#32 = .ok .rsaEnc ∧
    decode 0x0000004B#32 = .ok .rsaDec := by decide +kernel

theorem test_decode_refuses :
    decode 0x00000111#32 = .error (.argumentNotTaken 0x11#8) ∧ decode 0x00010011#32 = .error .reservedField ∧
    decode 0x000000FF#32 = .error (.reservedOpcode 0xFF#8) ∧ decode 0x000000C0#32 = .error (.reservedOpcode 0xC0#8) ∧
    decode 0x00000002#32 = .error (.reservedOpcode 0x02#8) ∧ decode 0x80000026#32 = .error .reservedField := by
  decide +kernel

/-! ## Vectors: control (2.9) -/

theorem test_nop_status : after .nop .reset (fun t => t.statusWord == 0x00000002#32) = true := by decide +kernel

theorem test_sreset_status :
    after .sreset (aesState key24 iv24 1) (fun t => t.statusWord == 0x00000000#32 && t.key == 0#128) = true := by
  decide +kernel

theorem test_illegal_status :
    afterStep (busyState 0x00010011#32 []) (fun t => t.statusWord == 0x11011504#32) = true := by decide +kernel

/-! ## Vectors: AES (2.1 to 2.3) -/

theorem test_keyexp_appendix_a1 :
    after .aesKeyexp (aesState 0x2b7e151628aed2a6abf7158809cf4f3c 0 0) (fun t =>
      roundKey t.rk 1 == hexBlock 0xa0fafe1788542cb123a339392a6c7605 &&
      roundKey t.rk 10 == hexBlock 0xd014f9a8c9ee2589e13f0cc8b6630ca6) = true := by decide +kernel

theorem test_keyexp_zero_key :
    after .aesKeyexp (aesState 0 0 0)
      (fun t => roundKey t.rk 10 == hexBlock 0xb4ef5bcb3e92e21123e951cf6f8f188e) = true := by decide +kernel

theorem test_enc_block_appendix_c1 :
    after .aesEncBlock (aesState key24 0 0x00112233445566778899aabbccddeeff) (fun t =>
      t.data == hexBlock 0x69c4e0d86a7b0430d8cdb78070b4c55a && wordAt t.rk 40 == 0x7f1d1113#32) = true := by
  decide +kernel

theorem test_dec_block_appendix_c1 :
    after .aesDecBlock (aesState key24 0 0x69c4e0d86a7b0430d8cdb78070b4c55a)
      (fun t => t.data == hexBlock 0x00112233445566778899aabbccddeeff) = true := by decide +kernel

theorem test_subbytes :
    after .aesSubbytes (aesState 0 0 0x193de3bea0f4e22b9ac68d2ae9f84808)
      (fun t => t.data == hexBlock 0xd42711aee0bf98f1b8b45de51e415230) = true := by decide +kernel

theorem test_inv_subbytes :
    after .aesInvSubbytes (aesState 0 0 0x00112233445566778899aabbccddeeff)
      (fun t => t.data == hexBlock 0x52e3946686edd30297f962fe27c9997d) = true := by decide +kernel

theorem test_shiftrows :
    after .aesShiftrows (aesState 0 0 key24) (fun t => t.data == hexBlock 0x00050a0f04090e03080d02070c01060b) = true := by
  decide +kernel

theorem test_inv_shiftrows :
    after .aesInvShiftrows (aesState 0 0 key24)
      (fun t => t.data == hexBlock 0x000d0a0704010e0b0805020f0c090603) = true := by decide +kernel

theorem test_mixcolumns :
    after .aesMixcolumns (aesState 0 0 0xd4bf5d30e0b452aeb84111f11e2798e5)
      (fun t => t.data == hexBlock 0x046681e5e0cb199a48f8d37a2806264c) = true := by decide +kernel

theorem test_inv_mixcolumns :
    after .aesInvMixcolumns (aesState 0 0 key24)
      (fun t => t.data == hexBlock 0x0a0f080d0e0b0c090207000506030401) = true := by decide +kernel

theorem test_addroundkey_10 :
    after (.aesAddroundkey 10#8) (aesState key24 0 0x00112233445566778899aabbccddeeff)
      (fun t => t.data == hexBlock 0x13003f4ca7c12c607b9e0d3081f6de3a) = true := by decide +kernel

theorem test_addroundkey_11 :
    after (.aesAddroundkey 11#8) ((aesState key24 0 5).issue 0x00000B19#32)
      (fun t => t.statusWord == 0x19013604#32 && t.data == hexBlock 5) = true := by decide +kernel

theorem test_gfmul_2 :
    after (.aesGfmul 2#8) (aesState 0 0 0x00112233445566778899aabbccddeeff)
      (fun t => t.data == hexBlock 0x0022446688aaccee0b294f6d83a1c7e5) = true := by decide +kernel

theorem test_gf_values :
    gmul 0x57#8 0x83#8 = 0xc1#8 ∧ gmul 0xff#8 0xff#8 = 0x13#8 ∧ ginv 0x53#8 = 0xca#8 ∧ sbox 0x53#8 = 0xed#8 ∧
    invSbox 0x00#8 = 0x52#8 := by decide +kernel

/-! ## Vectors: random values, PKCS7, CBC (2.4) -/

theorem test_rng_key :
    after .rngKey (drawState (List.range 16 ++ [7]))
      (fun t => t.key == hexBlock key24 && t.rng == { queue := [7], count := 16 }) = true := by decide +kernel

theorem test_rng_iv :
    after .rngIv (drawState ((List.range 16).map (· + 16))) (fun t => t.iv == hexBlock iv24) = true := by decide +kernel

theorem test_pkcs7_pad_4095 :
    after .pkcs7Pad (lengthState 4095) (fun t => t.mlen == 4096#32 && t.readByte 0x10FFF == 0x01#8) = true := by
  decide +kernel

theorem test_pkcs7_pad_4096 :
    after .pkcs7Pad ((lengthState 4096).issue 0x22#32)
      (fun t => t.statusWord == 0x22014404#32 && t.mlen == 4096#32) = true := by decide +kernel

theorem test_pkcs7_unpad_three :
    after .pkcs7Unpad (messageState 0 16 0x00112233445566778899aabbcc030303) (fun t => t.mlen == 13#32) = true := by
  decide +kernel

theorem test_pkcs7_unpad_empty :
    after .pkcs7Unpad (State.reset.issue 0x23#32) (fun t => t.statusWord == 0x23034104#32) = true := by decide +kernel

theorem test_cbc_enc_raw_zero_block :
    after .cbcEncRaw (messageState key24 16 0) (fun t => messageHex t == 0x07feef74e1d5036e900eee118e949293) = true := by
  decide +kernel

theorem test_cbc_enc_raw_length_11 :
    after .cbcEncRaw ((lengthState 11).issue 0x24#32) (fun t => t.statusWord == 0x24014404#32) = true := by
  decide +kernel

theorem test_cbc_dec_raw :
    after .cbcDecRaw (messageState key24 16 0xdc3c4af31e3d7c40b10c7c3879ecdaa3)
      (fun t => messageHex t == 0x48454c4c4f20574f524c440505050505 && t.mlen == 16#32) = true := by decide +kernel

theorem test_cbc_enc_two_blocks :
    after .cbcEnc (messageState key24 17 0x000102030405060708090a0b0c0d0e0f10) (fun t =>
      messageHex t == 0x954f64f2e4e86e9eee82d20216684899289bc018a0bc2dbb0618e9ef036c0fb8 &&
      t.mlen == 32#32) = true := by decide +kernel

theorem test_cbc_enc_hello_world :
    after .cbcEnc (messageState key24 11 0x48454c4c4f20574f524c44)
      (fun t => messageHex t == 0xdc3c4af31e3d7c40b10c7c3879ecdaa3) = true := by decide +kernel

theorem test_cbc_dec_hello_world :
    after .cbcDec (messageState key24 16 0xdc3c4af31e3d7c40b10c7c3879ecdaa3)
      (fun t => messageHex t == 0x48454c4c4f20574f524c44 && t.readByte 0x1000F == 0x05#8) = true := by decide +kernel

theorem test_cbc_dec_bad_padding :
    after .cbcDec ((messageState key24 16 0xdc3c4af31e3d7c40b10c7c3879ecdaa2).issue 0x27#32) (fun t =>
      t.statusWord == 0x27034104#32 && messageHex t == 0xdc3c4af31e3d7c40b10c7c3879ecdaa2) = true := by decide +kernel

/-! ## Vectors: primality, key generation, big integers (2.5 to 2.7) -/

theorem test_mr_liar_of_221 :
    after (.mrTest 1#8) { bigState 221 0 0 with rng := { queue := [174], count := 0 } }
      (fun t => t.status.result) = true := by decide +kernel

theorem test_mr_stops_at_first_witness :
    after (.mrTest 2#8) { bigState 221 0 0 with rng := { queue := [137, 9], count := 0 } }
      (fun t => !t.status.result && t.rng == { queue := [9], count := 1 }) = true := by decide +kernel

theorem test_keygen_main_vector :
    after (.rsaKeygen 2#8) { drawState keygenDraws with kgBits := 256#32 } (fun t =>
      bigVal t.rsaN == 0x7fffffffffffffffffffffffffffffcd7fffffffffffffffffffffffffffedfd &&
      bigVal t.rsaD == 0x8abf75408abf75408abf75408abf75082cf7d3082cf7d3082cf7d3082cf7c01 &&
      t.rng == { queue := [], count := 11 }) = true := by decide +kernel

theorem test_keygen_exhausted :
    after (.rsaKeygen 2#8)
      (State.issue { drawState keygenDraws with kgBits := 256#32, kgMaxCandidates := 3 } 0x00000238#32)
      (fun t => t.statusWord == 0x38026304#32 && t.rng.count == 8 && bigVal t.rsaN == 0) = true := by decide +kernel

theorem test_modexp_multi_word :
    after .modexp (bigState (2 ^ 64 + 3) (2 ^ 64 + 1) (2 ^ 61 - 1))
      (fun t => bigVal t.r == 505447028499293771) = true := by decide +kernel

theorem test_modexp_modulus_one : after .modexp (bigState 5 0 1) (fun t => bigVal t.r == 0) = true := by decide +kernel

theorem test_modinv_negative_coefficient :
    after .modinv (bigState 7 0 40) (fun t => bigVal t.r == 23) = true := by decide +kernel

theorem test_modinv_no_inverse :
    after .modinv ((bigState 6 0 9).issue 0x41#32) (fun t => t.statusWord == 0x41027204#32) = true := by decide +kernel

/-! ## Vectors: PKCS#1 and RSA (2.8) -/

theorem test_pkcs1_pad :
    after .pkcs1Pad (rsaState 16 key24 ((List.range 13).map (· + 1))) (fun t =>
      bigVal t.rsaMb == 0x20102030405060708090a0b0c0d00000102030405060708090a0b0c0d0e0f &&
      t.rng.count == 13) = true := by decide +kernel

theorem test_pkcs1_pad_22_bytes :
    after .pkcs1Pad ((rsaState 22 0 []).issue 0x48#32) (fun t => t.statusWord == 0x48018404#32) = true := by
  decide +kernel

theorem test_pkcs1_unpad_empty_padding :
    after .pkcs1Unpad { rsaState 0 0 [] with rsaMb := bigOf (2 * 256 ^ 30 + os2ip (List.replicate 29 7#8)) }
      (fun t => t.plen == 29#32 && t.readByte 0x341C == 7#8) = true := by decide +kernel

theorem test_pkcs1_unpad_wide_value :
    after .pkcs1Unpad ({ rsaState 0 0 [] with rsaMb := bigOf (2 ^ 256) }.issue 0x49#32)
      (fun t => t.statusWord == 0x49038104#32) = true := by decide +kernel

theorem test_rsa_enc :
    after .rsaEnc (rsaState 16 key24 ((List.range 13).map (· + 1)))
      (fun t => bigVal t.rsaC == 0x685fe26e7e45ce52c1d3a623d77cd363233e3baf16e089d1f2d46057ba65a223) = true := by
  decide +kernel

theorem test_rsa_dec :
    after .rsaDec
      { rsaState 0 0 [] with rsaC := bigOf 0x685fe26e7e45ce52c1d3a623d77cd363233e3baf16e089d1f2d46057ba65a223 }
      (fun t => os2ip t.payload == key24 && t.plen == 16#32) = true := by decide +kernel

theorem test_rsa_dec_modulus_zero :
    after .rsaDec (State.reset.issue 0x4B#32) (fun t => t.statusWord == 0x4b018604#32) = true := by decide +kernel

/-! ## Host program forms (R98) -/

/-- What `check` says of what a host program ends with and of the state it leaves. -/
def afterProgram {α : Type} (p : HostProgram α) (s : State) (check : α → State → Bool) : Bool :=
  match p.run s with
  | .next (t, x) => check x t
  | .fault _ => false
  | .refused _ => false

/-- `WRS` then `RDS` of 11 bytes, and MBUF[11] = 0 behind them (P2). -/
theorem test_form_wrs_rds :
    afterProgram ((formWrs 0x10000 (i2osp 0x48454c4c4f20574f524c44 11)).andThen fun _ => formRds 0x10000 11) .reset
      (fun X t => X == i2osp 0x48454c4c4f20574f524c44 11 && t.readByte 0x1000B == 0x00#8) = true := by decide +kernel

/-- `WRV` then `RDV` (2.9). -/
theorem test_form_wrv_rdv :
    afterProgram ((formWrv 0x01000 0x0102030405).andThen fun _ => formRdv 0x01000) .reset
      (fun v _ => v == 0x0102030405) = true := by decide +kernel

/-- `RUN MODINV` with two polls in the BUSY window ends with STATUS = 0x41000002 (P3). -/
theorem test_form_run :
    afterProgram (formRun .modinv 2) (bigState 17 0 780) (fun v t => v == 0x41000002#32 && bigVal t.r == 413) = true := by
  decide +kernel

/-! ## Witnesses: command words and the command frame

Each theorem shows states and operands that meet the hypotheses of the statement it is named after, and where the
statement has clauses, what the model answers at the ends of each clause's range. -/

theorem witness_EncodeOfDecodeIsIdentity :
    decode 0x0000FF19#32 = .ok (.aesAddroundkey 255#8) ∧ encode (.aesAddroundkey 255#8) = 0x0000FF19#32 := by
  decide +kernel

theorem witness_LegalWordsMatchTableRows :
    decode 0x00000001#32 = .ok .sreset ∧ matchesRow 0x00000001#32 = true ∧ matchesRow 0x00000101#32 = false := by
  decide +kernel

theorem witness_StepRunsTheDecodedCommand :
    (busyState 0x00000011#32 []).phase = .busy 0x00000011#32 ∧ decode 0x00000011#32 = .ok .aesEncBlock ∧
    (busyState 0x00000011#32 []).inputs = [] ∧
    (busyState 0x00000011#32 [.engine, .engine]).inputs = .engine :: [.engine] ∧
    decodeTableWord 32 0x11 = some .aesEncBlock := by decide +kernel

theorem witness_CmdWriteIssuesTheCommand :
    (idleState [.write 0x0000C#17 0x00000011#32]).phase = .idle ∧ (busyState 0x10#32 []).phase = .busy 0x10#32 ∧
    afterStep (idleState [.write 0x0000C#17 0x00000011#32])
      (fun t => t.phase == .busy 0x11#32 && t.statusWord == 0x11000001#32) = true ∧
    afterStep (idleState [.write 0x0000F#17 0xFFFFFFFF#32])
      (fun t => t.phase == .busy 0xFFFFFFFF#32 && t.statusWord == 0xFF000001#32) = true ∧
    afterStep (busyState 0x10#32 [.write 0x0000C#17 0x00000011#32]) (fun t => t.phase == .busy 0x10#32) = true ∧
    afterStep (idleState [.write 0x0000B#17 0x00000011#32]) (fun t => t.phase == .idle) = true ∧
    afterStep (idleState [.write 0x00010#17 0x00000011#32]) (fun t => t.phase == .idle) = true := by decide +kernel

theorem witness_IllegalWordCompletesWithItsError :
    decode 0x00000100#32 = .error (.argumentNotTaken 0x00#8) ∧
    (idleState [.write 0x0000C#17 0x00000100#32, .engine]).phase = .idle ∧
    afterStep (idleState [.write 0x0000C#17 0x00000100#32, .engine])
      (fun u => afterStep u (fun t => t.statusWord == 0x00011504#32)) = true := by decide +kernel

theorem witness_EveryStepAnswersNext :
    (busyState 0x00000038#32 []).phase = .busy 0x00000038#32 ∧ (busyState 0x00000038#32 []).inputs = [] ∧
    (busyState 0x00000038#32 [.engine]).inputs = [.engine] ∧
    afterStep (busyState 0x00000038#32 [.engine]) (fun t => t.phase == .idle) = true := by decide +kernel

/-- Each command that may change a register does, from some state (AES, CBC and key generation: the tests above). -/
theorem witness_EngineWritesOnlyItsRegisters :
    after .nop .reset (fun t => t.inputs == []) = true ∧
    after .rngKey (drawState (List.range 16)) (fun t => t.key != 0#128 && t.rng.count == 16) = true ∧
    after .rngIv (drawState (List.range 16)) (fun t => t.iv != 0#128) = true ∧
    after .modexp (bigState 4 13 497) (fun t => bigVal t.r == 445) = true ∧
    after .modinv (bigState 3 0 11) (fun t => bigVal t.r == 4) = true ∧
    after .pkcs7Pad .reset (fun t => t.mlen == 16#32 && t.mem.length == 16) = true ∧
    after (.aesAddroundkey 0#8) (aesState key24 0 0) (fun t => t.data == hexBlock key24) = true := by decide +kernel

theorem witness_BytesBeyondTheLengthsAreNeverRead :
    (messageState 0 1 0xAA).messageLength = 1 ∧ (messageState 0 1 0xAA).payloadLength = 0 ∧
    State.readByte { messageState 0 1 0xAA with mem := [(0x10000, 0xAA#8), (0x10001, 0xBB#8)] } (mbufBase + 0) =
      (messageState 0 1 0xAA).readByte (mbufBase + 0) := by decide +kernel

/-- In that statement: the byte beyond MLEN keeps each run's own value, the padding written over it ends alike. -/
theorem witness_BytesBeyondTheLengthsAreNeverRead_bytes :
    after .nop { messageState 0 1 0xAA with mem := [(0x10000, 0xAA#8), (0x10001, 0xBB#8)] }
      (fun t => t.readByte 0x10000 == 0xAA#8 && t.readByte 0x10001 == 0xBB#8) = true ∧
    after .pkcs7Pad { messageState 0 1 0xAA with mem := [(0x10000, 0xAA#8), (0x10001, 0xBB#8)] }
      (fun t => t.readByte 0x10001 == 0x0F#8 && t.messageLength == 16) = true := by decide +kernel

/-! ## Witnesses: the bus -/

/-- The word a read of `off` returns from `s`. -/
def readWord (s : State) (off : Nat) : Option Word :=
  match step { s with inputs := [.read (BitVec.ofNat 17 off)] } with
  | .next t => t.readData
  | .fault _ => none
  | .refused _ => none

/-- What a read of `off'` returns after a write of `v` at `off`. -/
def writeRead (s : State) (off : Nat) (v : Word) (off' : Nat) : Option Word :=
  match step { s with inputs := [.write (BitVec.ofNat 17 off) v] } with
  | .next t => readWord t off'
  | .fault _ => none
  | .refused _ => none

/-- An idle machine with different values in the registers the host reads. -/
def filledState : State :=
  { rsaState 16 key24 [] with
    irqEn := true
    status := { Status.reset with done := true, result := true, lastop := 0x30#8 }
    mlen := 0x11111111#32
    kgBits := 0x33333333#32
    key := hexBlock key24
    iv := hexBlock iv24
    data := hexBlock 0x00112233445566778899aabbccddeeff
    rk := 0x03020100#1408 ||| (0xc5302b4d#1408 <<< 1376)
    a := bigOf 0x0102030405
    rsaMb := bigOf (2 ^ 2047 + 7) }

theorem witness_BusyWindowAccesses :
    (busyState 0x11#32 [.write 0x00004#17 1#32]).phase = .busy 0x11#32 ∧
    afterStep (busyState 0x11#32 [.write 0x00004#17 1#32]) (fun t => t.irqEn) = true ∧
    afterStep (busyState 0x11#32 [.write 0x00007#17 3#32]) (fun t => t.irqEn) = true ∧
    afterStep (busyState 0x11#32 [.write 0x00003#17 1#32]) (fun t => !t.irqEn) = true ∧
    afterStep (busyState 0x11#32 [.write 0x00008#17 1#32]) (fun t => !t.irqEn && t.phase.isBusy) = true ∧
    readWord (busyState 0x11#32 []) 0x00000 = some 0x48594231#32 ∧
    readWord (busyState 0x11#32 []) 0x00003 = some 0x48594231#32 ∧
    readWord (busyState 0x11#32 []) 0x00004 = some 0#32 ∧ readWord (busyState 0x11#32 []) 0x00007 = some 0#32 ∧
    readWord (busyState 0x11#32 []) 0x00008 = some 0x11000001#32 ∧
    readWord (busyState 0x11#32 []) 0x0000B = some 0x11000001#32 := by decide +kernel

theorem witness_BusyWindowAccesses_unspecified (v : Word) :
    readWord { busyState 0x11#32 [] with mlen := v } 0x00010 = some (Config.busyReadValue 0) := rfl

theorem witness_ReservedOffset_ends :
    ∀ o ∈ [0x0001C, 0x0001F, 0x00050, 0x000FF, 0x001B0, 0x00FFF, 0x01100, 0x013FF, 0x03500, 0x037FF, 0x03800, 0x0FFFF,
      0x11000, 0x1FFFF], ReservedOffset o := by unfold ReservedOffset; decide

theorem witness_ReservedOffset_neighbours :
    ∀ o ∈ [0x0001B, 0x00020, 0x0004F, 0x00100, 0x001AF, 0x01000, 0x010FF, 0x01400, 0x030FF, 0x03400, 0x034FF, 0x10000,
      0x10FFF], ¬ ReservedOffset o := by unfold ReservedOffset; decide

theorem witness_ReservedOffsetsReadZeroAndIgnoreWrites :
    filledState.phase = .idle ∧
    (∀ o ∈ [0x0000C, 0x0000F, 0x0001C, 0x0001F, 0x00050, 0x000FF, 0x001B0, 0x00FFF, 0x01100, 0x013FF, 0x03500, 0x037FF,
      0x03800, 0x0FFFF, 0x11000, 0x1FFFF], readWord filledState o = some 0#32) ∧
    writeRead filledState 0x00000 0#32 0x00000 = some 0x48594231#32 ∧
    writeRead filledState 0x00003 0#32 0x00000 = some 0x48594231#32 ∧
    writeRead filledState 0x00008 0xFFFFFFFF#32 0x00008 = some 0x3000000A#32 ∧
    writeRead filledState 0x0000B 0xFFFFFFFF#32 0x00008 = some 0x3000000A#32 ∧
    writeRead filledState 0x00100 0x12345678#32 0x00100 = some 0x03020100#32 ∧
    writeRead filledState 0x001AF 0x12345678#32 0x001AC = some 0xc5302b4d#32 := by decide +kernel

theorem witness_LowAddressBitsAreIgnored :
    (0x00021#17).toNat / 4 = (0x00020#17).toNat / 4 ∧ (0x1FFFF#17).toNat / 4 = (0x1FFFC#17).toNat / 4 ∧
    writeRead .reset 0x00021 0x03020100#32 0x00023 = some 0x03020100#32 := by decide +kernel

theorem witness_WrittenWordsReadBack :
    (∀ o ∈ [0x00010, 0x0001B, 0x00020, 0x0004F, 0x01000, 0x010FF, 0x03400, 0x034FF, 0x10000, 0x10FFF],
      writeRead filledState o 0x89ABCDEF#32 o = some 0x89ABCDEF#32) ∧
    writeRead filledState 0x00020 0x89ABCDEF#32 0x00024 = some 0x07060504#32 ∧
    writeRead filledState 0x03400 0x89ABCDEF#32 0x03404 = some 0x07060504#32 := by decide +kernel

theorem witness_HostReadsLittleEndianLanes :
    filledState.phase = .idle ∧
    readWord filledState 0x00020 = some 0x03020100#32 ∧ readWord filledState 0x0002C = some 0x0f0e0d0c#32 ∧
    readWord filledState 0x0003C = some 0x1f1e1d1c#32 ∧ readWord filledState 0x0004C = some 0xffeeddcc#32 ∧
    readWord filledState 0x00100 = some 0x03020100#32 ∧ readWord filledState 0x001AC = some 0xc5302b4d#32 ∧
    readWord filledState 0x0340C = some 0x0f0e0d0c#32 ∧
    readWord (messageState 0 4 0x01020304) 0x10000 = some 0x04030201#32 ∧
    readWord filledState 0x01000 = some 0x02030405#32 ∧ readWord filledState 0x01004 = some 0x00000001#32 ∧
    readWord filledState 0x02000 = some 0xffffedfd#32 ∧ readWord filledState 0x0201C = some 0x7fffffff#32 ∧
    readWord filledState 0x03000 = some 7#32 ∧ readWord filledState 0x030FC = some 0x80000000#32 := by decide +kernel

theorem witness_ControlRegistersReadAndWrite :
    filledState.phase = .idle ∧ readWord filledState 0x00000 = some 0x48594231#32 ∧
    readWord filledState 0x00004 = some 1#32 ∧ readWord filledState 0x00008 = some 0x3000000A#32 ∧
    readWord filledState 0x00010 = some 0x11111111#32 ∧ readWord filledState 0x00014 = some 16#32 ∧
    readWord filledState 0x00018 = some 0x33333333#32 ∧
    writeRead .reset 0x00004 0xFFFFFFFF#32 0x00004 = some 1#32 ∧ writeRead .reset 0x00010 5#32 0x00010 = some 5#32 ∧
    writeRead .reset 0x00014 6#32 0x00014 = some 6#32 ∧ writeRead .reset 0x00018 7#32 0x00018 = some 7#32 := by
  decide +kernel

theorem witness_AccessesHaveNoOtherSideEffect :
    (idleState [.read 0x00008#17]).phase = .idle ∧ (idleState [.read 0x00008#17]).inputs = [.read 0x00008#17] ∧
    (idleState [.write 0x00020#17 1#32, .write 0x00020#17 1#32]).inputs =
      [.write 0x00020#17 1#32, .write 0x00020#17 1#32] ∧
    (∀ o ∈ [0x0000B, 0x00010, 0x00020, 0x0002F], ¬ (0x0000C ≤ o ∧ o < 0x00010)) := by decide +kernel

theorem witness_IrqFollowsControlAndStatus :
    after .nop { State.reset with irqEn := true } (fun t => t.irq) = true ∧
    after .sreset { State.reset with irqEn := true } (fun t => !t.irq) = true ∧
    afterStep { filledState with inputs := [.write 0x00004#17 0#32] } (fun t => !t.irq) = true ∧
    afterStep { filledState with irqEn := false, inputs := [.write 0x00007#17 1#32] } (fun t => t.irq) = true := by
  decide +kernel

/-! ## Witnesses: reset and the invariant -/

theorem witness_ResetHoldsTheSpecifiedValues :
    after .sreset filledState (fun t => t.mlen == 0#32 && t.statusWord == 0#32 && bigVal t.rsaMb == 0) = true ∧
    filledState.phase = .idle ∧
    afterStep { filledState with inputs := [.hardwareReset 0] } (fun t => t.mlen == 0#32 && t.ctrlWord == 0#32) =
      true := by decide +kernel

theorem witness_HardwareResetAbandonsTheCommand_idle :
    (idleState [.hardwareReset 3]).phase = .idle ∧ (idleState [.hardwareReset 3]).inputs = [.hardwareReset 3] ∧
    afterStep { filledState with rng := { queue := [9], count := 4 }, inputs := [.hardwareReset 3] }
      (fun t => t.rng == { queue := [9], count := 4 } && t.key == 0#128) = true := by decide +kernel

theorem witness_HardwareResetAbandonsTheCommand_busy :
    decode 0x00000002#32 = .error (.reservedOpcode 0x02#8) ∧ decode 0x00000020#32 = .ok .rngKey ∧
    after .rngKey (busyState 0x20#32 [.hardwareReset 3]) (fun t => t.rng.count == 16) = true ∧
    afterStep (busyState 0x02#32 [.hardwareReset 3]) (fun t => t.rng.count == 0 && t.phase == .idle) = true ∧
    afterStep (busyState 0x20#32 [.hardwareReset 3]) (fun t => t.rng.count == 3 && t.key == 0#128) = true ∧
    afterStep (busyState 0x20#32 [.hardwareReset 17]) (fun t => t.rng.count == 16) = true := by decide +kernel

theorem witness_StepKeepsTheInvariant : State.reset.Inv ∧ step .reset = .next .reset := by
  refine ⟨?_, rfl⟩
  constructor <;> simp [State.reset, Status.reset, Phase.isBusy]

/-! ## Witnesses: AES -/

/-- The schedule at the ends of its recurrence (2.2): words 0, 3, 4, 5, 40 and 43. -/
theorem witness_KeyexpWritesTheSchedule :
    after .aesKeyexp (aesState key24 0 0) (fun t =>
      wordAt t.rk 0 == 0x03020100#32 && wordAt t.rk 3 == 0x0f0e0d0c#32 && wordAt t.rk 4 == 0xfd74aad6#32 &&
      wordAt t.rk 5 == 0xfa72afd2#32 && wordAt t.rk 40 == 0x7f1d1113#32 && wordAt t.rk 43 == 0xc5302b4d#32) = true := by
  decide +kernel

theorem witness_ScheduleFunctionsOnBytes :
    byteAt (rcon 1) 0 = 0x01#8 ∧ byteAt (rcon 9) 0 = 0x1B#8 ∧ byteAt (rcon 10) 0 = 0x36#8 ∧
    byteAt (rcon 10) 3 = 0x00#8 := by decide +kernel

theorem witness_SboxIsTheAffineMapOfTheInverse : (0x53#8 : Byte) ≠ 0x00#8 ∧ gmul 0x53#8 0xCA#8 = 0x01#8 := by
  decide +kernel

/-- The column `db135345` (2.3), as the last column of DATA. -/
theorem witness_ColumnMixCommands :
    byteAt (hexBlock 0xdb135345) (0 + 4 * 3) = 0xdb#8 ∧ byteAt (hexBlock 0xdb135345) (3 + 4 * 3) = 0x45#8 ∧
    after .aesMixcolumns (aesState 0 0 0xdb135345) (fun t => t.data == hexBlock 0x8e4da1bc) = true ∧
    after .aesInvMixcolumns (aesState 0 0 0x8e4da1bc) (fun t => t.data == hexBlock 0xdb135345) = true := by
  decide +kernel

theorem witness_GfmulCommand :
    after (.aesGfmul 0#8) (aesState 0 0 key24) (fun t => t.data == 0#128) = true ∧
    after (.aesGfmul 1#8) (aesState 0 0 key24) (fun t => t.data == hexBlock key24) = true := by decide +kernel

theorem witness_AddroundkeyCommand :
    (10#8 : Byte).toNat ≤ 10 ∧ 11 ≤ (11#8 : Byte).toNat ∧ 11 ≤ (255#8 : Byte).toNat ∧
    after (.aesAddroundkey 0#8) (aesState key24 0 0x00112233445566778899aabbccddeeff)
      (fun t => t.data == hexBlock 0x00102030405060708090a0b0c0d0e0f0) = true ∧
    after (.aesAddroundkey 255#8) (aesState key24 0 0) (fun t => t.status.err) = true := by decide +kernel

theorem witness_InverseTransformationCommandsRestoreData :
    (Instr.aesMixcolumns, Instr.aesInvMixcolumns) ∈ [(Instr.aesMixcolumns, Instr.aesInvMixcolumns)] ∧
    ∃ r : Byte, r.toNat ≤ 10 ∧ Instr.aesAddroundkey 10#8 = .aesAddroundkey r := ⟨by decide, 10#8, by decide, rfl⟩

/-! ## Witnesses: random values, PKCS7, CBC -/

theorem witness_DrawsAreAnsweredInRange :
    Rng.range { queue := [7, 8], count := 0 } 7 7 = (7, { queue := [8], count := 1 }) ∧
    Rng.range { queue := [2], count := 0 } 2 9 = (2, { queue := [], count := 1 }) ∧
    Rng.range { queue := [9], count := 0 } 2 9 = (9, { queue := [], count := 1 }) := by decide +kernel

theorem witness_RngCommandsTakeSixteenDraws :
    ((List.range 16).map (BitVec.ofNat 8)).length = 16 ∧
    (drawState (List.range 16 ++ [7])).rng.queue =
      ((List.range 16).map (BitVec.ofNat 8)).map BitVec.toNat ++ [7] := by decide +kernel

theorem witness_Pkcs7PadCommand :
    after .pkcs7Pad .reset (fun t => t.mlen == 16#32 && t.readByte 0x10000 == 0x10#8 && t.readByte 0x1000F == 0x10#8) =
      true ∧
    after .pkcs7Pad (lengthState 4080) (fun t => t.mlen == 4096#32 && t.readByte 0x10FFF == 0x10#8) = true ∧
    after .pkcs7Pad (lengthState 4097) (fun t => t.status.err) = true ∧
    after .pkcs7Pad (lengthState 0xFFFFFFFF) (fun t => t.status.err) = true := by decide +kernel

theorem witness_Pkcs7UnpadCommand_padded :
    EndsInPadding (messageState 0 16 (os2ip (List.replicate 16 0x10#8))).message 16 ∧
    EndsInPadding (messageState 0 16 0x01).message 1 := by
  unfold EndsInPadding; decide +kernel

theorem no_padding_of_last {X : List Byte} {x : Byte} (hx : X.getD (X.length - 1) 0#8 = x)
    (hb : x.toNat = 0 ∨ 16 < x.toNat) : ∀ n : Nat, ¬ EndsInPadding X n := by
  rintro n ⟨h1, h16, hlen, hall⟩
  have := hall (X.length - 1) (by omega) (by omega)
  rw [hx] at this
  omega

theorem witness_Pkcs7UnpadCommand_unpadded :
    (∀ n : Nat, ¬ EndsInPadding (messageState 0 16 0x00).message n) ∧
    (∀ n : Nat, ¬ EndsInPadding (messageState 0 16 0x11).message n) :=
  ⟨no_padding_of_last (x := 0x00#8) (by decide +kernel) (by decide),
    no_padding_of_last (x := 0x11#8) (by decide +kernel) (by decide)⟩

theorem witness_Pkcs7UnpadCommand_lengths :
    after .pkcs7Unpad (lengthState 20) (fun t => t.status.errcode == .invalidInputLength) = true ∧
    after .pkcs7Unpad (lengthState 4112) (fun t => t.status.errcode == .invalidInputLength) = true ∧
    after .pkcs7Unpad (lengthState 0) (fun t => t.status.errcode == .paddingError) = true ∧
    after .pkcs7Unpad (messageState 0 16 (os2ip (List.replicate 16 0x10#8))) (fun t => t.mlen == 0#32) = true := by
  decide +kernel

theorem witness_CbcRawChains :
    after .cbcEncRaw (lengthState 0) (fun t => t.status.done && t.mem == []) = true ∧
    after .cbcEncRaw (lengthState 4112) (fun t => t.status.err) = true ∧
    after .cbcDecRaw (lengthState 4112) (fun t => t.status.err) = true ∧
    after .cbcDecRaw (lengthState 11) (fun t => t.status.err) = true ∧ (lengthState 4096).mlen.toNat = 4096 ∧
    16 * 255 < (lengthState 4096).mlen.toNat := by decide +kernel

/-- CBC_ENC at the ends of its lengths: 0 and 4095 fit, 4096 does not. -/
theorem witness_CbcEncIsPadThenRaw :
    after .cbcEnc (messageState key24 0 0)
      (fun t => messageHex t == 0x0a940bb5416ef045f1c39458c653ea5a && t.mlen == 16#32) = true ∧
    (lengthState 4095).mlen.toNat + (16 - (lengthState 4095).mlen.toNat % 16) ≤ 4096 ∧
    after .cbcEnc (lengthState 4096) (fun t => t.status.err) = true := by decide +kernel

theorem witness_CbcDecIsRawThenUnpad :
    (∃ u : State, exec .cbcDecRaw (messageState key24 16 0xdc3c4af31e3d7c40b10c7c3879ecdaa3) = .next u ∧
      EndsInPadding u.message 5) ∧
    (∃ u : State, exec .cbcDecRaw (messageState key24 16 0xdc3c4af31e3d7c40b10c7c3879ecdaa2) = .next u ∧
      ∀ n : Nat, ¬ EndsInPadding u.message n) := by
  constructor
  · obtain ⟨u, hu, hc⟩ := exec_of_after (i := .cbcDecRaw)
      (s := messageState key24 16 0xdc3c4af31e3d7c40b10c7c3879ecdaa3)
      (check := fun u => decide (u.message = i2osp 0x48454c4c4f20574f524c440505050505 16)) (by decide +kernel)
    refine ⟨u, hu, ?_⟩
    rw [of_decide_eq_true hc]
    unfold EndsInPadding; decide +kernel
  · obtain ⟨u, hu, hc⟩ := exec_of_after (i := .cbcDecRaw)
      (s := messageState key24 16 0xdc3c4af31e3d7c40b10c7c3879ecdaa2)
      (check := fun u => decide (u.message = i2osp 0xabccce4d7cf184a06e6f18e0cf236724 16)) (by decide +kernel)
    refine ⟨u, hu, ?_⟩
    rw [of_decide_eq_true hc]
    exact no_padding_of_last (x := 0x24#8) (by decide +kernel) (by decide)

theorem witness_CbcDec_lengths :
    after .cbcDec (lengthState 20) (fun t => t.status.errcode == .invalidInputLength) = true ∧
    after .cbcDec (lengthState 4112) (fun t => t.status.errcode == .invalidInputLength) = true ∧
    after .cbcDec (lengthState 0) (fun t => t.status.errcode == .paddingError) = true := by decide +kernel

theorem witness_CbcDecRestoresTheMessage :
    (lengthState 0).mlen.toNat + (16 - (lengthState 0).mlen.toNat % 16) ≤ 4096 ∧
    (lengthState 4095).mlen.toNat + (16 - (lengthState 4095).mlen.toNat % 16) ≤ 4096 := by decide +kernel

/-! ## Witnesses: primality and key generation -/

/-- MR_TEST at the ends of its clauses: 0, 1, 2, 3, 4, 5 and 9 (2.5). -/
theorem witness_MrTestCommand :
    after (.mrTest 0#8) (bigState 5 0 0) (fun t => t.status.err) = true ∧
    (∀ n ∈ [0, 1, 4, 100], after (.mrTest 1#8) (bigState n 0 0) (fun t => t.status.done && !t.status.result) = true) ∧
    (∀ n ∈ [2, 3], after (.mrTest 255#8) (bigState n 0 0) (fun t => t.status.result && t.rng.count == 0) = true) ∧
    after (.mrTest 2#8) { bigState 5 0 0 with rng := { queue := [2, 3, 8], count := 0 } }
      (fun t => t.status.result && t.rng == { queue := [8], count := 2 }) = true ∧
    after (.mrTest 1#8) { bigState 9 0 0 with rng := { queue := [2], count := 0 } }
      (fun t => !t.status.result) = true := by decide +kernel

/-- The queue of that statement's last clause: `t` bases in range. -/
theorem witness_MrTestCommand_bases :
    ([2, 3] : List Nat).length = (2#8 : Byte).toNat ∧ (∀ b ∈ ([2, 3] : List Nat), 2 ≤ b ∧ b ≤ 5 - 2) ∧
    PassesRound 5 2 ∧ PassesRound 5 3 :=
  ⟨by decide, by decide, ⟨2, 1, by decide, by decide, .inr ⟨1, by decide, by decide⟩⟩,
    ⟨2, 1, by decide, by decide, .inr ⟨1, by decide, by decide⟩⟩⟩

/-- Whether the round of R221 passes, by evaluation. -/
theorem passesRound_iff {n : Nat} (hn : 3 ≤ n) (hodd : n % 2 = 1) (a : Nat) :
    PassesRound n a ↔
      roundPasses n (splitTwos (bitlen n) (n - 1)).1 (splitTwos (bitlen n) (n - 1)).2 a = true :=
  (roundPasses_iff_passesRound hn hodd a).symm

/-- The queue of that statement's clause on the first failing round: 174 is a strong liar of 221, 137 a witness. -/
theorem witness_MrTestCommand_first_failure :
    ([174] : List Nat).length < (2#8 : Byte).toNat ∧ (∀ a ∈ ([174] : List Nat), 2 ≤ a ∧ a ≤ 221 - 2 ∧ PassesRound 221 a) ∧
    2 ≤ 137 ∧ 137 ≤ 221 - 2 ∧ ¬ PassesRound 221 137 ∧
    after (.mrTest 2#8) { bigState 221 0 0 with rng := { queue := [174, 137, 9], count := 0 } }
      (fun t => !t.status.result && t.rng == { queue := [9], count := 2 }) = true := by
  simp only [passesRound_iff (n := 221) (by decide) (by decide)]
  decide +kernel

theorem bigVal_bigOf {v : Nat} (h : v < 2 ^ Config.bigBits) : bigVal (bigOf v) = v := Nat.mod_eq_of_lt h

theorem witness_PrimesPassMrTest : (1#8 : Byte) ≠ 0#8 ∧ Nat.Prime (bigVal (bigState 97 0 0).a) := by
  refine ⟨by decide, ?_⟩
  have h : bigVal (bigState 97 0 0).a = 97 := bigVal_bigOf (by decide +kernel)
  rw [h]; norm_num

/-- KG_BITS at the ends of its legal range (2.6), each with one candidate at most. -/
theorem witness_RsaKeygenRejectsAndExhausts :
    (∀ bits ∈ [0, 64, 208, 209, 2050], after (.rsaKeygen 2#8) { State.reset with kgBits := BitVec.ofNat 32 bits }
      (fun t => t.status.errcode == .badOperand) = true) ∧
    after (.rsaKeygen 0#8) { State.reset with kgBits := 256#32 } (fun t => t.status.errcode == .badOperand) = true ∧
    (∀ bits ∈ [210, 2048],
      after (.rsaKeygen 1#8) { State.reset with kgBits := BitVec.ofNat 32 bits, kgMaxCandidates := 0 }
        (fun t => t.status.errcode == .keygenExhausted) = true) := by decide +kernel

/-- `x^(2^k) mod m`. -/
def squareMod (m : Nat) : Nat → Nat → Nat
  | 0, x => x % m
  | k + 1, x => squareMod m k (x * x % m)

theorem squareMod_eq (m k x : Nat) : squareMod m k x = x ^ 2 ^ k % m := by
  induction k generalizing x with
  | zero => simp [squareMod]
  | succ k ih => rw [squareMod, ih, ← Nat.pow_mod, ← Nat.pow_two, ← Nat.pow_mul, Nat.pow_succ']

theorem prime_mersenne_61 : Nat.Prime (2 ^ 61 - 1) := by
  have h := lucas_lehmer_sufficiency 61 (by norm_num) (by norm_num)
  simpa [mersenne] using h

theorem prime_mersenne_107 : Nat.Prime (2 ^ 107 - 1) := by
  have h := lucas_lehmer_sufficiency 107 (by norm_num) (by norm_num)
  simpa [mersenne] using h

/-- A prime of 107 bits beside `2^107 − 1`, by Lucas's test with the base 7. -/
theorem prime_219 : Nat.Prime (219 * 2 ^ 99 + 1) := by
  have hval : ∀ c k r : Nat, squareMod (219 * 2 ^ 99 + 1) k (7 ^ c) = r →
      (7 : ZMod (219 * 2 ^ 99 + 1)) ^ (c * 2 ^ k) = (r : ZMod _) := by
    intro c k r h
    have hc : ((7 ^ (c * 2 ^ k) : ℕ) : ZMod (219 * 2 ^ 99 + 1)) = (r : ℕ) := by
      rw [ZMod.natCast_eq_natCast_iff', ← h, squareMod_eq, Nat.mod_mod, Nat.pow_mul]
    simpa using hc
  have hne : ∀ n c k : Nat, n = c * 2 ^ k → squareMod (219 * 2 ^ 99 + 1) k (7 ^ c) ≠ 1 →
      (7 : ZMod (219 * 2 ^ 99 + 1)) ^ n ≠ 1 := by
    rintro n c k rfl h hc
    apply h
    have hone : ((7 ^ (c * 2 ^ k) : ℕ) : ZMod (219 * 2 ^ 99 + 1)) = (1 : ℕ) := by simpa using hc
    rw [ZMod.natCast_eq_natCast_iff'] at hone
    rw [squareMod_eq, ← Nat.pow_mul, hone]; norm_num
  refine lucas_primality _ 7 (by simpa using hval 219 99 1 (by decide +kernel)) ?_
  intro q hq hdvd
  have hd : q ∣ 3 * 73 * 2 ^ 99 := by simpa using hdvd
  have hcases : q = 2 ∨ q = 3 ∨ q = 73 := by
    rcases (Nat.Prime.dvd_mul hq).1 hd with h | h
    · rcases (Nat.Prime.dvd_mul hq).1 h with h | h
      · exact .inr (.inl ((Nat.prime_dvd_prime_iff_eq hq (by norm_num)).1 h))
      · exact .inr (.inr ((Nat.prime_dvd_prime_iff_eq hq (by norm_num)).1 h))
    · exact .inl ((Nat.prime_dvd_prime_iff_eq hq (by norm_num)).1 (hq.dvd_of_dvd_pow h))
  rcases hcases with rfl | rfl | rfl
  · exact hne _ 219 98 (by norm_num) (by decide +kernel)
  · exact hne _ 73 99 (by norm_num) (by decide +kernel)
  · exact hne _ 3 99 (by norm_num) (by decide +kernel)

/-- The candidates of the main vector of section 2.6: one that fails its first base, one that passes, the same again
(`q = p`, drawn again), and the last. -/
def failing : Candidate := { drawn := 0, bases := [2] }
def chosenP : Candidate := { drawn := 0x1d, bases := [2, 3] }
def chosenQ : Candidate := { drawn := 0xffffffffffffffffffffffffffffff61, bases := [2, 3] }

theorem failing_rejected : failing.Rejected 128 2 := by
  refine ⟨by unfold Candidate.InRange; decide +kernel, [], 2, rfl, by decide, by simp, ?_⟩
  rw [passesRound_iff (by decide +kernel) (by decide +kernel)]
  decide +kernel

theorem chosenP_accepted : chosenP.Accepted 128 2 := by
  refine ⟨by unfold Candidate.InRange; decide +kernel, rfl, ?_⟩
  simp only [passesRound_iff (n := chosenP.value 128) (by decide +kernel) (by decide +kernel)]
  decide +kernel

theorem chosenQ_accepted : chosenQ.Accepted 128 2 := by
  refine ⟨by unfold Candidate.InRange; decide +kernel, rfl, ?_⟩
  simp only [passesRound_iff (n := chosenQ.value 128) (by decide +kernel) (by decide +kernel)]
  decide +kernel

/-- The main vector of section 2.6: a rejected candidate, `p`, a candidate that is drawn again, `q`. -/
theorem witness_RsaKeygenWritesTheKeyPair_run :
    (2#8 : Byte) ≠ 0#8 ∧ (256#32 : Word).toNat = 2 * 128 ∧ Suitable (chosenP.value 128) (chosenQ.value 128) ∧
    (∀ c ∈ [failing], c.Rejected 128 (2#8 : Byte).toNat) ∧ chosenP.Accepted 128 (2#8 : Byte).toNat ∧
    (∀ c ∈ [chosenP], c.Rejected 128 (2#8 : Byte).toNat ∨
      (c.Accepted 128 (2#8 : Byte).toNat ∧ ¬ Suitable (chosenP.value 128) (c.value 128))) ∧
    chosenQ.Accepted 128 (2#8 : Byte).toNat ∧ [failing].length + 1 + [chosenP].length + 1 ≤ 4 ∧
    (drawState keygenDraws).rng.queue = drawsOf ([failing] ++ chosenP :: ([chosenP] ++ [chosenQ])) ++ [] :=
  ⟨by decide, by decide, ⟨by decide +kernel, by decide +kernel⟩, by simpa using failing_rejected, chosenP_accepted,
    by simpa using Or.inr ⟨chosenP_accepted, fun h => h.1 rfl⟩, chosenQ_accepted, by decide, by decide +kernel⟩

/-- The first three of them exhaust `KG_MAX_CANDIDATES` = 3 (2.6). -/
theorem witness_RsaKeygenRejectsAndExhausts_tried :
    [failing, chosenP, chosenP].length = 3 ∧
    (∃ (before between : List Candidate) (x : Candidate), [failing, chosenP, chosenP] = before ++ x :: between ∧
      (∀ c ∈ before, c.Rejected 128 2) ∧ x.Accepted 128 2 ∧
      ∀ c ∈ between, c.Rejected 128 2 ∨ (c.Accepted 128 2 ∧ ¬ Suitable (x.value 128) (c.value 128))) ∧
    (drawState (keygenDraws.take 8)).rng.queue = drawsOf [failing, chosenP, chosenP] ++ [] ∧
    (∀ c ∈ [failing], c.Rejected 128 2) :=
  ⟨rfl, ⟨[failing], [chosenP], chosenP, rfl, by simpa using failing_rejected, chosenP_accepted,
    by simpa using Or.inr ⟨chosenP_accepted, fun h => h.1 rfl⟩⟩, by decide +kernel, by simpa using failing_rejected⟩

/-- Two suitable 107-bit primes, one base each, as the answers of the source. -/
theorem witness_RsaKeygenWritesTheKeyPair_primes (p q : Nat) (hp : p = 2 ^ 107 - 1) (hq : q = 219 * 2 ^ 99 + 1) :
    (1#8 : Byte) ≠ 0#8 ∧ (214#32 : Word).toNat = 2 * 107 ∧ 105 ≤ 107 ∧ 107 ≤ 1024 ∧
    2 ≤ State.reset.kgMaxCandidates ∧ Nat.Prime p ∧ Nat.Prime q ∧ Suitable p q ∧ 2 ^ (107 - 1) ≤ p ∧ p < 2 ^ 107 ∧
    2 ^ (107 - 1) ≤ q ∧ q < 2 ^ 107 ∧
    ([2] : List Nat).length = (1#8 : Byte).toNat ∧ ([3] : List Nat).length = (1#8 : Byte).toNat ∧
    (drawState [p, 2, q, 3]).rng.queue = p :: [2] ++ q :: [3] ++ [] := by
  subst hp hq
  exact ⟨by decide, by decide, by decide, by decide, by decide +kernel, prime_mersenne_107, prime_219,
    ⟨by decide +kernel, by decide +kernel⟩, by decide +kernel, by decide +kernel, by decide +kernel, by decide +kernel,
    by decide, by decide, rfl⟩

theorem witness_GeneratedKeyPairsAreValid :
    ∃ (s u : State) (h : Nat), h = s.kgBits.toNat / 2 ∧ s.status.err = false ∧ exec (.rsaKeygen 2#8) s = .next u ∧ u.status.err = false := by
  obtain ⟨u, hu, hc⟩ := exec_of_after (i := .rsaKeygen 2#8) (s := { drawState keygenDraws with kgBits := 256#32 })
    (check := fun u => !u.status.err) (by decide +kernel)
  exact ⟨_, u, _, rfl, rfl, hu, by simpa using hc⟩

/-! ## Witnesses: big integers, PKCS#1, RSA -/

theorem witness_ModexpCommand :
    bigVal (bigState 0 0 1).m ≠ 0 ∧ bigVal (bigState 1 1 0).m = 0 ∧
    after .modexp (bigState 0 0 7) (fun t => bigVal t.r == 1) = true ∧
    after .modexp (bigState 1 1 0) (fun t => t.status.errcode == .badOperand) = true := by decide +kernel

theorem witness_ModinvCommand :
    bigVal (bigState 5 0 0).m = 0 ∧ Nat.gcd (5 % 1) 1 = 1 ∧ Nat.gcd (0 % 7) 7 ≠ 1 ∧ Nat.gcd (4 % 2) 2 ≠ 1 ∧
    after .modinv (bigState 5 0 0) (fun t => t.status.errcode == .badOperand) = true ∧
    after .modinv (bigState 5 0 1) (fun t => t.status.done && bigVal t.r == 0) = true ∧
    after .modinv (bigState 0 0 7) (fun t => t.status.errcode == .noInverse) = true := by decide +kernel

/-- Section 2.8: 21 bytes fit a modulus of 32 bytes, 22 do not, and the answers of the source become `PS`. -/
theorem witness_Pkcs1PadCommand :
    (rsaState 21 0 []).modulusBytes = 32 ∧ (rsaState 21 0 []).plen.toNat + 11 ≤ 32 ∧
    State.reset.modulusBytes = 0 ∧ bigVal State.reset.rsaN = 0 ∧
    (List.replicate 8 0xFF#8).length = 32 - 21 - 3 ∧ (∀ x ∈ List.replicate 8 0xFF#8, x ≠ 0x00#8) ∧
    (rsaState 21 0 (List.replicate 8 255)).rng.queue = (List.replicate 8 0xFF#8).map BitVec.toNat ++ [] ∧
    after .pkcs1Pad (rsaState 21 0 (List.replicate 8 255)) (fun t =>
      bigVal t.rsaMb == os2ip ([0x00#8, 0x02#8] ++ List.replicate 8 0xFF#8 ++ List.replicate 22 0x00#8)) = true ∧
    after .pkcs1Pad (rsaState 257 0 []) (fun t => t.status.errcode == .invalidInputLength) = true := by decide +kernel

theorem not_encoding_of_second {EM : List Byte} (h : EM.getD 1 0x00#8 ≠ 0x02#8) :
    ∀ PS P : List Byte, ¬ IsEncoding EM PS P := by
  rintro PS P ⟨rfl, -⟩
  exact h rfl

/-- The integer of the block `0002 11^29 00` (2.8, D8) decodes; 0 does not; `256^K` is too wide. -/
theorem witness_Pkcs1UnpadCommand :
    (rsaState 0 0 []).modulusBytes = 32 ∧
    IsEncoding (i2osp 0x2111111111111111111111111111111111111111111111111111111111100 32)
      (List.replicate 29 0x11#8) [] ∧
    (∀ PS P : List Byte, ¬ IsEncoding (i2osp 0 32) PS P) ∧ State.reset.modulusBytes < 2 ∧
    256 ^ 32 ≤ bigVal (bigOf (2 ^ 256)) := by
  refine ⟨by decide +kernel, ?_, not_encoding_of_second (by decide +kernel), by decide +kernel, by decide +kernel⟩
  unfold IsEncoding; decide +kernel

theorem witness_RsaEncCommand :
    (rsaState 21 0 []).modulusBytes = 32 ∧ (rsaState 21 0 []).plen.toNat + 11 ≤ (rsaState 21 0 []).modulusBytes ∧
    (rsaState 22 0 []).modulusBytes < (rsaState 22 0 []).plen.toNat + 11 ∧
    256 < (rsaState 257 0 []).plen.toNat := by decide +kernel

/-- Section 2.8, D1, D7 and D10, and a modulus of one byte. -/
theorem witness_RsaDecCommand :
    IsEncoding (i2osp 0x20102030405060708090a0b0c0d00000102030405060708090a0b0c0d0e0f 32)
      ((List.range 13).map fun k => BitVec.ofNat 8 (k + 1)) (i2osp key24 16) ∧
    (∀ PS P : List Byte, ¬ IsEncoding (i2osp 0 32) PS P) ∧ bigVal State.reset.rsaN = 0 ∧
    after .rsaDec { State.reset with rsaN := bigOf 255 } (fun t => t.status.errcode == .paddingError) = true ∧
    after .rsaDec (rsaState 0 0 []) (fun t => t.status.errcode == .paddingError) = true := by
  refine ⟨?_, not_encoding_of_second (by decide +kernel), by decide +kernel, by decide +kernel, by decide +kernel⟩
  unfold IsEncoding; decide +kernel

/-- The modulus `(2^107 − 1)(2^61 − 1)` has 21 bytes; its payload may have 10. -/
theorem witness_RsaDecRestoresThePayload :
    ∃ (s : State) (p q : Nat), Nat.Prime p ∧ Nat.Prime q ∧ p ≠ q ∧ bigVal s.rsaN = p * q ∧
      bigVal s.rsaE * bigVal s.rsaD % Nat.lcm (p - 1) (q - 1) = 1 ∧ s.plen.toNat + 11 ≤ s.modulusBytes ∧
      s.plen.toNat = 10 :=
  ⟨{ State.reset with
      rsaN := bigOf ((2 ^ 107 - 1) * (2 ^ 61 - 1))
      rsaE := bigOf 65537
      rsaD := bigOf ((modInv 65537 (Nat.lcm (2 ^ 107 - 1 - 1) (2 ^ 61 - 1 - 1))).getD 0)
      plen := 10#32 },
    2 ^ 107 - 1, 2 ^ 61 - 1, prime_mersenne_107, prime_mersenne_61, by decide +kernel, by decide +kernel,
    by decide +kernel, by decide +kernel, by decide +kernel⟩

end Sys2Proof.Tests
end

/-! SUPPORT. What the commands with a check do, an equation per case (42_aes_block.md to 47_rsa_padding.md). -/

namespace Sys2Proof.Machine

section Equations

variable {s : State}

theorem exec_aesAddroundkey_rejects {r : Byte} (h : 10 < argValue r) :
    exec (.aesAddroundkey r) s = .next (s.raise .badOperand .aesBlock .validation) := if_pos h

theorem exec_aesAddroundkey_completes {r : Byte} (h : ¬ 10 < argValue r) :
    exec (.aesAddroundkey r) s = .next (State.complete
      { s with
        rk := keyExpansion s.key
        data := addRoundKey s.data (roundKey (keyExpansion s.key) (argValue r)) } false) := if_neg h

theorem exec_pkcs7Pad_rejects (h : badPaddedLength s.messageLength = true) :
    exec .pkcs7Pad s = .next (s.raise .invalidInputLength .aesCbc .validation) := if_pos h

theorem exec_pkcs7Pad_completes (h : ¬ badPaddedLength s.messageLength = true) :
    exec .pkcs7Pad s = .next (State.complete
      { s.writeBytes (mbufBase + s.messageLength)
          (List.replicate (padCount s.messageLength) (BitVec.ofNat 8 (padCount s.messageLength))) with
        mlen := lengthWord (s.messageLength + padCount s.messageLength) } false) := if_neg h

theorem exec_pkcs7Unpad_rejects_length (h : badBlockLength s.messageLength = true) :
    exec .pkcs7Unpad s = .next (s.raise .invalidInputLength .aesCbc .validation) := if_pos h

theorem exec_pkcs7Unpad_rejects_padding (h : ¬ badBlockLength s.messageLength = true)
    (hu : unpad7 s.message = none) :
    exec .pkcs7Unpad s = .next (s.raise .paddingError .aesCbc .padding) := by
  rw [exec, execPkcs7Unpad, if_neg h, hu]

theorem exec_pkcs7Unpad_completes {X : List Byte} (h : ¬ badBlockLength s.messageLength = true)
    (hu : unpad7 s.message = some X) :
    exec .pkcs7Unpad s = .next (State.complete { s with mlen := lengthWord X.length } false) := by
  rw [exec, execPkcs7Unpad, if_neg h, hu]

theorem exec_cbcEncRaw_rejects (h : badBlockLength s.messageLength = true) :
    exec .cbcEncRaw s = .next (s.raise .invalidInputLength .aesCbc .validation) := if_pos h

theorem exec_cbcEncRaw_completes (h : ¬ badBlockLength s.messageLength = true) :
    exec .cbcEncRaw s = .next (State.complete
      { s.writeBytes mbufBase (cbcEnc s.message (keyExpansion s.key) s.iv) with rk := keyExpansion s.key }
      false) := if_neg h

theorem exec_cbcDecRaw_rejects (h : badBlockLength s.messageLength = true) :
    exec .cbcDecRaw s = .next (s.raise .invalidInputLength .aesCbc .validation) := if_pos h

theorem exec_cbcDecRaw_completes (h : ¬ badBlockLength s.messageLength = true) :
    exec .cbcDecRaw s = .next (State.complete
      { s.writeBytes mbufBase (cbcDec s.message (keyExpansion s.key) s.iv) with rk := keyExpansion s.key }
      false) := if_neg h

theorem exec_cbcEnc_rejects (h : badPaddedLength s.messageLength = true) :
    exec .cbcEnc s = .next (s.raise .invalidInputLength .aesCbc .validation) := if_pos h

theorem exec_cbcEnc_completes (h : ¬ badPaddedLength s.messageLength = true) :
    exec .cbcEnc s = .next (State.complete
      { s.writeBytes mbufBase (cbcEnc (pad7 s.message) (keyExpansion s.key) s.iv) with
        rk := keyExpansion s.key
        mlen := lengthWord (s.messageLength + padCount s.messageLength) } false) := if_neg h

theorem exec_cbcDec_rejects_length (h : badBlockLength s.messageLength = true) :
    exec .cbcDec s = .next (s.raise .invalidInputLength .aesCbc .validation) := if_pos h

theorem exec_cbcDec_rejects_padding (h : ¬ badBlockLength s.messageLength = true)
    (hu : unpad7 (cbcDec s.message (keyExpansion s.key) s.iv) = none) :
    exec .cbcDec s = .next (s.raise .paddingError .aesCbc .padding) := by
  simp only [exec, execCbcDec, if_neg h, hu]

theorem exec_cbcDec_completes {X : List Byte} (h : ¬ badBlockLength s.messageLength = true)
    (hu : unpad7 (cbcDec s.message (keyExpansion s.key) s.iv) = some X) :
    exec .cbcDec s = .next (State.complete
      { s.writeBytes mbufBase (cbcDec s.message (keyExpansion s.key) s.iv) with
        rk := keyExpansion s.key, mlen := lengthWord X.length } false) := by
  simp only [exec, execCbcDec, if_neg h, hu]

theorem exec_mrTest_rejects {n : Byte} (h : argValue n = 0) :
    exec (.mrTest n) s = .next (s.raise .badOperand .primality .validation) := if_pos h

theorem exec_mrTest_completes {n : Byte} (h : ¬ argValue n = 0) :
    exec (.mrTest n) s = .next (State.complete
      { s with rng := (millerRabin (bigVal s.a) (argValue n) s.rng).2 }
      (millerRabin (bigVal s.a) (argValue n) s.rng).1) := if_neg h

theorem exec_rsaKeygen_rejects {n : Byte} (h : argValue n = 0 ∨ badKeyBits s.kgBits.toNat = true) :
    exec (.rsaKeygen n) s = .next (s.raise .badOperand .keygen .validation) := if_pos h

theorem exec_rsaKeygen_exhausted {n : Byte} {g : Rng} (h : ¬ (argValue n = 0 ∨ badKeyBits s.kgBits.toNat = true))
    (hk : keyGen s.kgMaxCandidates s.kgBits.toNat (argValue n) s.rng = (none, g)) :
    exec (.rsaKeygen n) s = .next (State.raise { s with rng := g } .keygenExhausted .keygen .compute) := by
  simp only [exec, execRsaKeygen, if_neg h, hk]

theorem exec_rsaKeygen_completes {n : Byte} {kp : KeyPair} {g : Rng}
    (h : ¬ (argValue n = 0 ∨ badKeyBits s.kgBits.toNat = true))
    (hk : keyGen s.kgMaxCandidates s.kgBits.toNat (argValue n) s.rng = (some kp, g)) :
    exec (.rsaKeygen n) s = .next (State.complete
      { s with rsaN := bigOf kp.n, rsaE := bigOf kp.e, rsaD := bigOf kp.d, rng := g } false) := by
  simp only [exec, execRsaKeygen, if_neg h, hk]

theorem exec_modexp_rejects (h : bigVal s.m = 0) :
    exec .modexp s = .next (s.raise .badOperand .bigint .validation) := if_pos h

theorem exec_modexp_completes (h : ¬ bigVal s.m = 0) :
    exec .modexp s = .next (State.complete
      { s with r := bigOf (modExp (bigVal s.a) (bigVal s.b) (bigVal s.m)) } false) := if_neg h

theorem exec_modinv_rejects (h : bigVal s.m = 0) :
    exec .modinv s = .next (s.raise .badOperand .bigint .validation) := if_pos h

theorem exec_modinv_noInverse (h : ¬ bigVal s.m = 0) (hx : modInv (bigVal s.a) (bigVal s.m) = none) :
    exec .modinv s = .next (s.raise .noInverse .bigint .compute) := by
  rw [exec, execModinv, if_neg h, hx]

theorem exec_modinv_completes {x : Nat} (h : ¬ bigVal s.m = 0) (hx : modInv (bigVal s.a) (bigVal s.m) = some x) :
    exec .modinv s = .next (State.complete { s with r := bigOf x } false) := by
  rw [exec, execModinv, if_neg h, hx]

theorem exec_pkcs1Pad_rejects (h : badPayloadLength s.payloadLength s.modulusBytes = true) :
    exec .pkcs1Pad s = .next (s.raise .invalidInputLength .rsa .validation) := if_pos h

theorem exec_pkcs1Pad_completes (h : ¬ badPayloadLength s.payloadLength s.modulusBytes = true) :
    exec .pkcs1Pad s = .next (State.complete
      { s with
        rsaMb := bigOf (os2ip (pad1 s.payload s.modulusBytes s.rng).1)
        rng := (pad1 s.payload s.modulusBytes s.rng).2 } false) := if_neg h

theorem exec_pkcs1Unpad_rejects_width (h : s.modulusBytes < 2 ∨ 256 ^ s.modulusBytes ≤ bigVal s.rsaMb) :
    exec .pkcs1Unpad s = .next (s.raise .paddingError .rsa .padding) := if_pos h

theorem exec_pkcs1Unpad_rejects_padding (h : ¬ (s.modulusBytes < 2 ∨ 256 ^ s.modulusBytes ≤ bigVal s.rsaMb))
    (hu : unpad1 (i2osp (bigVal s.rsaMb) s.modulusBytes) = none) :
    exec .pkcs1Unpad s = .next (s.raise .paddingError .rsa .padding) := by
  simp only [exec, execPkcs1Unpad, if_neg h, hu]

theorem exec_pkcs1Unpad_completes {P : List Byte}
    (h : ¬ (s.modulusBytes < 2 ∨ 256 ^ s.modulusBytes ≤ bigVal s.rsaMb))
    (hu : unpad1 (i2osp (bigVal s.rsaMb) s.modulusBytes) = some P) :
    exec .pkcs1Unpad s =
      .next (State.complete { s.writeBytes pbufBase P with plen := lengthWord P.length } false) := by
  simp only [exec, execPkcs1Unpad, if_neg h, hu]

theorem exec_rsaEnc_rejects (h : badPayloadLength s.payloadLength s.modulusBytes = true) :
    exec .rsaEnc s = .next (s.raise .invalidInputLength .rsa .validation) := if_pos h

theorem exec_rsaEnc_completes (h : ¬ badPayloadLength s.payloadLength s.modulusBytes = true) :
    exec .rsaEnc s = .next (State.complete
      { s with
        rsaMb := bigOf (os2ip (pad1 s.payload s.modulusBytes s.rng).1)
        rsaC := bigOf (modExp (os2ip (pad1 s.payload s.modulusBytes s.rng).1) (bigVal s.rsaE) (bigVal s.rsaN))
        rng := (pad1 s.payload s.modulusBytes s.rng).2 } false) := if_neg h

theorem exec_rsaDec_rejects (h : bigVal s.rsaN = 0) :
    exec .rsaDec s = .next (s.raise .badOperand .rsa .validation) := if_pos h

theorem exec_rsaDec_rejects_width (h : ¬ bigVal s.rsaN = 0) (hK : s.modulusBytes < 2) :
    exec .rsaDec s = .next (s.raise .paddingError .rsa .padding) := by
  simp only [exec, execRsaDec, if_neg h, if_pos hK]

theorem exec_rsaDec_rejects_padding (h : ¬ bigVal s.rsaN = 0) (hK : ¬ s.modulusBytes < 2)
    (hu : unpad1 (i2osp (modExp (bigVal s.rsaC) (bigVal s.rsaD) (bigVal s.rsaN)) s.modulusBytes) = none) :
    exec .rsaDec s = .next (s.raise .paddingError .rsa .padding) := by
  simp only [exec, execRsaDec, if_neg h, if_neg hK, hu]

theorem exec_rsaDec_completes {P : List Byte} (h : ¬ bigVal s.rsaN = 0) (hK : ¬ s.modulusBytes < 2)
    (hu : unpad1 (i2osp (modExp (bigVal s.rsaC) (bigVal s.rsaD) (bigVal s.rsaN)) s.modulusBytes) = some P) :
    exec .rsaDec s = .next (State.complete
      { s.writeBytes pbufBase P with
        rsaMb := bigOf (modExp (bigVal s.rsaC) (bigVal s.rsaD) (bigVal s.rsaN))
        plen := lengthWord P.length } false) := by
  simp only [exec, execRsaDec, if_neg h, if_neg hK, hu]

end Equations

end Sys2Proof.Machine

/-! SUPPORT. Draws only raise the count of draws (R77), and the lengths of the strings the commands store. -/

namespace Sys2Proof.Machine

theorem count_le_millerRabinRounds (n k d t : Nat) (g : Rng) :
    g.count ≤ (millerRabinRounds n k d t g).2.count := by
  induction t generalizing g with
  | zero => exact le_refl _
  | succ t ih =>
    have hdraw := count_range g 2 (n - 2)
    rw [millerRabinRounds]
    split
    · have := ih (g.range 2 (n - 2)).2
      omega
    · exact hdraw ▸ Nat.le_succ _

theorem count_le_millerRabin (n t : Nat) (g : Rng) : g.count ≤ (millerRabin n t g).2.count := by
  unfold millerRabin
  split_ifs
  · exact le_refl _
  · exact le_refl _
  · exact le_refl _
  · exact count_le_millerRabinRounds _ _ _ _ _

/-- Every turn of the candidate loop draws, and nothing gives a draw back (R242). -/
theorem count_le_keyGenLoop (h t fuel : Nat) (p : Option Nat) (g : Rng) :
    g.count ≤ (keyGenLoop h t fuel p g).2.count := by
  induction fuel generalizing p g with
  | zero => exact le_refl _
  | succ fuel ih =>
    obtain ⟨x, g1, hd⟩ : ∃ x g1, g.bits h = (x, g1) := ⟨_, _, rfl⟩
    obtain ⟨v, g2, hv⟩ : ∃ v g2, millerRabin (primeCandidate h x) t g1 = (v, g2) := ⟨_, _, rfl⟩
    have h1 : g1.count = g.count + 1 := by simpa [hd] using count_bits g h
    have h2 : g1.count ≤ g2.count := by simpa [hv] using count_le_millerRabin (primeCandidate h x) t g1
    have hrest : ∀ q, g.count ≤ (keyGenLoop h t fuel q g2).2.count := fun q => by
      have := ih q g2
      omega
    rw [keyGenLoop_turn hd hv]
    cases v with
    | false => exact hrest p
    | true =>
      cases p with
      | none => exact hrest _
      | some first =>
        rw [if_pos rfl]
        dsimp only
        split
        · exact hrest _
        · dsimp only; omega

theorem count_le_keyGen (maxCandidates bits t : Nat) (g : Rng) :
    g.count ≤ (keyGen maxCandidates bits t g).2.count := count_le_keyGenLoop _ _ _ _ _

@[simp] theorem count_pad1 (P : List Byte) (K : Nat) (g : Rng) :
    (pad1 P K g).2.count = g.count + (K - P.length - 3) := count_nonzeroBytes _ _

/-- Unpadding does not lengthen a string (R183). -/
theorem length_le_of_unpad7 {X Y : List Byte} (h : unpad7 X = some Y) : Y.length ≤ X.length := by
  unfold unpad7 at h
  split at h
  · cases h
  · dsimp only at h
    split_ifs at h
    cases h
    exact List.length_take_le' _ _

/-- Whole blocks are encrypted to as many bytes (R184). -/
theorem length_cbcEnc_of_blocks {P : List Byte} (h : P.length % 16 = 0) (sched : BitVec 1408) (iv : Block) :
    (cbcEnc P sched iv).length = P.length := by
  simp only [cbcEnc, length_bytesOf, length_cbcEncBlocks, blocksOf, List.length_map, List.length_range]
  omega

theorem length_pad7_mod (X : List Byte) : (pad7 X).length % 16 = 0 := by
  rw [length_pad7, padCount]
  omega

theorem blockLength_fits {L : Nat} (h : ¬ badBlockLength L = true) : L ≤ 4096 := by
  simp only [badBlockLength, Bool.or_eq_true, decide_eq_true_eq, not_or, not_lt] at h
  exact h.1

end Sys2Proof.Machine

/-! SUPPORT. How a command ends, said once for all commands: with success or an error of its row (R311, R312, R318),
with the registers of its row written and no other, at most one byte string stored, and nothing of the buffers read
but the message and the payload. -/

namespace Sys2Proof.Machine

/-- What a command stores into PBUF and MBUF. -/
inductive Store where
  | nothing
  | bytes (base : Nat) (X : List Byte)

/-- The memory after the store. -/
def Store.apply : Store → Memory → Memory
  | .nothing, m => m
  | .bytes base X, m => m.write base X

/-- The store writes the byte at the bus offset `o`. -/
def Store.Covers : Store → Nat → Prop
  | .nothing, _ => False
  | .bytes base X, o => base ≤ o ∧ o < base + X.length

theorem inBuffers_of_mbuf {o : Nat} (h1 : mbufBase ≤ o) (h2 : o < mbufBase + 4096) : InBuffers o := .inr ⟨h1, h2⟩

theorem inBuffers_of_pbuf {o : Nat} (h1 : pbufBase ≤ o) (h2 : o < pbufBase + 256) : InBuffers o := .inl ⟨h1, h2⟩

/-- STATUS after a success with its RESULT (R311), or after an error (R312). -/
def Status.ended (u : Status) : Except ErrorReport Bool → Status
  | .ok res => { u with done := true, result := res }
  | .error e => { u with err := true, result := false, errcode := e.1, engine := e.2.1, stage := e.2.2 }

/-- The completion of a working copy: `State.complete` after a success, `State.raise` after an error. -/
def State.finish (w : State) (o : Except ErrorReport Bool) : State :=
  { w with phase := .idle, status := w.status.ended o }

@[simp] theorem State.finish_ok (w : State) (res : Bool) : w.finish (.ok res) = w.complete res := rfl

@[simp] theorem State.finish_error (w : State) (e : ErrorReport) :
    w.finish (.error e) = w.raise e.1 e.2.1 e.2.2 := rfl

/-- A command may end so: RESULT = 1 is of MR_TEST alone (R44), and its errors are those of its row (R318). -/
def MayEnd (i : Instr) : Except ErrorReport Bool → Prop
  | .ok res => res = true → ∃ n : Byte, i = .mrTest n
  | .error e => e ∈ errorsOf i

/-- The state with another memory. -/
def State.withMem (s : State) (m : Memory) : State := { s with mem := m }

/-- The memory `m` holds the message and the payload `s` holds (R35, R36). -/
structure SameOperands (s : State) (m : Memory) : Prop where
  message : (s.withMem m).message = s.message
  payload : (s.withMem m).payload = s.payload

/-- The working copy `w` of a command on `s` differs from `s` in registers of the command alone. A proof names only the
registers that the command writes. -/
structure Frame (i : Instr) (s w : State) : Prop where
  status : w.status = s.status := by rfl
  inputs : w.inputs = s.inputs := by rfl
  readData : w.readData = s.readData := by rfl
  kgMaxCandidates : w.kgMaxCandidates = s.kgMaxCandidates := by rfl
  busyReads : w.busyReads = s.busyReads := by rfl
  epoch : w.epoch = s.epoch := by rfl
  irqEn : w.irqEn = s.irqEn := by rfl
  kgBits : w.kgBits = s.kgBits := by rfl
  a : w.a = s.a := by rfl
  b : w.b = s.b := by rfl
  m : w.m = s.m := by rfl
  count : s.rng.count ≤ w.rng.count := by exact le_refl _
  rng : w.rng ≠ s.rng → i = .rngKey ∨ i = .rngIv ∨ (∃ n, i = .mrTest n) ∨ (∃ n, i = .rsaKeygen n) ∨
    i = .pkcs1Pad ∨ i = .rsaEnc := by exact (absurd rfl ·)
  data : w.data ≠ s.data → i = .aesEncBlock ∨ i = .aesDecBlock ∨ i = .aesSubbytes ∨ i = .aesInvSubbytes ∨
    i = .aesShiftrows ∨ i = .aesInvShiftrows ∨ i = .aesMixcolumns ∨ i = .aesInvMixcolumns ∨
    (∃ r, i = .aesAddroundkey r) ∨ ∃ c, i = .aesGfmul c := by exact (absurd rfl ·)
  key : w.key ≠ s.key → i = .rngKey := by exact (absurd rfl ·)
  iv : w.iv ≠ s.iv → i = .rngIv := by exact (absurd rfl ·)
  r : w.r ≠ s.r → i = .modexp ∨ i = .modinv := by exact (absurd rfl ·)
  rsaN : w.rsaN ≠ s.rsaN → ∃ n, i = .rsaKeygen n := by exact (absurd rfl ·)
  rsaE : w.rsaE ≠ s.rsaE → ∃ n, i = .rsaKeygen n := by exact (absurd rfl ·)
  rsaD : w.rsaD ≠ s.rsaD → ∃ n, i = .rsaKeygen n := by exact (absurd rfl ·)
  rsaC : w.rsaC ≠ s.rsaC → i = .rsaEnc := by exact (absurd rfl ·)
  rsaMb : w.rsaMb ≠ s.rsaMb → i = .pkcs1Pad ∨ i = .rsaEnc ∨ i = .rsaDec := by exact (absurd rfl ·)
  plen : w.plen ≠ s.plen → i = .pkcs1Unpad ∨ i = .rsaDec := by exact (absurd rfl ·)
  mlen : w.mlen ≠ s.mlen → i = .pkcs7Pad ∨ i = .pkcs7Unpad ∨ i = .cbcEnc ∨ i = .cbcDec := by exact (absurd rfl ·)
  rk : w.rk ≠ s.rk → i = .aesKeyexp ∨ i = .aesEncBlock ∨ i = .aesDecBlock ∨ (∃ r, i = .aesAddroundkey r) ∨
    i = .cbcEncRaw ∨ i = .cbcDecRaw ∨ i = .cbcEnc ∨ i = .cbcDec := by exact (absurd rfl ·)

/-- What a command stores on its way to the working copy `w`: bytes of PBUF and MBUF, and every byte of the message and
the payload that was not one before (R35, R36). A command that stores nothing keeps its lengths or shortens them. -/
structure StoreFrame (i : Instr) (s w : State) (st : Store) : Prop where
  storer : st ≠ .nothing → i = .pkcs7Pad ∨ i = .cbcEncRaw ∨ i = .cbcDecRaw ∨ i = .cbcEnc ∨ i = .cbcDec ∨
    i = .pkcs1Unpad ∨ i = .rsaDec := by exact (absurd rfl ·)
  inBuffers : ∀ o, st.Covers o → InBuffers o := by exact fun _ => False.elim
  message : ∀ k < w.mlen.toNat, k < s.mlen.toNat ∨ st.Covers (mbufBase + k) := by exact fun _ => Or.inl
  payload : ∀ k < w.plen.toNat, k < s.plen.toNat ∨ st.Covers (pbufBase + k) := by exact fun _ => Or.inl

/-- The command `i` on `s` ends as `o` says, with the working copy `w` and the store `st`; and so it does, with the same
`w` and `st`, from every memory with the same message and payload. -/
structure Ending (i : Instr) (s w : State) (st : Store) (o : Except ErrorReport Bool) : Prop where
  runs : ∀ m : Memory, SameOperands s m →
    exec i (s.withMem m) = .next ((w.withMem (st.apply m)).finish o)
  frame : Frame i s w
  store : StoreFrame i s w st
  mayEnd : MayEnd i o

/-- The command has an ending from `s`. -/
def Ends (i : Instr) (s : State) : Prop :=
  ∃ (w : State) (st : Store) (o : Except ErrorReport Bool), Ending i s w st o

/-- An error found before any draw leaves the registers as they are (R312, R317). -/
theorem ends_of_rejects {i : Instr} {s : State} (e : ErrorReport) (he : e ∈ errorsOf i)
    (h : ∀ m : Memory, SameOperands s m →
      exec i (s.withMem m) = .next ((s.withMem m).raise e.1 e.2.1 e.2.2)) : Ends i s :=
  ⟨s, .nothing, .error e, { runs := h, frame := {}, store := {}, mayEnd := he }⟩

/-- A success with RESULT = 0 that stores nothing. -/
theorem ends_of_completes {i : Instr} {s w : State} (frame : Frame i s w) (store : StoreFrame i s w .nothing)
    (h : ∀ m : Memory, SameOperands s m →
      exec i (s.withMem m) = .next ((w.withMem m).complete false)) : Ends i s :=
  ⟨w, .nothing, .ok false, { runs := h, frame, store, mayEnd := nofun }⟩

/-- A success with RESULT = 0 that stores one byte string. -/
theorem ends_of_stores {i : Instr} {s w : State} (base : Nat) (X : List Byte) (frame : Frame i s w)
    (store : StoreFrame i s w (.bytes base X))
    (h : ∀ m : Memory, SameOperands s m →
      exec i (s.withMem m) = .next ((w.withMem (m.write base X)).complete false)) : Ends i s :=
  ⟨w, .bytes base X, .ok false, { runs := h, frame, store, mayEnd := nofun }⟩

/-- A string stored at the start of MBUF lies in it. -/
theorem inBuffers_of_mbuf_store {X : List Byte} (hX : X.length ≤ 4096) :
    ∀ o, (Store.bytes mbufBase X).Covers o → InBuffers o :=
  fun _ h => inBuffers_of_mbuf h.1 (h.2.trans_le (Nat.add_le_add_left hX _))

/-- What a command that stores its payload at the start of PBUF, with its length in PLEN, stores. -/
theorem storeFrame_of_payload {i : Instr} {s w : State} {P : List Byte} (hi : i = .pkcs1Unpad ∨ i = .rsaDec)
    (hP : P.length ≤ 256) (hplen : w.plen = lengthWord P.length) (hmlen : w.mlen = s.mlen) :
    StoreFrame i s w (.bytes pbufBase P) where
  storer _ := by rcases hi with rfl | rfl <;> simp
  inBuffers _ h := inBuffers_of_pbuf h.1 (h.2.trans_le (Nat.add_le_add_left hP _))
  message k hk := .inl (hmlen ▸ hk)
  payload k hk := by
    rw [hplen, lengthWord_toNat (hP.trans (by decide))] at hk
    exact .inr ⟨Nat.le_add_right _ _, Nat.add_lt_add_left hk _⟩

section Commands

variable (s : State)

theorem aesAddroundkey_ends (r : Byte) : Ends (.aesAddroundkey r) s := by
  by_cases h : 10 < argValue r
  · exact ends_of_rejects (.badOperand, .aesBlock, .validation) (by simp [errorsOf])
      fun _ _ => exec_aesAddroundkey_rejects h
  · exact ends_of_completes
      (w := { s with
              rk := keyExpansion s.key
              data := addRoundKey s.data (roundKey (keyExpansion s.key) (argValue r)) })
      { rk := by simp, data := by simp } {} fun _ _ => exec_aesAddroundkey_completes h

theorem pkcs7Pad_ends : Ends .pkcs7Pad s := by
  by_cases h : badPaddedLength s.messageLength = true
  · exact ends_of_rejects (.invalidInputLength, .aesCbc, .validation) (by simp [errorsOf])
      fun _ _ => exec_pkcs7Pad_rejects h
  · have hfits := padCount_fits (by simpa using h)
    refine ends_of_stores (mbufBase + s.messageLength)
      (List.replicate (padCount s.messageLength) (BitVec.ofNat 8 (padCount s.messageLength)))
      (w := { s with mlen := lengthWord (s.messageLength + padCount s.messageLength) }) { mlen := by simp }
      { storer := by simp, inBuffers := ?_, message := ?_ } fun _ _ => exec_pkcs7Pad_completes h
    · rintro o ⟨h1, h2⟩
      rw [List.length_replicate] at h2
      exact inBuffers_of_mbuf (by omega) (by omega)
    · intro k hk
      replace hk : k < s.messageLength + padCount s.messageLength := by rwa [lengthWord_toNat hfits] at hk
      by_cases hs : k < s.messageLength
      · exact .inl hs
      · exact .inr ⟨by omega, by rw [List.length_replicate]; omega⟩

theorem pkcs7Unpad_ends : Ends .pkcs7Unpad s := by
  by_cases h : badBlockLength s.messageLength = true
  · exact ends_of_rejects (.invalidInputLength, .aesCbc, .validation) (by simp [errorsOf])
      fun _ _ => exec_pkcs7Unpad_rejects_length h
  · cases hu : unpad7 s.message with
    | none =>
      exact ends_of_rejects (.paddingError, .aesCbc, .padding) (by simp [errorsOf])
        fun _ hm => exec_pkcs7Unpad_rejects_padding h (hm.message.symm ▸ hu)
    | some X =>
      have hX := length_le_of_unpad7 hu
      rw [length_message] at hX
      refine ends_of_completes (w := { s with mlen := lengthWord X.length }) { mlen := by simp } { message := ?_ }
        fun _ hm => exec_pkcs7Unpad_completes h (hm.message.symm ▸ hu)
      intro k hk
      rw [lengthWord_toNat (hX.trans (blockLength_fits h))] at hk
      exact .inl (hk.trans_le hX)

theorem cbcEncRaw_ends : Ends .cbcEncRaw s := by
  by_cases h : badBlockLength s.messageLength = true
  · exact ends_of_rejects (.invalidInputLength, .aesCbc, .validation) (by simp [errorsOf])
      fun _ _ => exec_cbcEncRaw_rejects h
  · have hX := length_cbcEnc_le s.message (keyExpansion s.key) s.iv
    rw [length_message] at hX
    exact ends_of_stores mbufBase (cbcEnc s.message (keyExpansion s.key) s.iv)
      (w := { s with rk := keyExpansion s.key }) { rk := by simp }
      { storer := by simp, inBuffers := inBuffers_of_mbuf_store (hX.trans (blockLength_fits h)) }
      fun m hm => (exec_cbcEncRaw_completes (s := s.withMem m) h).trans (by rw [hm.message]; rfl)

theorem cbcDecRaw_ends : Ends .cbcDecRaw s := by
  by_cases h : badBlockLength s.messageLength = true
  · exact ends_of_rejects (.invalidInputLength, .aesCbc, .validation) (by simp [errorsOf])
      fun _ _ => exec_cbcDecRaw_rejects h
  · have hX := length_cbcDec_le s.message (keyExpansion s.key) s.iv
    rw [length_message] at hX
    exact ends_of_stores mbufBase (cbcDec s.message (keyExpansion s.key) s.iv)
      (w := { s with rk := keyExpansion s.key }) { rk := by simp }
      { storer := by simp, inBuffers := inBuffers_of_mbuf_store (hX.trans (blockLength_fits h)) }
      fun m hm => (exec_cbcDecRaw_completes (s := s.withMem m) h).trans (by rw [hm.message]; rfl)

theorem cbcEnc_ends : Ends .cbcEnc s := by
  by_cases h : badPaddedLength s.messageLength = true
  · exact ends_of_rejects (.invalidInputLength, .aesCbc, .validation) (by simp [errorsOf])
      fun _ _ => exec_cbcEnc_rejects h
  · have hfits := padCount_fits (by simpa using h)
    have hX := length_cbcEnc_of_blocks (length_pad7_mod s.message) (keyExpansion s.key) s.iv
    rw [length_pad7, length_message] at hX
    refine ends_of_stores mbufBase (cbcEnc (pad7 s.message) (keyExpansion s.key) s.iv)
      (w := { s with rk := keyExpansion s.key, mlen := lengthWord (s.messageLength + padCount s.messageLength) })
      { rk := by simp, mlen := by simp }
      { storer := by simp, inBuffers := inBuffers_of_mbuf_store (hX.trans_le hfits), message := ?_ }
      fun m hm => (exec_cbcEnc_completes (s := s.withMem m) h).trans (by rw [hm.message]; rfl)
    intro k hk
    rw [lengthWord_toNat hfits, ← hX] at hk
    exact .inr ⟨Nat.le_add_right _ _, Nat.add_lt_add_left hk _⟩

theorem cbcDec_ends : Ends .cbcDec s := by
  by_cases h : badBlockLength s.messageLength = true
  · exact ends_of_rejects (.invalidInputLength, .aesCbc, .validation) (by simp [errorsOf])
      fun _ _ => exec_cbcDec_rejects_length h
  · cases hu : unpad7 (cbcDec s.message (keyExpansion s.key) s.iv) with
    | none =>
      exact ends_of_rejects (.paddingError, .aesCbc, .padding) (by simp [errorsOf])
        fun _ hm => exec_cbcDec_rejects_padding h (hm.message.symm ▸ hu)
    | some X =>
      have hP := length_cbcDec_le s.message (keyExpansion s.key) s.iv
      rw [length_message] at hP
      have hX := (length_le_of_unpad7 hu).trans hP
      refine ends_of_stores mbufBase (cbcDec s.message (keyExpansion s.key) s.iv)
        (w := { s with rk := keyExpansion s.key, mlen := lengthWord X.length }) { rk := by simp, mlen := by simp }
        { storer := by simp, inBuffers := inBuffers_of_mbuf_store (hP.trans (blockLength_fits h)), message := ?_ }
        fun m hm => (exec_cbcDec_completes (s := s.withMem m) h (hm.message.symm ▸ hu)).trans (by rw [hm.message]; rfl)
      intro k hk
      rw [lengthWord_toNat (hX.trans (blockLength_fits h))] at hk
      exact .inl (hk.trans_le hX)

theorem mrTest_ends (n : Byte) : Ends (.mrTest n) s := by
  by_cases h : argValue n = 0
  · exact ends_of_rejects (.badOperand, .primality, .validation) (by simp [errorsOf])
      fun _ _ => exec_mrTest_rejects h
  · exact ⟨{ s with rng := (millerRabin (bigVal s.a) (argValue n) s.rng).2 }, .nothing,
      .ok (millerRabin (bigVal s.a) (argValue n) s.rng).1,
      { runs := fun _ _ => exec_mrTest_completes h
        frame := { rng := by simp, count := count_le_millerRabin _ _ _ }
        store := {}
        mayEnd := fun _ => ⟨n, rfl⟩ }⟩

theorem rsaKeygen_ends (n : Byte) : Ends (.rsaKeygen n) s := by
  by_cases h : argValue n = 0 ∨ badKeyBits s.kgBits.toNat = true
  · exact ends_of_rejects (.badOperand, .keygen, .validation) (by simp [errorsOf])
      fun _ _ => exec_rsaKeygen_rejects h
  · have hcount := count_le_keyGen s.kgMaxCandidates s.kgBits.toNat (argValue n) s.rng
    cases hk : keyGen s.kgMaxCandidates s.kgBits.toNat (argValue n) s.rng with
    | mk made g =>
      rw [hk] at hcount
      cases made with
      | none =>
        exact ⟨{ s with rng := g }, .nothing, .error (.keygenExhausted, .keygen, .compute),
          { runs := fun _ _ => exec_rsaKeygen_exhausted h hk
            frame := { rng := by simp, count := hcount }
            store := {}
            mayEnd := by simp [MayEnd, errorsOf] }⟩
      | some kp =>
        exact ends_of_completes
          (w := { s with rsaN := bigOf kp.n, rsaE := bigOf kp.e, rsaD := bigOf kp.d, rng := g })
          { rsaN := by simp, rsaE := by simp, rsaD := by simp, rng := by simp, count := hcount } {}
          fun _ _ => exec_rsaKeygen_completes h hk

theorem modexp_ends : Ends .modexp s := by
  by_cases h : bigVal s.m = 0
  · exact ends_of_rejects (.badOperand, .bigint, .validation) (by simp [errorsOf])
      fun _ _ => exec_modexp_rejects h
  · exact ends_of_completes (w := { s with r := bigOf (modExp (bigVal s.a) (bigVal s.b) (bigVal s.m)) })
      { r := by simp } {} fun _ _ => exec_modexp_completes h

theorem modinv_ends : Ends .modinv s := by
  by_cases h : bigVal s.m = 0
  · exact ends_of_rejects (.badOperand, .bigint, .validation) (by simp [errorsOf])
      fun _ _ => exec_modinv_rejects h
  · cases hx : modInv (bigVal s.a) (bigVal s.m) with
    | none =>
      exact ends_of_rejects (.noInverse, .bigint, .compute) (by simp [errorsOf])
        fun _ _ => exec_modinv_noInverse h hx
    | some x =>
      exact ends_of_completes (w := { s with r := bigOf x }) { r := by simp } {} fun _ _ => exec_modinv_completes h hx

theorem pkcs1Pad_ends : Ends .pkcs1Pad s := by
  by_cases h : badPayloadLength s.payloadLength s.modulusBytes = true
  · exact ends_of_rejects (.invalidInputLength, .rsa, .validation) (by simp [errorsOf])
      fun _ _ => exec_pkcs1Pad_rejects h
  · exact ends_of_completes
      (w := { s with
              rsaMb := bigOf (os2ip (pad1 s.payload s.modulusBytes s.rng).1)
              rng := (pad1 s.payload s.modulusBytes s.rng).2 })
      { rsaMb := by simp, rng := by simp, count := by simp } {}
      fun _ hm => hm.payload ▸ exec_pkcs1Pad_completes h

theorem pkcs1Unpad_ends : Ends .pkcs1Unpad s := by
  by_cases h : s.modulusBytes < 2 ∨ 256 ^ s.modulusBytes ≤ bigVal s.rsaMb
  · exact ends_of_rejects (.paddingError, .rsa, .padding) (by simp [errorsOf])
      fun _ _ => exec_pkcs1Unpad_rejects_width h
  · cases hu : unpad1 (i2osp (bigVal s.rsaMb) s.modulusBytes) with
    | none =>
      exact ends_of_rejects (.paddingError, .rsa, .padding) (by simp [errorsOf])
        fun _ _ => exec_pkcs1Unpad_rejects_padding h hu
    | some P =>
      exact ends_of_stores pbufBase P (w := { s with plen := lengthWord P.length }) { plen := by simp }
        (storeFrame_of_payload (by simp) (length_of_unpad1 s hu) rfl rfl)
        fun _ _ => exec_pkcs1Unpad_completes h hu

theorem rsaEnc_ends : Ends .rsaEnc s := by
  by_cases h : badPayloadLength s.payloadLength s.modulusBytes = true
  · exact ends_of_rejects (.invalidInputLength, .rsa, .validation) (by simp [errorsOf])
      fun _ _ => exec_rsaEnc_rejects h
  · exact ends_of_completes
      (w := { s with
              rsaMb := bigOf (os2ip (pad1 s.payload s.modulusBytes s.rng).1)
              rsaC := bigOf (modExp (os2ip (pad1 s.payload s.modulusBytes s.rng).1) (bigVal s.rsaE) (bigVal s.rsaN))
              rng := (pad1 s.payload s.modulusBytes s.rng).2 })
      { rsaMb := by simp, rsaC := by simp, rng := by simp, count := by simp } {}
      fun _ hm => hm.payload ▸ exec_rsaEnc_completes h

theorem rsaDec_ends : Ends .rsaDec s := by
  by_cases h : bigVal s.rsaN = 0
  · exact ends_of_rejects (.badOperand, .rsa, .validation) (by simp [errorsOf])
      fun _ _ => exec_rsaDec_rejects h
  · by_cases hK : s.modulusBytes < 2
    · exact ends_of_rejects (.paddingError, .rsa, .padding) (by simp [errorsOf])
        fun _ _ => exec_rsaDec_rejects_width h hK
    · cases hu : unpad1 (i2osp (modExp (bigVal s.rsaC) (bigVal s.rsaD) (bigVal s.rsaN)) s.modulusBytes) with
      | none =>
        exact ends_of_rejects (.paddingError, .rsa, .padding) (by simp [errorsOf])
          fun _ _ => exec_rsaDec_rejects_padding h hK hu
      | some P =>
        exact ends_of_stores pbufBase P
          (w := { s with
                  rsaMb := bigOf (modExp (bigVal s.rsaC) (bigVal s.rsaD) (bigVal s.rsaN))
                  plen := lengthWord P.length })
          { rsaMb := by simp, plen := by simp }
          (storeFrame_of_payload (by simp) (length_of_unpad1 s hu) rfl rfl)
          fun _ _ => exec_rsaDec_completes h hK hu

end Commands

/-- Every command but SRESET ends so from every state. -/
theorem command_ends {i : Instr} (hi : i ≠ .sreset) (s : State) : Ends i s := by
  cases i with
  | sreset => exact absurd rfl hi
  | nop => exact ends_of_completes (w := s) {} {} fun _ _ => rfl
  | aesKeyexp =>
    exact ends_of_completes (w := { s with rk := keyExpansion s.key }) { rk := by simp } {} fun _ _ => rfl
  | aesEncBlock =>
    exact ends_of_completes (w := { s with rk := keyExpansion s.key, data := cipher (keyExpansion s.key) s.data })
      { rk := by simp, data := by simp } {} fun _ _ => rfl
  | aesDecBlock =>
    exact ends_of_completes (w := { s with rk := keyExpansion s.key, data := invCipher (keyExpansion s.key) s.data })
      { rk := by simp, data := by simp } {} fun _ _ => rfl
  | aesSubbytes =>
    exact ends_of_completes (w := { s with data := subBytes s.data }) { data := by simp } {} fun _ _ => rfl
  | aesInvSubbytes =>
    exact ends_of_completes (w := { s with data := invSubBytes s.data }) { data := by simp } {} fun _ _ => rfl
  | aesShiftrows =>
    exact ends_of_completes (w := { s with data := shiftRows s.data }) { data := by simp } {} fun _ _ => rfl
  | aesInvShiftrows =>
    exact ends_of_completes (w := { s with data := invShiftRows s.data }) { data := by simp } {} fun _ _ => rfl
  | aesMixcolumns =>
    exact ends_of_completes (w := { s with data := mixColumns s.data }) { data := by simp } {} fun _ _ => rfl
  | aesInvMixcolumns =>
    exact ends_of_completes (w := { s with data := invMixColumns s.data }) { data := by simp } {} fun _ _ => rfl
  | aesAddroundkey r => exact aesAddroundkey_ends s r
  | aesGfmul c =>
    exact ends_of_completes (w := { s with data := blockOfBytes fun i => gmul (byteAt s.data i) c })
      { data := by simp } {} fun _ _ => rfl
  | rngKey =>
    exact ends_of_completes
      (w := { s with key := blockOfDraws (Rng.bytes 16 s.rng).1, rng := (Rng.bytes 16 s.rng).2 })
      { key := by simp, rng := by simp, count := by simp } {} fun _ _ => rfl
  | rngIv =>
    exact ends_of_completes
      (w := { s with iv := blockOfDraws (Rng.bytes 16 s.rng).1, rng := (Rng.bytes 16 s.rng).2 })
      { iv := by simp, rng := by simp, count := by simp } {} fun _ _ => rfl
  | pkcs7Pad => exact pkcs7Pad_ends s
  | pkcs7Unpad => exact pkcs7Unpad_ends s
  | cbcEncRaw => exact cbcEncRaw_ends s
  | cbcDecRaw => exact cbcDecRaw_ends s
  | cbcEnc => exact cbcEnc_ends s
  | cbcDec => exact cbcDec_ends s
  | mrTest n => exact mrTest_ends s n
  | rsaKeygen n => exact rsaKeygen_ends s n
  | modexp => exact modexp_ends s
  | modinv => exact modinv_ends s
  | pkcs1Pad => exact pkcs1Pad_ends s
  | pkcs1Unpad => exact pkcs1Unpad_ends s
  | rsaEnc => exact rsaEnc_ends s
  | rsaDec => exact rsaDec_ends s

/-- The command runs from the state itself. -/
theorem Ending.exec_eq {i : Instr} {s w : State} {st : Store} {o : Except ErrorReport Bool} (e : Ending i s w st o) :
    exec i s = .next ((w.withMem (st.apply s.mem)).finish o) := e.runs s.mem ⟨rfl, rfl⟩

/-- A state a command other than SRESET answers is the completion of its working copy. -/
theorem exec_eq_finish {i : Instr} {s t : State} (hi : i ≠ .sreset) (h : exec i s = .next t) :
    ∃ (w : State) (st : Store) (o : Except ErrorReport Bool),
      Ending i s w st o ∧ t = (w.withMem (st.apply s.mem)).finish o := by
  obtain ⟨w, st, o, e⟩ := command_ends hi s
  have ht := e.exec_eq.symm.trans h
  exact ⟨w, st, o, e, by injection ht with ht; exact ht.symm⟩

theorem exec_sreset_eq {s t : State} (h : exec .sreset s = .next t) : t = s.applyReset := by
  injection h with h
  exact h.symm

end Sys2Proof.Machine

/-! SUPPORT. Two runs of one ending from different buffers (R35, R36). -/

namespace Sys2Proof.Machine

/-- A stored byte is the same in every memory. -/
theorem Store.lookup_apply_of_covers {st : Store} {a : Nat} (h : st.Covers a) (m m' : Memory) :
    (st.apply m).lookup a = (st.apply m').lookup a := by
  cases st with
  | nothing => exact h.elim
  | bytes base X =>
    have hin : base ≤ a ∧ a < base + X.length := h
    simp only [Store.apply, lookup_write, if_pos hin]

theorem Store.lookup_apply_of_not_covers {st : Store} {a : Nat} (h : ¬ st.Covers a) (m : Memory) :
    (st.apply m).lookup a = m.lookup a := by
  cases st with
  | nothing => rfl
  | bytes base X => exact (lookup_write m base X a).trans (if_neg h)

section TwoRuns

variable {i : Instr} {s w : State} {st : Store} {o : Except ErrorReport Bool}

/-- A byte the command stores ends alike from every memory. -/
theorem readByte_finish_of_covers (w : State) (o : Except ErrorReport Bool) {a : Nat} (h : st.Covers a)
    (m m' : Memory) :
    ((w.withMem (st.apply m)).finish o).readByte a = ((w.withMem (st.apply m')).finish o).readByte a :=
  congrArg (Option.getD · _) (Store.lookup_apply_of_covers h m m')

/-- A byte the command does not store ends as the run found it. -/
theorem Ending.readByte_finish_of_not_covers (e : Ending i s w st o) {a : Nat} (h : ¬ st.Covers a) (m : Memory) :
    ((w.withMem (st.apply m)).finish o).readByte a = (s.withMem m).readByte a := by
  have hlookup := Store.lookup_apply_of_not_covers h m
  have hepoch := e.frame.epoch
  simp only [State.readByte, State.finish, State.withMem, hlookup, hepoch]

/-- A byte that is stored, or is alike in both memories, ends alike. -/
theorem Ending.readByte_finish_congr (e : Ending i s w st o) {a : Nat} {m m' : Memory}
    (h : (s.withMem m).readByte a = (s.withMem m').readByte a ∨ st.Covers a) :
    ((w.withMem (st.apply m)).finish o).readByte a = ((w.withMem (st.apply m')).finish o).readByte a := by
  by_cases hc : st.Covers a
  · exact readByte_finish_of_covers w o hc m m'
  · rw [e.readByte_finish_of_not_covers hc, e.readByte_finish_of_not_covers hc]
    exact h.resolve_right hc

end TwoRuns

theorem readBytes_congr {s t : State} {base n : Nat} (h : ∀ k < n, t.readByte (base + k) = s.readByte (base + k)) :
    t.readBytes base n = s.readBytes base n := by
  refine List.map_congr_left fun k hk => h k ?_
  exact List.mem_range.mp hk

end Sys2Proof.Machine

/-! SUPPORT. The opcode of a decoded word (R93), the places of the register map and host accesses in IDLE (R62 to
R64). -/

namespace Sys2Proof.Machine

theorem eq_of_withoutArg_eq_ok {cw : Word} {i j : Instr} (h : withoutArg cw j = .ok i) : i = j := by
  unfold withoutArg at h
  split_ifs at h
  exact (Except.ok.inj h).symm

/-- A row of the opcode map names the command of its opcode (R93). The four cases apart are the commands with an
argument, and the fifth is the default. -/
theorem opcode_eq_of_decodeOp {cw : Word} {i : Instr} (h : decodeOp cw = .ok i) : i.opcode = fieldOp cw := by
  apply BitVec.eq_of_toNat_eq
  unfold decodeOp at h
  split at h
  case h_12 hop => cases h; exact hop.symm
  case h_13 hop => cases h; exact hop.symm
  case h_22 hop => cases h; exact hop.symm
  case h_23 hop => cases h; exact hop.symm
  case h_30 => cases h
  all_goals
    next hop =>
    obtain rfl := eq_of_withoutArg_eq_ok h
    exact hop.symm

/-- The opcode of a decoded word is its `OP` (R90, R93). -/
theorem opcode_eq_of_decode {cw : Word} {i : Instr} (h : decode cw = .ok i) : i.opcode = fieldOp cw := by
  unfold decode at h
  split_ifs at h
  exact opcode_eq_of_decodeOp h

/-- The words of PBUF and MBUF lie in them (R64). -/
theorem inBuffers_of_placeAt_eq_mem {a o : Nat} (h : placeAt a = .mem o) :
    ∀ b, o ≤ b → b < o + 4 → InBuffers b := by
  intro b h1 h2
  simp only [placeAt, bigPlace, ite_eq_iff, reduceCtorEq, and_false, false_or, or_false, Place.mem.injEq] at h
  simp only [InBuffers, pbufBase, mbufBase, Config.pbufBytes, Config.mbufBytes] at h ⊢
  omega

section Bus

variable {s : State} {off : Offset} {v : Word} {rest : List Input}

/-- The word at a place does not depend on the inputs still to come. -/
theorem wordAtPlace_inputs (s : State) (rest : List Input) (p : Place) :
    State.wordAtPlace { s with inputs := rest } p = s.wordAtPlace p := by
  cases p <;> rfl

/-- A read in IDLE gives the host the word at its place and changes nothing else (R62, R66). -/
theorem step_read_of_idle (hp : s.phase = .idle) (h : s.inputs = .read off :: rest) :
    step s = .next { s with inputs := rest, readData := some (s.wordAtPlace (placeAt off.toNat)) } := by
  have hread : State.readsUnspecified { s with inputs := rest } off = false := by
    simp [State.readsUnspecified, hp, Phase.isBusy]
  rw [step_cons h]
  simp only [State.takeInput, State.hostRead, State.hostReadWord, hread, Bool.false_eq_true, if_false,
    wordAtPlace_inputs]

/-- A write in IDLE takes effect at its place (R62). -/
theorem step_write_of_idle (hp : s.phase = .idle) (h : s.inputs = .write off v :: rest) :
    step s = .next (State.writePlace { s with inputs := rest } (placeAt off.toNat) v) := by
  rw [step_cons h]
  simp [State.takeInput, State.hostWrite, hp, Phase.isBusy]

end Bus

section Places

variable {k : Nat}

theorem placeAt_key (hk : k < 4) : placeAt (0x00020 + 4 * k) = .key k := by
  simp (disch := omega) only [placeAt, if_pos, if_neg, Place.key.injEq]
  omega

theorem placeAt_iv (hk : k < 4) : placeAt (0x00030 + 4 * k) = .iv k := by
  simp (disch := omega) only [placeAt, if_pos, if_neg, Place.iv.injEq]
  omega

theorem placeAt_data (hk : k < 4) : placeAt (0x00040 + 4 * k) = .data k := by
  simp (disch := omega) only [placeAt, if_pos, if_neg, Place.data.injEq]
  omega

theorem placeAt_rk (hk : k < 44) : placeAt (0x00100 + 4 * k) = .rk k := by
  simp (disch := omega) only [placeAt, if_pos, if_neg, Place.rk.injEq]
  omega

theorem placeAt_pbuf (hk : k < 64) : placeAt (0x03400 + 4 * k) = .mem (0x03400 + 4 * k) := by
  simp (disch := omega) only [placeAt, pbufBase, Config.pbufBytes, if_pos, if_neg, Place.mem.injEq]
  omega

theorem placeAt_mbuf (hk : k < 1024) : placeAt (0x10000 + 4 * k) = .mem (0x10000 + 4 * k) := by
  simp (disch := omega) only [placeAt, pbufBase, mbufBase, Config.pbufBytes, Config.mbufBytes, if_pos, if_neg,
    Place.mem.injEq]
  omega

theorem bigPlace_word (reg : BigReg) (hk : k < 64) : bigPlace reg (4 * k) = .big reg k := by
  rw [bigPlace, if_pos (show 4 * k < 256 by omega), Nat.mul_div_cancel_left k (by decide)]

theorem placeAt_big (reg : BigReg) (hk : k < 64) : placeAt (bigWindow reg + 4 * k) = .big reg k := by
  rw [← bigPlace_word reg hk]
  cases reg <;> simp (disch := omega) only [placeAt, bigWindow, if_pos, if_neg, Nat.add_sub_cancel_left]

/-- The word address 1 is CTRL (R64). -/
theorem placeAt_ctrl {a : Nat} (h : a / 4 = 1) : placeAt a = .ctrl := by
  simp (disch := omega) only [placeAt, if_pos, if_neg]

end Places

end Sys2Proof.Machine

/-! SUPPORT. STATUS and CTRL as the host reads them (R22, R23), and words as lanes of bytes (R63, R78). -/

namespace Sys2Proof.Machine

theorem toNat_append_eq_add {n m : Nat} (x : BitVec n) (y : BitVec m) :
    (x ++ y).toNat = x.toNat * 2 ^ m + y.toNat := by
  rw [BitVec.toNat_append, ← Nat.shiftLeft_add_eq_or_of_lt y.isLt, Nat.shiftLeft_eq]

section StatusWord

variable (s : State)

/-- STATUS as a number (R23). -/
theorem statusWord_toNat :
    s.statusWord.toNat =
      s.status.lastop.toNat * 2 ^ 24 + (stageCodeBits s.status.stage).toNat * 2 ^ 16 +
        (engineCodeBits s.status.engine).toNat * 2 ^ 12 + (errorCodeBits s.status.errcode).toNat * 2 ^ 8 +
        s.status.result.toNat * 2 ^ 3 + s.status.err.toNat * 2 ^ 2 + s.status.done.toNat * 2 +
        s.phase.isBusy.toNat := by
  refine (toNat_append_eq_add _ _).trans ?_
  simp only [toNat_append_eq_add, BitVec.toNat_ofBool, BitVec.toNat_ofNat]
  omega

theorem extractLsb'_eq_of_toNat {n a k : Nat} {x : BitVec n} {y : BitVec k} (h : x.toNat / 2 ^ a % 2 ^ k = y.toNat) :
    x.extractLsb' a k = y := by
  apply BitVec.eq_of_toNat_eq
  rw [BitVec.extractLsb'_toNat, Nat.shiftRight_eq_div_pow, h]

theorem getLsbD_eq_of_toNat {n a : Nat} {x : BitVec n} {b : Bool} (h : x.toNat / 2 ^ a % 2 = b.toNat) :
    x.getLsbD a = b := by
  rw [BitVec.getLsbD, Nat.testBit_eq_decide_div_mod_eq, h]
  cases b <;> rfl

/-- Where the fields of STATUS stand (R23). -/
theorem statusWord_fields :
    s.statusWord.extractLsb' 24 8 = s.status.lastop ∧ s.statusWord.extractLsb' 20 4 = 0#4 ∧
    s.statusWord.extractLsb' 16 4 = stageCodeBits s.status.stage ∧
    s.statusWord.extractLsb' 12 4 = engineCodeBits s.status.engine ∧
    s.statusWord.extractLsb' 8 4 = errorCodeBits s.status.errcode ∧ s.statusWord.extractLsb' 4 4 = 0#4 := by
  have hword := statusWord_toNat s
  have hlastop := s.status.lastop.isLt
  have hstage := (stageCodeBits s.status.stage).isLt
  have hengine := (engineCodeBits s.status.engine).isLt
  have herrcode := (errorCodeBits s.status.errcode).isLt
  have hresult := s.status.result.toNat_le
  have herr := s.status.err.toNat_le
  have hdone := s.status.done.toNat_le
  have hbusy := s.phase.isBusy.toNat_le
  refine ⟨?_, ?_, ?_, ?_, ?_, ?_⟩
  all_goals
    apply extractLsb'_eq_of_toNat
    simp only [hword, BitVec.toNat_ofNat]
    omega

/-- The four low bits of STATUS (R23). -/
theorem statusWord_bits :
    s.statusWord.getLsbD 3 = s.status.result ∧ s.statusWord.getLsbD 2 = s.status.err ∧
    s.statusWord.getLsbD 1 = s.status.done ∧ s.statusWord.getLsbD 0 = s.phase.isBusy := by
  have hword := statusWord_toNat s
  have hresult := s.status.result.toNat_le
  have herr := s.status.err.toNat_le
  have hdone := s.status.done.toNat_le
  have hbusy := s.phase.isBusy.toNat_le
  refine ⟨?_, ?_, ?_, ?_⟩
  all_goals
    apply getLsbD_eq_of_toNat
    rw [hword]
    omega

theorem ctrlWord_getLsbD_zero : s.ctrlWord.getLsbD 0 = s.irqEn := by
  simp [State.ctrlWord]

theorem ctrlWord_getLsbD_of_pos {k : Nat} (hk : 1 ≤ k) : s.ctrlWord.getLsbD k = false := by
  have hk0 : k ≠ 0 := by omega
  simp [State.ctrlWord, hk0]

end StatusWord

/-- The number of the four bytes `f 0` to `f 3`, byte 0 least significant (R63). -/
def lanes (f : Nat → Byte) : Nat := (f 0).toNat + (f 1).toNat * 256 + (f 2).toNat * 256 ^ 2 + (f 3).toNat * 256 ^ 3

theorem toNat_eq_lanes (x : Word) : x.toNat = lanes (byteAt x) := by
  have hx := x.isLt
  simp only [lanes, byteAt, BitVec.extractLsb'_toNat, Nat.shiftRight_eq_div_pow]
  omega

theorem lanes_congr {f g : Nat → Byte} (h : ∀ i < 4, f i = g i) : lanes f = lanes g := by
  simp only [lanes, h 0 (by decide), h 1 (by decide), h 2 (by decide), h 3 (by decide)]

/-- Byte `i` of word `k` is byte `4k + i` of the register (R63). -/
theorem byteAt_wordAt {n : Nat} (x : BitVec n) (k i : Nat) (hi : i < 4) :
    byteAt (wordAt x k) i = byteAt x (4 * k + i) := by
  apply BitVec.eq_of_getLsbD_eq
  intro j hj
  have hin : 8 * i + j < 32 := by omega
  have hpos : 32 * k + (8 * i + j) = 8 * (4 * k + i) + j := by ring
  simp only [byteAt, wordAt, BitVec.getLsbD_extractLsb', hj, hin, hpos, decide_true, Bool.true_and]

theorem wordAt_toNat_eq_lanes {n : Nat} (x : BitVec n) (k : Nat) :
    (wordAt x k).toNat = lanes fun i => byteAt x (4 * k + i) := by
  rw [toNat_eq_lanes]
  exact lanes_congr fun i hi => byteAt_wordAt x k i hi

theorem memWord_toNat_eq_lanes (s : State) (o : Nat) : (s.memWord o).toNat = lanes fun i => s.readByte (o + i) := by
  rw [toNat_eq_lanes, State.memWord]
  exact lanes_congr fun i hi => byteAt_wordOfBytes _ i hi

/-- Word `k` of a big-number register (R78). -/
theorem wordAt_toNat {n : Nat} (x : BitVec n) (k : Nat) : (wordAt x k).toNat = x.toNat / 2 ^ (32 * k) % 2 ^ 32 := by
  rw [wordAt, BitVec.extractLsb'_toNat, Nat.shiftRight_eq_div_pow]

end Sys2Proof.Machine

/-! The invariant of memory and STATUS. -/

namespace Sys2Proof.Machine

theorem State.Inv.congr {s t : State} (h : s.Inv) (hp : t.phase = s.phase) (hs : t.status = s.status)
    (hm : t.mem = s.mem) : t.Inv where
  memCanonical := hm ▸ h.memCanonical
  memInBuffers := hm ▸ h.memInBuffers
  notDoneAndErr := hs ▸ h.notDoneAndErr
  busyClears := by rw [hp, hs]; exact h.busyClears
  busyLastop := by rw [hp, hs]; exact h.busyLastop
  noErrNoCodes := hs ▸ h.noErrNoCodes
  errHasReport := by rw [hs]; exact h.errHasReport
  resultOnlyOfMrTest := hs ▸ h.resultOnlyOfMrTest

/-- Settles O24: nothing is listed and STATUS is 0. -/
theorem resetSatisfiesTheInvariant : Obligations.ResetSatisfiesTheInvariant where
  memCanonical := reset_mem_wf
  memInBuffers := nofun
  notDoneAndErr := nofun
  busyClears := nofun
  busyLastop := nofun
  noErrNoCodes _ := ⟨rfl, rfl, rfl⟩
  errHasReport := nofun
  resultOnlyOfMrTest := nofun

theorem applyReset_inv (s : State) : s.applyReset.Inv := resetSatisfiesTheInvariant.congr rfl rfl rfl

/-- A store of bytes of PBUF and MBUF keeps the invariant. -/
theorem State.Inv.writeBytes {s : State} (h : s.Inv) {base : Nat} {X : List Byte}
    (hX : ∀ a, base ≤ a → a < base + X.length → InBuffers a) : (s.writeBytes base X).Inv :=
  { h with
    memCanonical := write_wf _ _ _ h.memCanonical
    memInBuffers := fun c hc => by
      rcases mem_write_bounds _ _ _ c hc with hold | ⟨h1, h2⟩
      · exact h.memInBuffers c hold
      · exact hX c.1 h1 h2 }

/-- R310: an issue clears STATUS but for LASTOP. -/
theorem State.Inv.issue {s : State} (h : s.Inv) (cw : Word) : (s.issue cw).Inv where
  memCanonical := h.memCanonical
  memInBuffers := h.memInBuffers
  notDoneAndErr := nofun
  busyClears _ := ⟨rfl, rfl, rfl⟩
  busyLastop := by
    intro cw' hcw
    cases hcw
    rfl
  noErrNoCodes _ := ⟨rfl, rfl, rfl⟩
  errHasReport := nofun
  resultOnlyOfMrTest := nofun

theorem State.Inv.writePlace {s : State} (h : s.Inv) (a : Nat) (v : Word) : (s.writePlace (placeAt a) v).Inv := by
  cases hp : placeAt a with
  | cmd => exact h.issue v
  | mem o => exact h.writeBytes fun b h1 h2 => inBuffers_of_placeAt_eq_mem hp b h1 (by simpa using h2)
  | big reg k => cases reg <;> exact h.congr rfl rfl rfl
  | id | status | rk | reserved => exact h
  | ctrl | mlen | plen | kgBits | key | iv | data => exact h.congr rfl rfl rfl

theorem State.Inv.hostWrite {s : State} (h : s.Inv) (off : Offset) (v : Word) : (s.hostWrite off v).Inv := by
  unfold State.hostWrite
  dsimp only
  split
  · exact h
  · exact h.writePlace off.toNat v

/-- A running command keeps the invariant: it finds DONE, ERR and RESULT 0 and sets one of DONE and ERR, with a report
of its own row. -/
theorem Ending.inv {i : Instr} {s w : State} {st : Store} {o : Except ErrorReport Bool} {cw : Word}
    (e : Ending i s w st o) (h : s.Inv) (hp : s.phase = .busy cw) (hop : i.opcode = fieldOp cw) :
    ((w.withMem (st.apply s.mem)).finish o).Inv := by
  obtain ⟨hdone, herr, -⟩ := h.busyClears (by rw [hp]; rfl)
  have hlastop : i.opcode = w.status.lastop := by rw [e.frame.status, h.busyLastop cw hp, hop]
  obtain ⟨hcode, hengine, hstage⟩ := h.noErrNoCodes herr
  rw [← e.frame.status] at hdone herr hcode hengine hstage
  have hmem : (st.apply s.mem).wf ∧ ∀ c ∈ st.apply s.mem, InBuffers c.1 := by
    cases st with
    | nothing => exact ⟨h.memCanonical, h.memInBuffers⟩
    | bytes base X =>
      have hw := h.writeBytes fun a h1 h2 => e.store.inBuffers a ⟨h1, h2⟩
      exact ⟨hw.memCanonical, hw.memInBuffers⟩
  have hend := e.mayEnd
  cases o with
  | ok res =>
    exact
      { memCanonical := hmem.1
        memInBuffers := hmem.2
        notDoneAndErr := by simp [State.withMem, herr]
        busyClears := nofun
        busyLastop := nofun
        noErrNoCodes := fun _ => ⟨hcode, hengine, hstage⟩
        errHasReport := by simp [State.withMem, herr]
        resultOnlyOfMrTest := by
          intro hres
          obtain ⟨n, rfl⟩ := hend hres
          exact ⟨rfl, hlastop.symm⟩ }
  | error r =>
    exact
      { memCanonical := hmem.1
        memInBuffers := hmem.2
        notDoneAndErr := by simp [State.withMem, hdone]
        busyClears := nofun
        busyLastop := nofun
        noErrNoCodes := nofun
        errHasReport := fun _ => .inr ⟨i, hlastop, hend⟩
        resultOnlyOfMrTest := nofun }

/-- R92: the report of an illegal word. -/
theorem State.Inv.illegalCommand {s : State} (h : s.Inv) (hdone : s.status.done = false) : s.illegalCommand.Inv where
  memCanonical := h.memCanonical
  memInBuffers := h.memInBuffers
  notDoneAndErr := by simp [State.illegalCommand, hdone]
  busyClears := nofun
  busyLastop := nofun
  noErrNoCodes := nofun
  errHasReport _ := .inl rfl
  resultOnlyOfMrTest := nofun

theorem State.Inv.engineTurn {s t : State} (h : s.Inv) (ht : s.engineTurn = .next t) : t.Inv := by
  cases hp : s.phase with
  | idle =>
    rw [engineTurn_idle hp] at ht
    injection ht with ht
    exact ht ▸ h
  | busy cw =>
    cases hd : decode cw with
    | error err =>
      rw [engineTurn_illegal hp hd] at ht
      injection ht with ht
      exact ht ▸ h.illegalCommand (h.busyClears (by rw [hp]; rfl)).1
    | ok i =>
      rw [engineTurn_busy hp hd] at ht
      by_cases hi : i = .sreset
      · subst hi
        exact exec_sreset_eq ht ▸ applyReset_inv s
      · obtain ⟨w, st, o, e, rfl⟩ := exec_eq_finish hi ht
        exact e.inv h hp (opcode_eq_of_decode hd)

theorem State.Inv.takeInput {s t : State} (h : s.Inv) {x : Input} (ht : s.takeInput x = .next t) : t.Inv := by
  cases x with
  | read off =>
    injection ht with ht
    exact ht ▸ h.congr rfl rfl rfl
  | write off v =>
    injection ht with ht
    exact ht ▸ h.hostWrite off v
  | engine => exact h.engineTurn ht
  | hardwareReset draws =>
    injection ht with ht
    exact ht ▸ applyReset_inv _

/-- Settles O25: the invariant is kept by the engine's turn and by each input. -/
theorem stepKeepsTheInvariant : Obligations.StepKeepsTheInvariant := by
  intro s t h ht
  cases hin : s.inputs with
  | nil =>
    rw [step_nil hin] at ht
    exact h.engineTurn ht
  | cons x rest =>
    rw [step_cons hin] at ht
    have hrest : State.Inv { s with inputs := rest } := h.congr rfl rfl rfl
    exact hrest.takeInput ht

end Sys2Proof.Machine

/-! What a command changes and what it reads. -/

namespace Sys2Proof.Machine

/-- Settles O10: the registers of `command_ends`, command by command; SRESET alone is not one of them. -/
theorem engineWritesOnlyItsRegisters : Obligations.EngineWritesOnlyItsRegisters := by
  intro i s t h
  by_cases hi : i = .sreset
  · subst hi
    obtain rfl := exec_sreset_eq h
    exact ⟨rfl, rfl, rfl, rfl, le_refl _, (absurd rfl ·), (absurd rfl ·)⟩
  · obtain ⟨w, st, o, e, rfl⟩ := exec_eq_finish hi h
    have f := e.frame
    have hkeys : w.rsaN ≠ s.rsaN ∨ w.rsaE ≠ s.rsaE ∨ w.rsaD ≠ s.rsaD → ∃ n, i = .rsaKeygen n := by
      rintro (hN | hE | hD)
      · exact f.rsaN hN
      · exact f.rsaE hE
      · exact f.rsaD hD
    have hmem (hm : st.apply s.mem ≠ s.mem) : st ≠ .nothing := by
      rintro rfl
      exact hm rfl
    exact ⟨f.inputs, f.readData, f.kgMaxCandidates, f.busyReads, f.count, f.rng, fun _ =>
      ⟨f.irqEn, f.kgBits, f.a, f.b, f.m, f.epoch, f.data, f.key, f.iv, f.r, hkeys, f.rsaC, f.rsaMb, f.plen, f.mlen,
        fun hm => e.store.storer (hmem hm), f.rk⟩⟩

/-- Settles O12: both runs have the working copy and the store of one ending. -/
theorem bytesBeyondTheLengthsAreNeverRead : Obligations.BytesBeyondTheLengthsAreNeverRead := by
  intro i s other hmessage hpayload
  by_cases hi : i = .sreset
  · subst hi
    exact ⟨s.applyReset, s.applyReset, rfl, rfl, rfl, fun _ _ => rfl, fun _ _ => rfl, (absurd rfl ·)⟩
  · obtain ⟨w, st, o, e⟩ := command_ends hi s
    refine ⟨_, _, e.exec_eq, e.runs other ⟨readBytes_congr hmessage, readBytes_congr hpayload⟩, rfl, ?_, ?_, ?_⟩
    · intro k hk
      exact e.readByte_finish_congr ((e.store.message k hk).imp_left (hmessage k))
    · intro k hk
      exact e.readByte_finish_congr ((e.store.payload k hk).imp_left (hpayload k))
    · intro _ a
      by_cases hc : st.Covers a
      · exact .inl (readByte_finish_of_covers w o hc other s.mem)
      · exact .inr ⟨e.readByte_finish_of_not_covers hc s.mem, e.readByte_finish_of_not_covers hc other⟩

end Sys2Proof.Machine

/-! The registers as the host reads and writes them. -/

namespace Sys2Proof.Machine

/-- Settles O17: the place of the offset, then the lanes of its word. -/
theorem hostReadsLittleEndianLanes : Obligations.HostReadsLittleEndianLanes := by
  intro s off rest hp hin
  refine ⟨_, _, step_read_of_idle hp hin, rfl, fun base size f hplace k hk hoff => ?_, fun reg k hk hoff => ?_⟩
  · rw [hoff]
    rcases hplace with ⟨rfl, rfl, rfl⟩ | ⟨rfl, rfl, rfl⟩ | ⟨rfl, rfl, rfl⟩ | ⟨rfl, rfl, rfl⟩ | ⟨rfl, rfl, rfl⟩ |
      ⟨rfl, rfl, rfl⟩
    · rw [placeAt_key (by omega)]
      exact wordAt_toNat_eq_lanes s.key k
    · rw [placeAt_iv (by omega)]
      exact wordAt_toNat_eq_lanes s.iv k
    · rw [placeAt_data (by omega)]
      exact wordAt_toNat_eq_lanes s.data k
    · rw [placeAt_rk (by omega)]
      exact wordAt_toNat_eq_lanes s.rk k
    · rw [placeAt_pbuf (by omega)]
      exact memWord_toNat_eq_lanes s (0x03400 + 4 * k)
    · rw [placeAt_mbuf (by omega)]
      exact memWord_toNat_eq_lanes s (0x10000 + 4 * k)
  · rw [hoff, placeAt_big reg hk]
    exact wordAt_toNat (s.big reg) k

/-- Settles O18: the word at each place, with the fields of STATUS as in `statusWord_fields` and `statusWord_bits`. -/
theorem controlRegistersReadAndWrite : Obligations.ControlRegistersReadAndWrite := by
  intro s off v rest hp
  have hplace {a : Nat} {p : Place} (hoff : off.toNat = a) (ha : placeAt a = p) : placeAt off.toNat = p :=
    hoff ▸ ha
  refine ⟨fun hin => ⟨_, _, step_read_of_idle hp hin, rfl, ?_⟩, fun hin => ?_⟩
  · refine ⟨fun h => ?_, fun h => ?_, fun h => ?_, fun h => ?_, fun h => ?_, fun h => ?_⟩
    · rw [hplace h (p := .id) rfl]
      rfl
    · rw [hplace h (p := .ctrl) rfl]
      exact ⟨ctrlWord_getLsbD_zero s, fun k hk => ctrlWord_getLsbD_of_pos s hk⟩
    · rw [hplace h (p := .status) rfl]
      obtain ⟨hlastop, hgap, hstage, hengine, herrcode, hlow⟩ := statusWord_fields s
      obtain ⟨hresult, herr, hdone, hbusy⟩ := statusWord_bits s
      rw [hp] at hbusy
      exact ⟨hlastop, hgap, hstage, hengine, herrcode, hlow, hresult, herr, hdone, hbusy⟩
    · rw [hplace h (p := .mlen) rfl, State.wordAtPlace]
    · rw [hplace h (p := .plen) rfl, State.wordAtPlace]
    · rw [hplace h (p := .kgBits) rfl, State.wordAtPlace]
  · rw [step_write_of_idle hp hin]
    refine ⟨fun h => ?_, fun h => ?_, fun h => ?_, fun h => ?_⟩
    · rw [hplace h (p := .ctrl) rfl, State.writePlace]
    · rw [hplace h (p := .mlen) rfl, State.writePlace]
    · rw [hplace h (p := .plen) rfl, State.writePlace]
    · rw [hplace h (p := .kgBits) rfl, State.writePlace]

end Sys2Proof.Machine

/-! The interrupt output and the reset values. -/

namespace Sys2Proof.Machine

/-- Settles O20: a command leaves IRQ_EN and one of DONE and ERR, and an issue clears both. -/
theorem irqFollowsControlAndStatus : Obligations.IrqFollowsControlAndStatus := by
  refine ⟨fun s => ?_, fun i s t h => ?_, fun s cw => ?_, fun s t off v rest hin hoff h => ?_, rfl⟩
  · obtain ⟨-, herr, hdone, -⟩ := statusWord_bits s
    rw [ctrlWord_getLsbD_zero, hdone, herr, State.irq]
  · by_cases hi : i = .sreset
    · subst hi
      obtain rfl := exec_sreset_eq h
      rfl
    · obtain ⟨w, st, o, e, rfl⟩ := exec_eq_finish hi h
      have hirq := e.frame.irqEn
      cases o <;> simp [State.irq, State.withMem, hirq, hi]
  · simp [State.irq]
  · rw [step_cons hin, State.takeInput, State.hostWrite, placeAt_ctrl hoff] at h
    simp only [decide_true, Bool.not_true, Bool.and_false, Bool.false_eq_true, if_false] at h
    injection h with h
    subst h
    rfl

theorem resetValues_reset : ResetValues State.reset := by
  refine ⟨rfl, rfl, rfl, by decide, rfl, rfl, rfl, fun k _ => ?_, fun reg => ?_, rfl⟩
  · simp [State.reset, byteAt]
  · cases reg <;> rfl

/-- R350: the fields R45 gives a value are those of the reset state. -/
theorem resetValues_applyReset (s : State) : ResetValues s.applyReset := resetValues_reset

/-- In IDLE no command is abandoned, so the reset input consumes no draw (U10). -/
theorem hardwareReset_of_idle {s : State} (hp : s.phase = .idle) (draws : Nat) :
    s.hardwareReset draws = s.applyReset := by
  have hdraws : s.drawsOfCommand = 0 := by simp [State.drawsOfCommand, engineTurn_idle hp]
  simp [State.hardwareReset, hdraws, Rng.skip]

/-- Settles O21: SRESET and the reset input in IDLE are both `State.applyReset`. -/
theorem resetHoldsTheSpecifiedValues : Obligations.ResetHoldsTheSpecifiedValues := by
  refine ⟨resetValues_reset, fun s t => ⟨fun h => ?_, fun draws rest hp hin h => ?_⟩⟩
  · obtain rfl := exec_sreset_eq h
    exact ⟨resetValues_applyReset s, rfl⟩
  · rw [step_cons hin, State.takeInput, hardwareReset_of_idle (s := { s with inputs := rest }) hp] at h
    injection h with h
    subst h
    exact ⟨resetValues_applyReset _, rfl⟩

end Sys2Proof.Machine

/-! SUPPORT. Where the places of the register map stand (R64), and that `off[1:0]` is ignored (R62). -/

namespace Sys2Proof.Machine

section WordAddress

variable {a b c : Nat}

theorem sub_div_four_congr (h : a / 4 = b / 4) (hc : c % 4 = 0) : (a - c) / 4 = (b - c) / 4 := by omega

/-- A row of the register map begins at a word (R64). -/
theorem ite_lt_word_congr {p p' q q' : Place} (h : a / 4 = b / 4) (hc : c % 4 = 0) (hp : p = p') (hq : q = q') :
    (if a < c then p else q) = if b < c then p' else q' :=
  if_congr (by omega) hp hq

theorem bigPlace_congr (reg : BigReg) (h : a / 4 = b / 4) : bigPlace reg a = bigPlace reg b :=
  ite_lt_word_congr h rfl (congrArg _ h) rfl

/-- The place of an offset is the place of its word (R62). -/
theorem placeAt_congr (h : a / 4 = b / 4) : placeAt a = placeAt b := by
  have hbig (reg : BigReg) {c : Nat} (hc : c % 4 = 0) : bigPlace reg (a - c) = bigPlace reg (b - c) :=
    bigPlace_congr reg (sub_div_four_congr h hc)
  have hmem : a - a % 4 = b - b % 4 := by omega
  unfold placeAt
  repeat refine ite_lt_word_congr h rfl (by simp (disch := decide) only [sub_div_four_congr h, hbig, hmem]) ?_
  rfl

end WordAddress

/-- The place `p` is at the word address `w`, that is at the offsets `4w` to `4w + 3` (R64). -/
def Place.StandsAt (p : Place) (w : Nat) : Prop :=
  match p with
  | .id => w = 0
  | .ctrl => w = 1
  | .status => w = 2
  | .cmd => w = 3
  | .mlen => w = 4
  | .plen => w = 5
  | .kgBits => w = 6
  | .key k => k < 4 ∧ 4 * w = 0x00020 + 4 * k
  | .iv k => k < 4 ∧ 4 * w = 0x00030 + 4 * k
  | .data k => k < 4 ∧ 4 * w = 0x00040 + 4 * k
  | .rk k => k < 44 ∧ 4 * w = 0x00100 + 4 * k
  | .big reg k => k < 64 ∧ 4 * w = bigWindow reg + 4 * k
  | .mem o => InBuffers o ∧ o = 4 * w
  | .reserved => ReservedOffset (4 * w) ∨ 0x20000 ≤ 4 * w

theorem standsAt_ite {c : Prop} [Decidable c] {p q : Place} {w : Nat} :
    (if c then p else q).StandsAt w ↔ (c → p.StandsAt w) ∧ (¬ c → q.StandsAt w) := by
  by_cases h : c <;> simp [h]

/-- Every offset names the place that stands at its word address (R62, R64). -/
theorem placeAt_standsAt (a : Nat) : (placeAt a).StandsAt (a / 4) := by
  simp only [placeAt, bigPlace, standsAt_ite]
  simp only [Place.StandsAt, bigWindow, InBuffers, ReservedOffset, pbufBase, mbufBase, Config.bigBytes,
    Config.pbufBytes, Config.mbufBytes]
  omega

theorem placeAt_eq_ctrl_iff {a : Nat} : placeAt a = .ctrl ↔ a / 4 = 1 := by
  refine ⟨fun h => ?_, placeAt_ctrl⟩
  have hstands := placeAt_standsAt a
  rwa [h] at hstands

/-- The offsets that name nothing (R64, R65). -/
theorem placeAt_reserved {a : Nat} (h : ReservedOffset a) : placeAt a = .reserved := by
  have hstands := placeAt_standsAt a
  unfold ReservedOffset at h
  generalize placeAt a = p at hstands ⊢
  cases p with
  | reserved => rfl
  | big reg k => cases reg <;> simp only [Place.StandsAt, bigWindow] at hstands <;> omega
  | mem o =>
    simp only [Place.StandsAt, InBuffers, pbufBase, mbufBase, Config.pbufBytes, Config.mbufBytes] at hstands
    omega
  | _ =>
    simp only [Place.StandsAt] at hstands
    omega

/-- The places a host write of a word is held at and read back from (R64, R65); of CTRL one bit is held (R22). -/
def Place.isReadWrite : Place → Bool
  | .mlen | .plen | .kgBits | .key _ | .iv _ | .data _ | .big _ _ | .mem _ => true
  | .id | .ctrl | .status | .cmd | .rk _ | .reserved => false

theorem placeAt_isReadWrite {a : Nat}
    (h : (0x00010 ≤ a ∧ a < 0x0001C) ∨ (0x00020 ≤ a ∧ a < 0x00050) ∨
      (0x01000 ≤ a ∧ a < 0x03800 ∧ a % 0x400 < 256) ∨ (0x10000 ≤ a ∧ a < 0x11000)) :
    (placeAt a).isReadWrite = true := by
  have hstands := placeAt_standsAt a
  generalize placeAt a = p at hstands ⊢
  cases p with
  | mlen | plen | kgBits | key | iv | data | big | mem => rfl
  | _ =>
    simp only [Place.StandsAt, ReservedOffset] at hstands
    omega

end Sys2Proof.Machine

/-! SUPPORT. Host writes at a place: what is read back, what stays, and the same write done twice (R63 to R66). -/

namespace Sys2Proof.Machine

theorem big_setBig (s : State) (reg reg' : BigReg) (x : BitVec Config.bigBits) :
    (s.setBig reg x).big reg' = if reg' = reg then x else s.big reg' := by
  cases reg <;> cases reg' <;> rfl

theorem setBig_setBig (s : State) (reg : BigReg) (x y : BitVec Config.bigBits) :
    (s.setBig reg x).setBig reg y = s.setBig reg y := by
  cases reg <;> rfl

/-- A word written twice is written once. -/
theorem setWordAt_setWordAt {n : Nat} (x : BitVec n) (k : Nat) (v : Word) :
    setWordAt (setWordAt x k v) k v = setWordAt x k v := by
  apply BitVec.eq_of_getLsbD_eq
  intro j hj
  simp only [setWordAt, BitVec.getLsbD_or, BitVec.getLsbD_and]
  cases (~~~((0xFFFFFFFF#32).setWidth n <<< (32 * k))).getLsbD j <;> simp

theorem filter_cellsAt_eq_nil {base : Nat} {X : List Byte} {p : Nat → Bool}
    (h : ∀ a, base ≤ a → a < base + X.length → p a = false) :
    (cellsAt base X).filter (fun c => p c.1) = [] := by
  rw [List.filter_eq_nil_iff]
  intro c hc
  obtain ⟨h1, h2⟩ := cellsAt_bounds base X c hc
  simp [h c.1 h1 h2]

/-- What a test that no written address passes leaves of a written memory: cells of the old one. -/
theorem Memory.filter_write (m : Memory) {base : Nat} {X : List Byte} {p : Nat → Bool}
    (h : ∀ a, base ≤ a → a < base + X.length → p a = false) :
    (m.write base X).filter (fun c => p c.1) =
      m.filter (fun c => p c.1 && decide (c.1 < base)) ++
        m.filter (fun c => p c.1 && decide (base + X.length ≤ c.1)) := by
  simp only [Memory.write, List.filter_append, List.filter_filter, filter_cellsAt_eq_nil h, List.append_nil]

/-- A byte string written twice is written once: the second write keeps the cells around the string. -/
theorem Memory.write_write (m : Memory) (base : Nat) (X : List Byte) :
    (m.write base X).write base X = m.write base X := by
  have hlow : (m.write base X).filter (fun c => decide (c.1 < base)) = m.filter (fun c => decide (c.1 < base)) := by
    rw [m.filter_write (p := fun a => decide (a < base)) (by simp; omega)]
    simp only [Bool.and_self, List.append_right_eq_self, List.filter_eq_nil_iff, Bool.and_eq_true, decide_eq_true_eq]
    omega
  have hhigh : (m.write base X).filter (fun c => decide (base + X.length ≤ c.1)) =
      m.filter (fun c => decide (base + X.length ≤ c.1)) := by
    rw [m.filter_write (p := fun a => decide (base + X.length ≤ a)) (by simp)]
    simp only [Bool.and_self, List.append_left_eq_self, List.filter_eq_nil_iff, Bool.and_eq_true, decide_eq_true_eq]
    omega
  rw [Memory.write, hlow, hhigh, ← Memory.write]

theorem memWord_writeBytes_same (s : State) (o : Nat) (v : Word) :
    (s.writeBytes o ((List.range 4).map (byteAt v))).memWord o = v := by
  apply word_ext
  intro i hi
  rw [State.memWord, byteAt_wordOfBytes _ i hi, readByte_writeBytes_inside _ _ _ _ (by simpa using hi)]
  simp

theorem memWord_writeBytes_other (s : State) {o o' : Nat} (v : Word) (h : o' + 4 ≤ o ∨ o + 4 ≤ o') :
    (s.writeBytes o ((List.range 4).map (byteAt v))).memWord o' = s.memWord o' := by
  apply word_ext
  intro i hi
  rw [State.memWord, State.memWord, byteAt_wordOfBytes _ i hi, byteAt_wordOfBytes _ i hi]
  exact readByte_writeBytes_outside _ _ _ _ (by simp; omega)

section Writes

variable {s : State} {p q : Place} {w w' : Nat} {v : Word}

/-- Reading the place just written (R66). -/
theorem wordAtPlace_writePlace_same (hp : p.StandsAt w) (h : p.isReadWrite = true) :
    (s.writePlace p v).wordAtPlace p = v := by
  cases p with
  | mlen | plen | kgBits => rfl
  | key k | iv k | data k =>
    obtain ⟨hk, -⟩ := hp
    exact wordAt_setWordAt_same _ _ _ (by omega)
  | big reg k =>
    obtain ⟨hk, -⟩ := hp
    rw [State.writePlace, State.wordAtPlace, big_setBig, if_pos rfl]
    exact wordAt_setWordAt_same _ _ _ (by simp only [Config.bigBits]; omega)
  | mem o => exact memWord_writeBytes_same s o v
  | id | ctrl | status | cmd | rk | reserved => cases h

theorem wordAtPlace_setBig_other {reg : BigReg} {k : Nat} (h : q ≠ .big reg k) :
    State.wordAtPlace (s.setBig reg (setWordAt (s.big reg) k v)) q = s.wordAtPlace q := by
  cases q with
  | big reg' l =>
    rw [State.wordAtPlace, State.wordAtPlace, big_setBig]
    split
    · next hreg =>
      subst hreg
      exact wordAt_setWordAt_other _ _ _ _ (by rintro rfl; exact h rfl)
    · rfl
  | _ => cases reg <;> rfl

/-- Words of one register at different word addresses have different numbers. -/
theorem index_ne_of_word_ne {base k l : Nat} (hk : 4 * w = base + 4 * k) (hl : 4 * w' = base + 4 * l) (hw : w ≠ w') :
    k ≠ l := by omega

/-- Reading any other place than the one written, CMD apart, which issues a command (R66). -/
theorem wordAtPlace_writePlace_other (hcmd : p ≠ .cmd) (hp : p.StandsAt w) (hq : q.StandsAt w') (hw : w ≠ w') :
    (s.writePlace p v).wordAtPlace q = s.wordAtPlace q := by
  cases p with
  | id | status | rk | reserved => rfl
  | cmd => exact absurd rfl hcmd
  | ctrl =>
    cases q with
    | ctrl => exact absurd (hp.trans hq.symm) hw
    | _ => rfl
  | mlen =>
    cases q with
    | mlen => exact absurd (hp.trans hq.symm) hw
    | _ => rfl
  | plen =>
    cases q with
    | plen => exact absurd (hp.trans hq.symm) hw
    | _ => rfl
  | kgBits =>
    cases q with
    | kgBits => exact absurd (hp.trans hq.symm) hw
    | _ => rfl
  | key k =>
    cases q with
    | key l => exact wordAt_setWordAt_other _ _ _ _ (index_ne_of_word_ne hp.2 hq.2 hw)
    | _ => rfl
  | iv k =>
    cases q with
    | iv l => exact wordAt_setWordAt_other _ _ _ _ (index_ne_of_word_ne hp.2 hq.2 hw)
    | _ => rfl
  | data k =>
    cases q with
    | data l => exact wordAt_setWordAt_other _ _ _ _ (index_ne_of_word_ne hp.2 hq.2 hw)
    | _ => rfl
  | big reg k =>
    refine wordAtPlace_setBig_other ?_
    rintro rfl
    exact index_ne_of_word_ne hp.2 hq.2 hw rfl
  | mem o =>
    cases q with
    | mem o' =>
      obtain ⟨-, rfl⟩ := hp
      obtain ⟨-, rfl⟩ := hq
      exact memWord_writeBytes_other s v (by omega)
    | _ => rfl

/-- A write does not depend on the inputs still to come, nor touch them. -/
theorem writePlace_inputs (s : State) (rest : List Input) (p : Place) (v : Word) :
    State.writePlace { s with inputs := rest } p v = { s.writePlace p v with inputs := rest } := by
  cases p with
  | big reg k => cases reg <;> rfl
  | _ => rfl

/-- Only a write to CMD starts a command (R310). -/
theorem writePlace_phase (hcmd : p ≠ .cmd) : (s.writePlace p v).phase = s.phase := by
  cases p with
  | cmd => exact absurd rfl hcmd
  | big reg k => cases reg <;> rfl
  | _ => rfl

/-- No host write changes RK (R65, R66). -/
theorem writePlace_rk (s : State) (p : Place) (v : Word) : (s.writePlace p v).rk = s.rk := by
  cases p with
  | big reg k => cases reg <;> rfl
  | _ => rfl

/-- A write done twice does what it does once (R66). -/
theorem writePlace_writePlace (s : State) (p : Place) (v : Word) :
    (s.writePlace p v).writePlace p v = s.writePlace p v := by
  cases p with
  | key | iv | data => simp only [State.writePlace, setWordAt_setWordAt]
  | big reg k => simp only [State.writePlace, big_setBig, if_true, setBig_setBig, setWordAt_setWordAt]
  | mem o => simp only [State.writePlace, State.writeBytes, Memory.write_write]
  | _ => rfl

end Writes

end Sys2Proof.Machine

/-! Host accesses: the BUSY window, reserved offsets, and what is read back (R62 to R70). -/

namespace Sys2Proof.Machine

section Accesses

variable {s : State} {off : Offset} {v : Word} {rest : List Input}

/-- `step_write_of_idle` with the write taken before the input. -/
theorem step_write_next (hp : s.phase = .idle) (h : s.inputs = .write off v :: rest) :
    step s = .next { s.writePlace (placeAt off.toNat) v with inputs := rest } := by
  rw [step_write_of_idle hp h, writePlace_inputs]

/-- A write that its place already holds changes nothing (R66). -/
theorem step_write_of_fixed (hp : s.phase = .idle) (h : s.writePlace (placeAt off.toNat) v = s) :
    step { s with inputs := .write off v :: rest } = .next { s with inputs := rest } := by
  refine (step_write_of_idle (s := { s with inputs := .write off v :: rest }) hp rfl).trans ?_
  exact congrArg Host.Outcome.next ((writePlace_inputs s rest _ v).trans (by rw [h]))

/-- In the BUSY window only a write to CTRL takes effect (R70 (a), (b)). -/
theorem step_write_of_busy {cw : Word} (hp : s.phase = .busy cw) (h : s.inputs = .write off v :: rest) :
    step s = .next (if placeAt off.toNat = .ctrl then { s with inputs := rest, irqEn := v.getLsbD 0 }
      else { s with inputs := rest }) := by
  rw [step_cons h, State.takeInput, State.hostWrite]
  by_cases hc : placeAt off.toNat = .ctrl
  · simp [hc, State.writePlace]
  · simp [hc, hp, Phase.isBusy]

/-- ID, CTRL and STATUS are read in either phase (R70 (c)). -/
theorem hostReadWord_of_readable (h : (placeAt off.toNat).readableWhileBusy = true) :
    s.hostReadWord off = s.wordAtPlace (placeAt off.toNat) := by
  simp [State.hostReadWord, State.readsUnspecified, h]

theorem ctrlWord_eq_ite (s : State) : s.ctrlWord = if s.irqEn then 1#32 else 0#32 := by
  unfold State.ctrlWord
  cases s.irqEn <;> rfl

/-- Two offsets of one word are one offset to a read (R62). -/
theorem hostRead_congr {off' : Offset} (h : off.toNat / 4 = off'.toNat / 4) : s.hostRead off = s.hostRead off' := by
  have hkind : s.readsUnspecified off = s.readsUnspecified off' := by
    rw [State.readsUnspecified, State.readsUnspecified, placeAt_congr h]
  have hword : s.hostReadWord off = s.hostReadWord off' := by
    rw [State.hostReadWord, State.hostReadWord, hkind, placeAt_congr h]
  rw [State.hostRead, State.hostRead, hkind, hword]

/-- Two offsets of one word are one offset to a write (R62). -/
theorem hostWrite_congr {off' : Offset} (h : off.toNat / 4 = off'.toNat / 4) :
    s.hostWrite off v = s.hostWrite off' v := by
  rw [State.hostWrite, State.hostWrite, placeAt_congr h]

/-- Writes at reserved and read-only places are ignored (R65). -/
theorem writePlace_eq_self {a : Nat}
    (h : ReservedOffset a ∨ a < 0x00004 ∨ (0x00008 ≤ a ∧ a < 0x0000C) ∨ (0x00100 ≤ a ∧ a < 0x001B0)) :
    s.writePlace (placeAt a) v = s := by
  rcases h with h | h | h | h
  · rw [placeAt_reserved h, State.writePlace]
  · rw [placeAt_congr (b := 0x00000) (by omega)]
    rfl
  · rw [placeAt_congr (b := 0x00008) (by omega)]
    rfl
  · rw [placeAt_congr (b := 0x00100 + 4 * ((a - 0x00100) / 4)) (by omega), placeAt_rk (by omega), State.writePlace]

/-- Reserved places and CMD read 0 (R65). -/
theorem wordAtPlace_eq_zero {a : Nat} (h : ReservedOffset a ∨ (0x0000C ≤ a ∧ a < 0x00010)) :
    s.wordAtPlace (placeAt a) = 0#32 := by
  rcases h with h | h
  · rw [placeAt_reserved h, State.wordAtPlace]
  · rw [placeAt_congr (b := 0x0000C) (by omega)]
    rfl

theorem placeAt_ne_cmd {a : Nat} (h : ¬ (0x0000C ≤ a ∧ a < 0x00010)) : placeAt a ≠ .cmd := by
  intro hc
  have hstands := placeAt_standsAt a
  rw [hc, Place.StandsAt] at hstands
  omega

end Accesses

/-- Settles O13: `step_write_of_busy`, and each readable word by its place. -/
theorem busyWindowAccesses : Obligations.BusyWindowAccesses := by
  intro s cw hp
  refine ⟨fun off v rest hin => ?_, fun off rest hin => ?_⟩
  · simp only [step_write_of_busy hp hin, placeAt_eq_ctrl_iff]
  · have hword (p : Place) (hplace : placeAt off.toNat = p) (hr : p.readableWhileBusy = true) :
        State.hostReadWord { s with inputs := rest } off = s.wordAtPlace p := by
      rw [hostReadWord_of_readable (hplace ▸ hr), hplace, wordAtPlace_inputs]
    refine ⟨_, _, step_cons hin, rfl, fun h => ?_, fun h => ?_, fun h => ?_⟩
    · exact hword .id (placeAt_congr (b := 0x00000) h) rfl
    · rw [hword .ctrl (placeAt_ctrl h) rfl]
      exact ctrlWord_eq_ite s
    · rw [hword .status (placeAt_congr (b := 0x00008) h) rfl]
      exact ⟨rfl, (statusWord_bit0 s).trans (by rw [hp]; rfl)⟩

/-- Settles O14: the place of each such offset, then the step of an access in IDLE. -/
theorem reservedOffsetsReadZeroAndIgnoreWrites : Obligations.ReservedOffsetsReadZeroAndIgnoreWrites := by
  intro s off v rest
  refine ⟨fun hp hin h => ?_, fun hp hin h => ?_, ?_⟩
  · rw [step_read_of_idle hp hin, wordAtPlace_eq_zero h]
  · rw [step_write_of_idle hp hin, writePlace_eq_self h]
  · rintro (hin | hin)
    · exact ⟨_, step_cons hin⟩
    · exact ⟨_, step_cons hin⟩

/-- Settles O15: both offsets name one place. -/
theorem lowAddressBitsAreIgnored : Obligations.LowAddressBitsAreIgnored := by
  intro s off off' v rest h
  refine ⟨?_, ?_⟩
  · rw [step_cons rfl, step_cons rfl, State.takeInput, State.takeInput, hostRead_congr h]
  · rw [step_cons rfl, step_cons rfl, State.takeInput, State.takeInput, hostWrite_congr h]

/-- Settles O16: the two reads are of the place written or of one at another word address. -/
theorem writtenWordsReadBack : Obligations.WrittenWordsReadBack := by
  intro s off off' v rest hp hoff hin
  have hrw := placeAt_isReadWrite hoff
  have hstands := placeAt_standsAt off.toNat
  have hcmd : placeAt off.toNat ≠ .cmd := by
    intro hc
    rw [hc] at hrw
    cases hrw
  refine ⟨_, _, _, step_write_next hp hin, step_read_of_idle ((writePlace_phase hcmd).trans hp) rfl,
    step_read_of_idle hp rfl, fun h => congrArg some ?_, fun h => congrArg some ?_⟩
  · rw [wordAtPlace_inputs, placeAt_congr h]
    exact wordAtPlace_writePlace_same hstands hrw
  · rw [wordAtPlace_inputs, wordAtPlace_inputs]
    exact wordAtPlace_writePlace_other hcmd hstands (placeAt_standsAt off'.toNat) (Ne.symm h)

/-- Settles O19: `step_read_of_idle`, and the second write finds the first in place. -/
theorem accessesHaveNoOtherSideEffect : Obligations.AccessesHaveNoOtherSideEffect := by
  intro s off v rest hp
  refine ⟨fun hin => ⟨_, step_read_of_idle hp hin, rfl⟩, fun hoff hin => ?_⟩
  have hphase := (writePlace_phase (v := v) (placeAt_ne_cmd hoff)).trans hp
  exact ⟨_, _, step_write_next hp hin, step_write_of_fixed hphase (writePlace_writePlace s _ v), rfl,
    fun _ _ => writePlace_rk s _ v⟩

/-- Settles O40: a draw is its answer fitted into its range. -/
theorem drawsAreAnsweredInRange : Obligations.DrawsAreAnsweredInRange := by
  intro g
  refine ⟨fun lo hi h => ⟨?_, fun x rest hq h1 h2 => ?_⟩, fun k => ?_, nonzeroByte_ne_zero g⟩
  · obtain ⟨hlo, hhi⟩ := fitRange_bounds lo hi g.answer.1 h
    exact ⟨hlo, hhi, count_range g lo hi⟩
  · obtain ⟨queue, count⟩ := g
    subst hq
    exact range_of_queue rest count h1 h2
  · exact Nat.lt_of_le_pred (Nat.two_pow_pos k) (fitRange_bounds 0 (2 ^ k - 1) g.answer.1 (Nat.zero_le _)).2

end Sys2Proof.Machine

/-! SUPPORT. A command word and the command it stands for (R90 to R93): the decoder reads a command from a word exactly
where the word is the command's encoding. -/

namespace Sys2Proof

/-- The row of R93 with the argument `a` in place of the command's own; a command that takes none is left as it is. -/
def Instr.withArg (i : Instr) (a : Byte) : Instr :=
  match i with
  | .aesAddroundkey _ => .aesAddroundkey a
  | .aesGfmul _ => .aesGfmul a
  | .mrTest _ => .mrTest a
  | .rsaKeygen _ => .rsaKeygen a
  | i => i

@[simp] theorem withArg_arg_self (i : Instr) : i.withArg i.arg = i := by cases i <;> rfl

@[simp] theorem opcode_withArg (i : Instr) (a : Byte) : (i.withArg a).opcode = i.opcode := by cases i <;> rfl

theorem arg_withArg {i : Instr} {a : Byte} (h : i.takesArg = true ∨ a = 0#8) : (i.withArg a).arg = a := by
  obtain h | rfl := h
  · cases i with
    | aesAddroundkey | aesGfmul | mrTest | rsaKeygen => rfl
    | _ => cases h
  · cases i <;> rfl

theorem takesArg_or_arg_eq_zero (i : Instr) : i.takesArg = true ∨ i.arg = 0#8 := by
  cases i with
  | aesAddroundkey | aesGfmul | mrTest | rsaKeygen => exact .inl rfl
  | _ => exact .inr rfl

/-- What the opcode map reads from a word whose `OP` is the opcode of `i` (R91 to R93). -/
theorem decodeOp_of_opcode {cw : Word} {i : Instr} (h : i.opcode = fieldOp cw) :
    decodeOp cw = if i.takesArg = true ∨ fieldArg cw = 0#8 then .ok (i.withArg (fieldArg cw))
      else .error (.argumentNotTaken (fieldOp cw)) := by
  unfold decodeOp withoutArg
  rw [← h]
  cases i <;> simp [Instr.opcode, Instr.takesArg, Instr.withArg]

/-- The fields of the word are those of the command (R90). -/
theorem decode_eq_ok_iff_fields {cw : Word} {i : Instr} :
    decode cw = .ok i ↔ fieldRsv cw = 0#16 ∧ i.arg = fieldArg cw ∧ i.opcode = fieldOp cw := by
  refine ⟨fun h => ?_, fun ⟨hrsv, harg, hop⟩ => ?_⟩
  · have hop := Machine.opcode_eq_of_decode h
    unfold decode at h
    rw [decodeOp_of_opcode hop] at h
    split_ifs at h with hrsv hlegal
    have hi : i.withArg (fieldArg cw) = i := Except.ok.inj h
    exact ⟨hrsv, by rw [← arg_withArg hlegal, hi], hop⟩
  · have hlegal := takesArg_or_arg_eq_zero i
    rw [harg] at hlegal
    rw [decode, if_pos hrsv, decodeOp_of_opcode hop, if_pos hlegal, ← harg, withArg_arg_self]

theorem word_eq_fields (cw : Word) : cw = fieldRsv cw ++ fieldArg cw ++ fieldOp cw := by
  apply BitVec.eq_of_toNat_eq
  have hcw := cw.isLt
  simp only [fieldRsv, fieldArg, fieldOp, Machine.toNat_append_eq_add, BitVec.extractLsb'_toNat,
    Nat.shiftRight_eq_div_pow]
  omega

/-- The fields of a word put together from its fields (R90). -/
theorem fields_append (rsv : BitVec 16) (arg op : Byte) :
    fieldRsv (rsv ++ arg ++ op) = rsv ∧ fieldArg (rsv ++ arg ++ op) = arg ∧ fieldOp (rsv ++ arg ++ op) = op := by
  have hrsv := rsv.isLt
  have harg := arg.isLt
  have hop := op.isLt
  refine ⟨?_, ?_, ?_⟩
  all_goals
    apply Machine.extractLsb'_eq_of_toNat
    simp only [Machine.toNat_append_eq_add]
    omega

theorem encode_eq_iff_fields {cw : Word} {i : Instr} :
    encode i = cw ↔ fieldRsv cw = 0#16 ∧ i.arg = fieldArg cw ∧ i.opcode = fieldOp cw := by
  refine ⟨?_, fun ⟨hrsv, harg, hop⟩ => ?_⟩
  · rintro rfl
    obtain ⟨hrsv, harg, hop⟩ := fields_append 0#16 i.arg i.opcode
    exact ⟨hrsv, harg.symm, hop.symm⟩
  · rw [encode, harg, hop, ← hrsv, ← word_eq_fields]

/-- A command is read from its encoding and from no other word (R90, R92). -/
theorem decode_eq_ok_iff {cw : Word} {i : Instr} : decode cw = .ok i ↔ encode i = cw :=
  decode_eq_ok_iff_fields.trans encode_eq_iff_fields.symm

/-- Settles O1: `decode_eq_ok_iff` at the encoding itself. -/
theorem decodeOfEncodeIsIdentity : Obligations.DecodeOfEncodeIsIdentity :=
  fun _ => decode_eq_ok_iff.2 rfl

/-- Settles O2: `decode_eq_ok_iff`, and the number of a word is below `2^32`. -/
theorem encodeOfDecodeIsIdentity : Obligations.EncodeOfDecodeIsIdentity := by
  intro cw i h
  refine ⟨decode_eq_ok_iff.1 h, ?_⟩
  rw [decodeTableWord, if_pos ⟨le_rfl, cw.isLt⟩, BitVec.ofNat_toNat, BitVec.setWidth_eq, h, Except.toOption]

/-- R92: which words are legal. -/
theorem decode_isLegal_iff {cw : Word} :
    (∃ i, decode cw = .ok i) ↔
      ∃ i : Instr, i.opcode = fieldOp cw ∧ fieldRsv cw = 0#16 ∧ (i.takesArg = true ∨ fieldArg cw = 0#8) := by
  refine ⟨fun ⟨i, h⟩ => ?_, fun ⟨i, hop, hrsv, hlegal⟩ => ⟨i.withArg (fieldArg cw), ?_⟩⟩
  · obtain ⟨hrsv, harg, hop⟩ := decode_eq_ok_iff_fields.1 h
    exact ⟨i, hop, hrsv, harg ▸ takesArg_or_arg_eq_zero i⟩
  · rw [decode_eq_ok_iff_fields, opcode_withArg]
    exact ⟨hrsv, arg_withArg hlegal, hop⟩

end Sys2Proof

/-! SUPPORT. The match and mask table (R94) against the decoder. -/

namespace Sys2Proof

/-- The row of every command is in the table (R94). -/
theorem opcodeIsListed : (i : Instr) → Laws.OpcodeIsListed.Statement i
  | .nop => Laws.OpcodeIsListed.nop
  | .sreset => Laws.OpcodeIsListed.sreset
  | .aesKeyexp => Laws.OpcodeIsListed.aesKeyexp
  | .aesEncBlock => Laws.OpcodeIsListed.aesEncBlock
  | .aesDecBlock => Laws.OpcodeIsListed.aesDecBlock
  | .aesSubbytes => Laws.OpcodeIsListed.aesSubbytes
  | .aesInvSubbytes => Laws.OpcodeIsListed.aesInvSubbytes
  | .aesShiftrows => Laws.OpcodeIsListed.aesShiftrows
  | .aesInvShiftrows => Laws.OpcodeIsListed.aesInvShiftrows
  | .aesMixcolumns => Laws.OpcodeIsListed.aesMixcolumns
  | .aesInvMixcolumns => Laws.OpcodeIsListed.aesInvMixcolumns
  | .aesAddroundkey r => Laws.OpcodeIsListed.aesAddroundkey r
  | .aesGfmul c => Laws.OpcodeIsListed.aesGfmul c
  | .rngKey => Laws.OpcodeIsListed.rngKey
  | .rngIv => Laws.OpcodeIsListed.rngIv
  | .pkcs7Pad => Laws.OpcodeIsListed.pkcs7Pad
  | .pkcs7Unpad => Laws.OpcodeIsListed.pkcs7Unpad
  | .cbcEncRaw => Laws.OpcodeIsListed.cbcEncRaw
  | .cbcDecRaw => Laws.OpcodeIsListed.cbcDecRaw
  | .cbcEnc => Laws.OpcodeIsListed.cbcEnc
  | .cbcDec => Laws.OpcodeIsListed.cbcDec
  | .mrTest t => Laws.OpcodeIsListed.mrTest t
  | .rsaKeygen t => Laws.OpcodeIsListed.rsaKeygen t
  | .modexp => Laws.OpcodeIsListed.modexp
  | .modinv => Laws.OpcodeIsListed.modinv
  | .pkcs1Pad => Laws.OpcodeIsListed.pkcs1Pad
  | .pkcs1Unpad => Laws.OpcodeIsListed.pkcs1Unpad
  | .rsaEnc => Laws.OpcodeIsListed.rsaEnc
  | .rsaDec => Laws.OpcodeIsListed.rsaDec

/-- The two kinds of rows: the whole word, and the word under the mask that leaves out `ARG` (R94). -/
theorem matchesRow_iff {cw : Word} :
    matchesRow cw = true ↔ cw ∈ exactRows ∨ cw &&& 0xFFFF00FF#32 ∈ argumentRows := by
  have hmask : cw &&& 0xFFFFFFFF#32 = cw := BitVec.and_allOnes
  simp [matchesRow, matchMaskRows, List.any_append, hmask]

/-- The mask of the argument rows keeps `OP` and `RSV` and clears `ARG` (R94). -/
theorem and_argumentMask (cw : Word) : cw &&& 0xFFFF00FF#32 = fieldRsv cw ++ 0#8 ++ fieldOp cw := by
  have hfields : (fieldRsv cw ++ fieldArg cw ++ fieldOp cw) &&& (BitVec.allOnes 16 ++ 0#8 ++ BitVec.allOnes 8) =
      fieldRsv cw ++ 0#8 ++ fieldOp cw := by
    simp only [BitVec.and_append, BitVec.and_allOnes, BitVec.and_zero]
  rwa [← word_eq_fields cw] at hfields

theorem exactRows_eq_map_encode :
    exactRows = List.map encode
      [.nop, .sreset, .aesKeyexp, .aesEncBlock, .aesDecBlock, .aesSubbytes, .aesInvSubbytes, .aesShiftrows,
        .aesInvShiftrows, .aesMixcolumns, .aesInvMixcolumns, .rngKey, .rngIv, .pkcs7Pad, .pkcs7Unpad, .cbcEncRaw,
        .cbcDecRaw, .cbcEnc, .cbcDec, .modexp, .modinv, .pkcs1Pad, .pkcs1Unpad, .rsaEnc, .rsaDec] := rfl

theorem argumentRows_eq_map_encode :
    argumentRows = List.map encode [.aesAddroundkey 0#8, .aesGfmul 0#8, .mrTest 0#8, .rsaKeygen 0#8] := rfl

theorem decode_of_mem_exactRows {w : Word} (h : w ∈ exactRows) : ∃ i, decode w = .ok i := by
  rw [exactRows_eq_map_encode, List.mem_map] at h
  obtain ⟨i, -, hi⟩ := h
  exact ⟨i, decode_eq_ok_iff.2 hi⟩

theorem decode_of_mem_argumentRows {w : Word} (h : w ∈ argumentRows) :
    ∃ i : Instr, i.takesArg = true ∧ decode w = .ok i := by
  rw [argumentRows_eq_map_encode, List.mem_map] at h
  obtain ⟨i, hmem, hi⟩ := h
  exact ⟨i, by fin_cases hmem <;> rfl, decode_eq_ok_iff.2 hi⟩

theorem matchesRow_of_decode {cw : Word} {i : Instr} (h : decode cw = .ok i) : matchesRow cw = true := by
  obtain ⟨hrsv, harg, hop⟩ := decode_eq_ok_iff_fields.1 h
  have hrow : 0#16 ++ 0#8 ++ i.opcode = i.opcode.setWidth 32 := by
    apply BitVec.eq_of_toNat_eq
    have hlt := i.opcode.isLt
    simp only [Machine.toNat_append_eq_add, BitVec.toNat_setWidth, BitVec.toNat_ofNat]
    omega
  rw [matchesRow_iff]
  obtain ⟨-, hlisted⟩ | ⟨-, hlisted, hzero⟩ := opcodeIsListed i
  · right
    rwa [and_argumentMask, hrsv, ← hop, hrow]
  · left
    rwa [word_eq_fields cw, hrsv, ← harg, hzero, ← hop, hrow]

theorem decode_of_matchesRow {cw : Word} (h : matchesRow cw = true) : ∃ i, decode cw = .ok i := by
  obtain h | h := matchesRow_iff.1 h
  · exact decode_of_mem_exactRows h
  · obtain ⟨i, htakes, hd⟩ := decode_of_mem_argumentRows h
    obtain ⟨hrsv, -, hop⟩ := decode_eq_ok_iff_fields.1 hd
    obtain ⟨hrsvMask, -, hopMask⟩ := fields_append (fieldRsv cw) 0#8 (fieldOp cw)
    rw [and_argumentMask] at hrsv hop
    exact decode_isLegal_iff.2 ⟨i, hop.trans hopMask, hrsvMask.symm.trans hrsv, .inl htakes⟩

/-- Settles O3: a decoded word is in its command's row, and each row's words decode. -/
theorem legalWordsMatchTableRows : Obligations.LegalWordsMatchTableRows := by
  intro cw
  refine ⟨⟨fun ⟨_, h⟩ => matchesRow_of_decode h, decode_of_matchesRow⟩, fun i h => ?_⟩
  obtain ⟨-, harg, hop⟩ := decode_eq_ok_iff_fields.1 h
  exact ⟨hop, harg⟩

/-- Settles O4: seven encodings, three words of no command, then the written forms of R97. -/
theorem writtenWordsDecode : Obligations.WrittenWordsDecode := by
  have read {cw : Word} {i : Instr} (h : encode i = cw) : decode cw = .ok i := decode_eq_ok_iff.2 h
  exact ⟨read rfl, read rfl, read rfl, read rfl, read rfl, read rfl, read rfl, by decide, by decide, by decide,
    by decide, by decide⟩

end Sys2Proof

/-! What an illegal command word does (R92). -/

namespace Sys2Proof.Machine

section IllegalWord

variable {s : State} {cw : Word} {rest : List Input}

/-- A write to CMD in IDLE issues the word (R66, R310). -/
theorem step_issue_of_idle {off : Offset} (hoff : placeAt off.toNat = .cmd) (hp : s.phase = .idle)
    (h : s.inputs = .write off cw :: rest) : step s = .next (State.issue { s with inputs := rest } cw) := by
  rw [step_write_of_idle hp h, hoff, State.writePlace]

/-- The engine's turn ends an illegal word with its error (R92, R312). -/
theorem step_engine_illegal {e : DecodeError} (hp : s.phase = .busy cw) (hd : decode cw = .error e)
    (h : s.inputs = .engine :: rest) : step s = .next (State.illegalCommand { s with inputs := rest }) := by
  rw [step_cons h]
  exact engineTurn_illegal hp hd

end IllegalWord

/-- Settles O7: `decode_isLegal_iff`, then the issue and the engine's turn. -/
theorem illegalWordCompletesWithItsError : Obligations.IllegalWordCompletesWithItsError := by
  refine fun cw => ⟨decode_isLegal_iff, fun e s rest hd hp hin => ?_⟩
  refine ⟨_, _, step_issue_of_idle rfl hp hin, step_engine_illegal rfl hd rfl, ?_, ?_⟩
  · simp [State.illegalCommand, State.raise, State.issue, hp]
  · rw [statusWord_toNat]
    have hlastop : (cw.extractLsb' 0 8).toNat = cw.toNat % 256 := by simp
    simp only [State.illegalCommand, State.raise, State.issue, hlastop, errorCodeBits, engineCodeBits,
      stageCodeBits, Phase.isBusy, BitVec.toNat_ofNat, Bool.toNat_true, Bool.toNat_false]
    omega

end Sys2Proof.Machine

/-! The two control commands, which complete from every state (R110, R111). -/

namespace Sys2Proof.Machine

/-- Settles O22: SRESET answers `State.applyReset`. -/
theorem sresetRestoresTheResetValues : Obligations.SresetRestoresTheResetValues :=
  fun s => ⟨s.applyReset, rfl, resetValues_applyReset s, applyReset_rng s, applyReset_kgMaxCandidates s,
    applyReset_inputs s⟩

/-- Settles O26: NOP answers `State.complete` of the state it found. -/
theorem nopChangesOnlyStatus : Obligations.NopChangesOnlyStatus :=
  fun s => ⟨s.complete false, rfl, complete_succeeds s s false rfl, rfl, complete_readByte s false⟩

end Sys2Proof.Machine

/-! SUPPORT. RotWord, SubWord and the round constants byte by byte (R121 to R123), and the words of the key schedule in
the order of R124. -/

namespace Sys2Proof.Machine

theorem byteAt_rotWord (w : Word) {i : Nat} (hi : i < 4) : byteAt (rotWord w) i = byteAt w ((i + 1) % 4) :=
  byteAt_wordOfBytes _ i hi

theorem byteAt_subWord (w : Word) {i : Nat} (hi : i < 4) : byteAt (subWord w) i = sbox (byteAt w i) :=
  byteAt_wordOfBytes _ i hi

theorem byteAt_rcon_zero (j : Nat) : byteAt (rcon j) 0 = roundConstant j := by
  apply BitVec.eq_of_getLsbD_eq
  intro k hk
  have hk' : k < 32 := by omega
  simp [byteAt, rcon, hk, hk']

/-- The constant enters only the first byte of the word (R123). -/
theorem byteAt_rcon_of_pos (j : Nat) {i : Nat} (hi : 1 ≤ i) : byteAt (rcon j) i = 0x00#8 := by
  apply BitVec.eq_of_getLsbD_eq
  intro k _
  have hbeyond : (roundConstant j).getLsbD (8 * i + k) = false := BitVec.getLsbD_of_ge _ _ (by omega)
  simp [byteAt, rcon, hbeyond]

theorem roundConstant_toNat : ∀ j < 10, (roundConstant (j + 1)).toNat =
    [0x01, 0x02, 0x04, 0x08, 0x10, 0x20, 0x40, 0x80, 0x1B, 0x36].getD j 0 := by decide

/-- The word `w[i]` of `KeyExpansion(KEY)` (R124): the fourth newest when `i` words follow the first four. -/
def scheduleWord (key : Block) (i : Nat) : Word := (keyWordsFrom key i).getD 3 0#32

theorem scheduleWord_of_lt (key : Block) {i : Nat} (hi : i < 4) : scheduleWord key i = wordAt key i := by
  interval_cases i <;> rfl

/-- The recurrence of R124. -/
theorem scheduleWord_add_four (key : Block) (n : Nat) : scheduleWord key (n + 4) =
    scheduleWord key n ^^^ scheduleTemp (n + 4) (scheduleWord key (n + 3)) := rfl

/-- Entry `k` from the newest is the word with as many older ones as are left. -/
theorem getD_keyWordsFrom (key : Block) {n k i : Nat} (h : i + k = n + 3) :
    (keyWordsFrom key n).getD k 0#32 = scheduleWord key i := by
  induction n generalizing k with
  | zero =>
    obtain rfl : k = 3 - i := by omega
    have hi : i < 4 := by omega
    interval_cases i <;> rfl
  | succ n ih =>
    cases k with
    | zero =>
      obtain rfl : i = n + 4 := h
      rfl
    | succ k => exact ih (by omega)

theorem length_keyWordsFrom (key : Block) (n : Nat) : (keyWordsFrom key n).length = n + 4 := by
  induction n with
  | zero => rfl
  | succ n ih => simp [keyWordsFrom, ih]

theorem getD_keyWords (key : Block) {i : Nat} (hi : i < 44) : (keyWords key).getD i 0#32 = scheduleWord key i := by
  have hlen := length_keyWordsFrom key 40
  rw [keyWords, List.getD_reverse (h := by omega), hlen]
  exact getD_keyWordsFrom key (by omega)

/-- Word `i` of the 176 bytes `KeyExpansion` gives (R125). -/
theorem wordAt_keyExpansion (key : Block) {i : Nat} (hi : i < 44) :
    wordAt (keyExpansion key) i = scheduleWord key i :=
  (lane_packLanes 1408 32 44 _ i hi (by decide)).trans (getD_keyWords key hi)

end Sys2Proof.Machine

/-! SUPPORT. Two runs of one command from two contents of RK (R125). -/

namespace Sys2Proof.Machine

/-- The state with another RK. -/
def State.withRk (s : State) (x : BitVec 1408) : State := { s with rk := x }

/-- A run `p` from a state whose RK is `r` and the run `q` from the same state with the RK `x`: both write RK and end
in one state, or both keep it and end in states that differ in it alone. -/
def AlikeButRk (r x : BitVec 1408) (p q : Host.Outcome State Fault Refusal) : Prop :=
  ∃ t : State, p = .next t ∧ (q = .next t ∨ (t.rk = r ∧ q = .next (t.withRk x)))

namespace AlikeButRk

variable {r x : BitVec 1408} {p p' q q' : Host.Outcome State Fault Refusal} {t : State}

/-- Both runs end in one state, so the second took nothing of it from its own RK. -/
theorem written (hp : p = .next t := by rfl) (hq : q = .next t := by rfl) : AlikeButRk r x p q := ⟨t, hp, .inl hq⟩

theorem kept (hp : p = .next t := by rfl) (hq : q = .next (t.withRk x) := by rfl) (h : t.rk = r := by rfl) :
    AlikeButRk r x p q := ⟨t, hp, .inr ⟨h, hq⟩⟩

/-- Both runs make the same check. -/
theorem ite {c : Prop} [Decidable c] (hpos : AlikeButRk r x p q) (hneg : AlikeButRk r x p' q') :
    AlikeButRk r x (if c then p else p') (if c then q else q') := by
  by_cases h : c
  · simpa only [if_pos h] using hpos
  · simpa only [if_neg h] using hneg

end AlikeButRk

theorem exec_rngKey_completes {s : State} {X : List Byte} {g : Rng} (h : Rng.bytes 16 s.rng = (X, g)) :
    exec .rngKey s = .next (State.complete { s with key := blockOfDraws X, rng := g } false) := by
  simp only [exec, execRngKey, h]

theorem exec_rngIv_completes {s : State} {X : List Byte} {g : Rng} (h : Rng.bytes 16 s.rng = (X, g)) :
    exec .rngIv s = .next (State.complete { s with iv := blockOfDraws X, rng := g } false) := by
  simp only [exec, execRngIv, h]

section TwoContents

variable (s : State) (x : BitVec 1408)

theorem rngKey_alikeButRk : AlikeButRk s.rk x (exec .rngKey s) (exec .rngKey (s.withRk x)) := by
  cases h : Rng.bytes 16 s.rng with
  | mk X g => exact .kept (exec_rngKey_completes h) (exec_rngKey_completes h)

theorem rngIv_alikeButRk : AlikeButRk s.rk x (exec .rngIv s) (exec .rngIv (s.withRk x)) := by
  cases h : Rng.bytes 16 s.rng with
  | mk X g => exact .kept (exec_rngIv_completes h) (exec_rngIv_completes h)

theorem pkcs7Unpad_alikeButRk : AlikeButRk s.rk x (exec .pkcs7Unpad s) (exec .pkcs7Unpad (s.withRk x)) := by
  by_cases h : badBlockLength s.messageLength = true
  · exact .kept (exec_pkcs7Unpad_rejects_length h) (exec_pkcs7Unpad_rejects_length h)
  · cases hu : unpad7 s.message with
    | none => exact .kept (exec_pkcs7Unpad_rejects_padding h hu) (exec_pkcs7Unpad_rejects_padding h hu)
    | some X => exact .kept (exec_pkcs7Unpad_completes h hu) (exec_pkcs7Unpad_completes h hu)

theorem cbcDec_alikeButRk : AlikeButRk s.rk x (exec .cbcDec s) (exec .cbcDec (s.withRk x)) := by
  by_cases h : badBlockLength s.messageLength = true
  · exact .kept (exec_cbcDec_rejects_length h) (exec_cbcDec_rejects_length h)
  · cases hu : unpad7 (cbcDec s.message (keyExpansion s.key) s.iv) with
    | none => exact .kept (exec_cbcDec_rejects_padding h hu) (exec_cbcDec_rejects_padding h hu)
    | some X => exact .written (exec_cbcDec_completes h hu) (exec_cbcDec_completes h hu)

theorem rsaKeygen_alikeButRk (n : Byte) :
    AlikeButRk s.rk x (exec (.rsaKeygen n) s) (exec (.rsaKeygen n) (s.withRk x)) := by
  by_cases h : argValue n = 0 ∨ badKeyBits s.kgBits.toNat = true
  · exact .kept (exec_rsaKeygen_rejects h) (exec_rsaKeygen_rejects h)
  · cases hk : keyGen s.kgMaxCandidates s.kgBits.toNat (argValue n) s.rng with
    | mk made g =>
      cases made with
      | none => exact .kept (exec_rsaKeygen_exhausted h hk) (exec_rsaKeygen_exhausted h hk)
      | some kp => exact .kept (exec_rsaKeygen_completes h hk) (exec_rsaKeygen_completes h hk)

theorem modinv_alikeButRk : AlikeButRk s.rk x (exec .modinv s) (exec .modinv (s.withRk x)) := by
  by_cases h : bigVal s.m = 0
  · exact .kept (exec_modinv_rejects h) (exec_modinv_rejects h)
  · cases hx : modInv (bigVal s.a) (bigVal s.m) with
    | none => exact .kept (exec_modinv_noInverse h hx) (exec_modinv_noInverse h hx)
    | some v => exact .kept (exec_modinv_completes h hx) (exec_modinv_completes h hx)

theorem pkcs1Unpad_alikeButRk : AlikeButRk s.rk x (exec .pkcs1Unpad s) (exec .pkcs1Unpad (s.withRk x)) := by
  by_cases h : s.modulusBytes < 2 ∨ 256 ^ s.modulusBytes ≤ bigVal s.rsaMb
  · exact .kept (exec_pkcs1Unpad_rejects_width h) (exec_pkcs1Unpad_rejects_width h)
  · cases hu : unpad1 (i2osp (bigVal s.rsaMb) s.modulusBytes) with
    | none => exact .kept (exec_pkcs1Unpad_rejects_padding h hu) (exec_pkcs1Unpad_rejects_padding h hu)
    | some P => exact .kept (exec_pkcs1Unpad_completes h hu) (exec_pkcs1Unpad_completes h hu)

theorem rsaDec_alikeButRk : AlikeButRk s.rk x (exec .rsaDec s) (exec .rsaDec (s.withRk x)) := by
  by_cases h : bigVal s.rsaN = 0
  · exact .kept (exec_rsaDec_rejects h) (exec_rsaDec_rejects h)
  · by_cases hK : s.modulusBytes < 2
    · exact .kept (exec_rsaDec_rejects_width h hK) (exec_rsaDec_rejects_width h hK)
    · cases hu : unpad1 (i2osp (modExp (bigVal s.rsaC) (bigVal s.rsaD) (bigVal s.rsaN)) s.modulusBytes) with
      | none => exact .kept (exec_rsaDec_rejects_padding h hK hu) (exec_rsaDec_rejects_padding h hK hu)
      | some P => exact .kept (exec_rsaDec_completes h hK hu) (exec_rsaDec_completes h hK hu)

end TwoContents

/-- Every check and every computation of a command is on registers other than RK: each command either writes RK without
having read it, or passes it on. -/
theorem exec_alikeButRk (i : Instr) (s : State) (x : BitVec 1408) :
    AlikeButRk s.rk x (exec i s) (exec i (s.withRk x)) := by
  cases i with
  | sreset | aesKeyexp | aesEncBlock | aesDecBlock => exact .written
  | nop | aesSubbytes | aesInvSubbytes | aesShiftrows | aesInvShiftrows | aesMixcolumns | aesInvMixcolumns
  | aesGfmul _ => exact .kept
  | aesAddroundkey _ | cbcEncRaw | cbcDecRaw | cbcEnc => exact .ite .kept .written
  | pkcs7Pad | mrTest _ | modexp | pkcs1Pad | rsaEnc => exact .ite .kept .kept
  | rngKey => exact rngKey_alikeButRk s x
  | rngIv => exact rngIv_alikeButRk s x
  | pkcs7Unpad => exact pkcs7Unpad_alikeButRk s x
  | cbcDec => exact cbcDec_alikeButRk s x
  | rsaKeygen n => exact rsaKeygen_alikeButRk s x n
  | modinv => exact modinv_alikeButRk s x
  | pkcs1Unpad => exact pkcs1Unpad_alikeButRk s x
  | rsaDec => exact rsaDec_alikeButRk s x

end Sys2Proof.Machine

/-! The key schedule: what it computes, and that no command uses the RK it finds. -/

namespace Sys2Proof.Machine

/-- Settles O11: the two ways of `exec_alikeButRk`. -/
theorem oldRoundKeysAreNeverUsed : Obligations.OldRoundKeysAreNeverUsed := by
  intro i s x
  obtain ⟨t, ht, hu | ⟨hrk, hu⟩⟩ := exec_alikeButRk i s x
  · exact ⟨t, t, ht, hu, rfl, fun _ => .inl rfl⟩
  · exact ⟨t, t.withRk x, ht, hu, rfl, fun _ => .inr ⟨hrk, rfl⟩⟩

/-- Settles O27: RK holds `KeyExpansion(KEY)`, whose words are those of `scheduleWord`. -/
theorem keyexpWritesTheSchedule : Obligations.KeyexpWritesTheSchedule := by
  intro s
  refine ⟨_, rfl, complete_succeeds s _ false rfl, rfl, memoryKept_of_mem_eq rfl rfl, ?_, ?_⟩
  · intro i hi
    exact (wordAt_keyExpansion s.key (by omega)).trans (scheduleWord_of_lt s.key hi)
  · intro i h4 h44
    obtain ⟨n, rfl⟩ := Nat.exists_eq_add_of_le' h4
    rw [complete_rk, wordAt_keyExpansion s.key h44, Nat.add_sub_cancel, wordAt_keyExpansion s.key (by omega),
      show n + 4 - 1 = n + 3 from rfl, wordAt_keyExpansion s.key (by omega)]
    exact scheduleWord_add_four s.key n

/-- Settles O28: each function by its bytes, and the ten constants of R123. -/
theorem scheduleFunctionsOnBytes : Obligations.ScheduleFunctionsOnBytes := by
  intro w
  refine ⟨⟨byteAt_rotWord w (by decide), byteAt_rotWord w (by decide), byteAt_rotWord w (by decide),
    byteAt_rotWord w (by decide)⟩, fun i hi => byteAt_subWord w hi, fun j h1 h10 => ⟨?_, fun i hi _ =>
    byteAt_rcon_of_pos j hi⟩⟩
  obtain ⟨n, rfl⟩ := Nat.exists_eq_add_of_le' h1
  rw [byteAt_rcon_zero]
  exact roundConstant_toNat n (by omega)

end Sys2Proof.Machine

/-! SUPPORT. The product of GF(2^8) (R140 to R142): a sum of the multiples `xtimes i a`, so it is additive in each
factor, and multiplications commute with each other because each commutes with `xtime`. -/

namespace Sys2Proof.Machine

theorem ite_xor (p q : Bool) (c : Byte) :
    (if p ^^ q then c else 0x00#8) = (if p then c else 0x00#8) ^^^ (if q then c else 0x00#8) := by
  cases p <;> cases q <;> simp

theorem xtime_xor (x y : Byte) : xtime (x ^^^ y) = xtime x ^^^ xtime y := by
  simp only [xtime, BitVec.getLsbD_xor, BitVec.shiftLeft_xor_distrib, ite_xor]
  ac_rfl

theorem xtimes_xor (n : Nat) (x y : Byte) : xtimes n (x ^^^ y) = xtimes n x ^^^ xtimes n y := by
  induction n with
  | zero => rfl
  | succ n ih => simp only [xtimes, ih, xtime_xor]

@[simp] theorem xtime_zero : xtime 0x00#8 = 0x00#8 := rfl

@[simp] theorem xtimes_zero_byte (n : Nat) : xtimes n 0x00#8 = 0x00#8 := by
  induction n with
  | zero => rfl
  | succ n ih => rw [xtimes, ih, xtime_zero]

theorem gmulSum_xor_left (x x' y : Byte) (n : Nat) : gmulSum (x ^^^ x') y n = gmulSum x y n ^^^ gmulSum x' y n := by
  induction n with
  | zero => simp [gmulSum]
  | succ n ih =>
    simp only [gmulSum, ih, xtimes_xor]
    cases y.getLsbD n
    · simp
    · simp only [if_true]
      ac_rfl

theorem gmul_xor_left (x x' y : Byte) : gmul (x ^^^ x') y = gmul x y ^^^ gmul x' y := gmulSum_xor_left x x' y 8

@[simp] theorem gmul_zero_left (y : Byte) : gmul 0x00#8 y = 0x00#8 := by simp [gmul, gmulSum]

@[simp] theorem gmul_zero_right (x : Byte) : gmul x 0x00#8 = 0x00#8 := by simp [gmul, gmulSum]

theorem xtimes_xtime (n : Nat) (x : Byte) : xtimes n (xtime x) = xtime (xtimes n x) := by
  induction n with
  | zero => rfl
  | succ n ih => rw [xtimes, ih, xtimes]

theorem gmulSum_xtime_left (x y : Byte) (n : Nat) : gmulSum (xtime x) y n = xtime (gmulSum x y n) := by
  induction n with
  | zero => simp [gmulSum]
  | succ n ih =>
    simp only [gmulSum, ih, xtime_xor, xtimes_xtime]
    cases y.getLsbD n <;> simp

theorem gmul_xtimes_left (n : Nat) (x y : Byte) : gmul (xtimes n x) y = xtimes n (gmul x y) := by
  induction n with
  | zero => rfl
  | succ n ih => exact (gmulSum_xtime_left (xtimes n x) y 8).trans (congrArg xtime ih)

/-- Multiplying by `z` term by term of the sum. -/
theorem gmul_gmulSum (x y z : Byte) (n : Nat) : gmul (gmulSum x y n) z = gmulSum (gmul x z) y n := by
  induction n with
  | zero => exact gmul_zero_left z
  | succ n ih =>
    rw [gmulSum, gmul_xor_left, ih, gmulSum]
    cases y.getLsbD n
    · simp
    · simp [gmul_xtimes_left]

theorem gmul_right_comm (x y z : Byte) : gmul (gmul x y) z = gmul (gmul x z) y := gmul_gmulSum x y z 8

@[simp] theorem gmul_one_left : ∀ x : Byte, gmul 0x01#8 x = x := by decide +kernel

theorem gmul_comm (x y : Byte) : gmul x y = gmul y x := by
  simpa using gmul_right_comm 0x01#8 x y

theorem gmul_assoc (x y z : Byte) : gmul (gmul x y) z = gmul x (gmul y z) := by
  rw [gmul_comm x y, gmul_right_comm, gmul_comm]

theorem gmul_xor_right (x y z : Byte) : gmul x (y ^^^ z) = gmul x y ^^^ gmul x z := by
  rw [gmul_comm, gmul_xor_left, gmul_comm y, gmul_comm z]

@[simp] theorem gmul_one_right (x : Byte) : gmul x 0x01#8 = x := (gmul_comm x _).trans (gmul_one_left x)

end Sys2Proof.Machine

/-! SUPPORT. Field inverses (R143) and the substitution tables (R145 to R147), checked on each of the 256 bytes. -/

namespace Sys2Proof.Machine

/-- The power `x^254` is an inverse and its affine map the entry of the table, in one check so that the power is
computed once for each byte. -/
theorem ginv_inverts_and_gives_sbox : ∀ x : Byte,
    (x ≠ 0x00#8 → gmul x (ginv x) = 0x01#8) ∧ sbox x = sboxAffine (ginv x) := by decide +kernel

theorem gmul_ginv {x : Byte} (hx : x ≠ 0x00#8) : gmul x (ginv x) = 0x01#8 := (ginv_inverts_and_gives_sbox x).1 hx

/-- The product being associative and commutative, an element has one inverse. -/
theorem eq_ginv_of_gmul_eq_one {x y : Byte} (hx : x ≠ 0x00#8) (h : gmul x y = 0x01#8) : y = ginv x :=
  calc
    y = gmul y (gmul x (ginv x)) := by rw [gmul_ginv hx, gmul_one_right]
    _ = gmul (gmul x y) (ginv x) := by rw [← gmul_assoc, gmul_comm y]
    _ = ginv x := by rw [h, gmul_one_left]

theorem sbox_eq_sboxAffine_ginv (x : Byte) : sbox x = sboxAffine (ginv x) := (ginv_inverts_and_gives_sbox x).2

@[simp] theorem invSbox_sbox : ∀ x : Byte, invSbox (sbox x) = x := by decide +kernel

@[simp] theorem sbox_invSbox : ∀ x : Byte, sbox (invSbox x) = x := by decide +kernel

end Sys2Proof.Machine

/-! The field and the substitution tables. -/

namespace Sys2Proof.Machine

/-- Settles O29, law by law. -/
theorem fieldProductLaws : Obligations.FieldProductLaws := by
  intro x y z
  refine ⟨gmul_comm x y, gmul_assoc x y z, gmul_xor_right x y z, gmul_one_right x, gmul_zero_right x, ?_⟩
  simp [gmul, gmulSum, xtimes]

/-- Settles O30: the two tables byte by byte, the uniqueness of the inverse by the laws of the product. -/
theorem sboxIsTheAffineMapOfTheInverse : Obligations.SboxIsTheAffineMapOfTheInverse :=
  ⟨by decide, fun x => ⟨fun hx => ⟨gmul_ginv hx, fun _ => eq_ginv_of_gmul_eq_one hx⟩,
    sbox_eq_sboxAffine_ginv x, invSbox_sbox x⟩⟩

end Sys2Proof.Machine

/-! SUPPORT. The round transformations byte by byte (R144 to R154), and that each undoes its inverse. -/

namespace Sys2Proof.Machine

section Bytes

variable {x : Block} {i : Nat}

theorem byteAt_blockOfState (f : Nat → Nat → Byte) (hi : i < 16) : byteAt (blockOfState f) i = f (i % 4) (i / 4) :=
  byteAt_blockOfBytes _ i hi

theorem stateByte_blockOfState (f : Nat → Nat → Byte) {r c : Nat} (hr : r < 4) (hc : c < 4) :
    stateByte (blockOfState f) r c = f r c := by
  rw [stateByte, byteAt_blockOfState f (by omega), show (r + 4 * c) % 4 = r by omega,
    show (r + 4 * c) / 4 = c by omega]

theorem stateByte_mod_div (x : Block) (i : Nat) : stateByte x (i % 4) (i / 4) = byteAt x i :=
  congrArg (byteAt x) (Nat.mod_add_div i 4)

/-- Two blocks with equal states are equal (R144). -/
theorem block_eq_of_stateByte_eq {y : Block} (h : ∀ r < 4, ∀ c < 4, stateByte x r c = stateByte y r c) : x = y :=
  block_ext fun i hi => by
    rw [← stateByte_mod_div x, ← stateByte_mod_div y]
    exact h _ (by omega) _ (by omega)

theorem byteAt_subBytes (x : Block) (hi : i < 16) : byteAt (subBytes x) i = sbox (byteAt x i) := by
  rw [subBytes, byteAt_blockOfState _ hi, stateByte_mod_div]

theorem byteAt_invSubBytes (x : Block) (hi : i < 16) : byteAt (invSubBytes x) i = invSbox (byteAt x i) := by
  rw [invSubBytes, byteAt_blockOfState _ hi, stateByte_mod_div]

theorem byteAt_shiftRows (x : Block) (hi : i < 16) : byteAt (shiftRows x) i =
    byteAt x ([0, 5, 10, 15, 4, 9, 14, 3, 8, 13, 2, 7, 12, 1, 6, 11].getD i 0) := by
  rw [shiftRows, byteAt_blockOfState _ hi, stateByte]
  congr 1
  exact (by decide : ∀ j < 16, j % 4 + 4 * ((j / 4 + j % 4) % 4) =
    [0, 5, 10, 15, 4, 9, 14, 3, 8, 13, 2, 7, 12, 1, 6, 11].getD j 0) i hi

theorem byteAt_invShiftRows (x : Block) (hi : i < 16) : byteAt (invShiftRows x) i =
    byteAt x ([0, 13, 10, 7, 4, 1, 14, 11, 8, 5, 2, 15, 12, 9, 6, 3].getD i 0) := by
  rw [invShiftRows, byteAt_blockOfState _ hi, stateByte]
  congr 1
  exact (by decide : ∀ j < 16, j % 4 + 4 * ((j / 4 + (4 - j % 4)) % 4) =
    [0, 13, 10, 7, 4, 1, 14, 11, 8, 5, 2, 15, 12, 9, 6, 3].getD j 0) i hi

theorem byteAt_roundKey (sched : BitVec 1408) (r : Nat) (hi : i < 16) :
    byteAt (roundKey sched r) i = byteAt sched (16 * r + i) := by
  apply BitVec.eq_of_getLsbD_eq
  intro j hj
  have hin : 8 * i + j < 128 := by omega
  simp only [byteAt, roundKey, BitVec.getLsbD_extractLsb', hj, hin, decide_true, Bool.true_and]
  congr 1
  omega

end Bytes

section Inverses

variable (x : Block)

@[simp] theorem invSubBytes_subBytes : invSubBytes (subBytes x) = x :=
  block_ext fun i hi => by rw [byteAt_invSubBytes _ hi, byteAt_subBytes _ hi, invSbox_sbox]

@[simp] theorem subBytes_invSubBytes : subBytes (invSubBytes x) = x :=
  block_ext fun i hi => by rw [byteAt_subBytes _ hi, byteAt_invSubBytes _ hi, sbox_invSbox]

@[simp] theorem invShiftRows_shiftRows : invShiftRows (shiftRows x) = x :=
  block_eq_of_stateByte_eq fun r hr c hc => by
    rw [invShiftRows, stateByte_blockOfState _ hr hc, shiftRows, stateByte_blockOfState _ hr (Nat.mod_lt _ (by decide)),
      show ((c + (4 - r)) % 4 + r) % 4 = c by omega]

@[simp] theorem shiftRows_invShiftRows : shiftRows (invShiftRows x) = x :=
  block_eq_of_stateByte_eq fun r hr c hc => by
    rw [shiftRows, stateByte_blockOfState _ hr hc, invShiftRows, stateByte_blockOfState _ hr (Nat.mod_lt _ (by decide)),
      show ((c + r) % 4 + (4 - r)) % 4 = c by omega]

/-- A product of circulant matrices is the circulant matrix whose row 0 is the cyclic convolution of theirs. -/
theorem circulant_blockOfState_circulant {k0 k1 k2 k3 l0 l1 l2 l3 : Byte} {r c : Nat} (hr : r < 4) (hc : c < 4) :
    circulant k0 k1 k2 k3 (blockOfState (circulant l0 l1 l2 l3 x)) r c =
      circulant (gmul k0 l0 ^^^ gmul k1 l3 ^^^ gmul k2 l2 ^^^ gmul k3 l1)
        (gmul k0 l1 ^^^ gmul k1 l0 ^^^ gmul k2 l3 ^^^ gmul k3 l2)
        (gmul k0 l2 ^^^ gmul k1 l1 ^^^ gmul k2 l0 ^^^ gmul k3 l3)
        (gmul k0 l3 ^^^ gmul k1 l2 ^^^ gmul k2 l1 ^^^ gmul k3 l0) x r c := by
  have hmod (n : Nat) : n % 4 < 4 := Nat.mod_lt n (by decide)
  rw [circulant, stateByte_blockOfState _ hr hc, stateByte_blockOfState _ (hmod _) hc,
    stateByte_blockOfState _ (hmod _) hc, stateByte_blockOfState _ (hmod _) hc]
  simp only [circulant, gmul_xor_right, gmul_xor_left, gmul_assoc, Nat.mod_add_mod, Nat.add_assoc, Nat.reduceAdd,
    Nat.add_mod_right, Nat.mod_eq_of_lt hr]
  simp only [show (r + 5) % 4 = (r + 1) % 4 by omega, show (r + 6) % 4 = (r + 2) % 4 by omega]
  ac_rfl

theorem circulant_one (r c : Nat) : circulant 0x01#8 0x00#8 0x00#8 0x00#8 x r c = stateByte x r c := by
  simp [circulant]

/-- The convolution of the two rows of R152 and R153 is `[{01}, {00}, {00}, {00}]`. -/
@[simp] theorem invMixColumns_mixColumns : invMixColumns (mixColumns x) = x :=
  block_eq_of_stateByte_eq fun r hr c hc => by
    rw [invMixColumns, stateByte_blockOfState _ hr hc, mixColumns, circulant_blockOfState_circulant x hr hc]
    exact circulant_one x r c

@[simp] theorem mixColumns_invMixColumns : mixColumns (invMixColumns x) = x :=
  block_eq_of_stateByte_eq fun r hr c hc => by
    rw [mixColumns, stateByte_blockOfState _ hr hc, invMixColumns, circulant_blockOfState_circulant x hr hc]
    exact circulant_one x r c

@[simp] theorem addRoundKey_addRoundKey (k : Block) : addRoundKey (addRoundKey x k) k = x := by
  simp [addRoundKey]

end Inverses

end Sys2Proof.Machine

/-! SUPPORT. The inverse cipher undoes the cipher (R157). -/

namespace Sys2Proof.Machine

/-- The first of the rounds `r = n + 1, …, 1` of R156. The recursion is `rfl` for the functions; for their values at `x`
the kernel would compute the two blocks to compare them. -/
theorem invCipherRounds_succ (sched : BitVec 1408) (n : Nat) (x : Block) : invCipherRounds sched (n + 1) x =
    invCipherRounds sched n (invMixColumns (addRoundKey (invSubBytes (invShiftRows x)) (roundKey sched (n + 1)))) := by
  have hfun : invCipherRounds sched (n + 1) = fun y => invCipherRounds sched n
      (invMixColumns (addRoundKey (invSubBytes (invShiftRows y)) (roundKey sched (n + 1)))) := rfl
  rw [hfun]

/-- The rounds of R156 take back those of R155; between the two stand the ShiftRows and SubBytes of the next round. -/
theorem invCipherRounds_cipherRounds (sched : BitVec 1408) (x : Block) (n : Nat) :
    invCipherRounds sched n (shiftRows (subBytes (cipherRounds sched x n))) = shiftRows (subBytes x) := by
  induction n with
  | zero => rfl
  | succ n ih =>
    rw [invCipherRounds_succ, invShiftRows_shiftRows, invSubBytes_subBytes, cipherRounds, addRoundKey_addRoundKey,
      invMixColumns_mixColumns, ih]

theorem invCipher_cipher (sched : BitVec 1408) (x : Block) : invCipher sched (cipher sched x) = x := by
  rw [invCipher, cipher, addRoundKey_addRoundKey, invCipherRounds_cipherRounds, invShiftRows_shiftRows,
    invSubBytes_subBytes, addRoundKey_addRoundKey]

end Sys2Proof.Machine

/-! SUPPORT. Commands run one after another (R71), and the transformations of DATA they make under one key. -/

namespace Sys2Proof.Machine

theorem execAll_cons {i : Instr} {is : List Instr} {s t : State} (h : exec i s = .next t) :
    execAll (i :: is) s = execAll is t := by
  simp only [execAll, h]

theorem execAll_append {is js : List Instr} {s t : State} (h : execAll is s = .next t) :
    execAll (is ++ js) s = execAll js t := by
  induction is generalizing s with
  | nil => cases h; rfl
  | cons i is ih =>
    cases hi : exec i s with
    | next u =>
      rw [execAll_cons hi] at h
      rw [List.cons_append, execAll_cons hi, ih h]
    | fault r => simp [execAll, hi] at h
    | refused r => simp [execAll, hi] at h

/-- From every state with this KEY the commands complete, apply `f` to DATA, keep KEY, and leave in RK either what they
find or the schedule of KEY. -/
def Transforms (key : Block) (is : List Instr) (f : Block → Block) : Prop :=
  ∀ s : State, s.key = key → ∃ u : State, execAll is s = .next u ∧ u.key = key ∧
    (u.rk = s.rk ∨ u.rk = keyExpansion key) ∧ u.data = f s.data

namespace Transforms

variable {key : Block} {is js : List Instr} {f g : Block → Block}

theorem nil : Transforms key [] id := fun s hs => ⟨s, rfl, hs, .inl rfl, rfl⟩

theorem append (hf : Transforms key is f) (hg : Transforms key js g) : Transforms key (is ++ js) (g ∘ f) := by
  intro s hs
  obtain ⟨t, ht, htkey, htrk, htdata⟩ := hf s hs
  obtain ⟨u, hu, hukey, hurk, hudata⟩ := hg t htkey
  refine ⟨u, (execAll_append ht).trans hu, hukey, ?_, hudata.trans (congrArg g htdata)⟩
  obtain hrk | hrk := hurk
  · rwa [hrk]
  · exact .inr hrk

/-- A command followed by one that undoes it. -/
theorem restore {i j : Instr} {s : State} (hf : Transforms s.key [i] f) (hg : Transforms s.key [j] g)
    (h : ∀ x, g (f x) = x) : ∃ t : State, execAll [i, j] s = .next t ∧ t.data = s.data := by
  obtain ⟨t, ht, _, _, hdata⟩ := hf.append hg s rfl
  exact ⟨t, ht, hdata.trans (h s.data)⟩

end Transforms

section Commands

variable {key : Block}

/-- A command that writes DATA alone. -/
theorem transforms_of_exec {i : Instr} {f : Block → Block}
    (h : ∀ s : State, exec i s = .next (State.complete { s with data := f s.data } false)) : Transforms key [i] f :=
  fun s hs => ⟨_, execAll_cons (h s), hs, .inl rfl, rfl⟩

theorem transforms_aesSubbytes : Transforms key [.aesSubbytes] subBytes := transforms_of_exec fun _ => rfl

theorem transforms_aesInvSubbytes : Transforms key [.aesInvSubbytes] invSubBytes := transforms_of_exec fun _ => rfl

theorem transforms_aesShiftrows : Transforms key [.aesShiftrows] shiftRows := transforms_of_exec fun _ => rfl

theorem transforms_aesInvShiftrows : Transforms key [.aesInvShiftrows] invShiftRows := transforms_of_exec fun _ => rfl

theorem transforms_aesMixcolumns : Transforms key [.aesMixcolumns] mixColumns := transforms_of_exec fun _ => rfl

theorem transforms_aesInvMixcolumns : Transforms key [.aesInvMixcolumns] invMixColumns :=
  transforms_of_exec fun _ => rfl

theorem transforms_aesAddroundkey {r : Byte} (hr : r.toNat ≤ 10) :
    Transforms key [.aesAddroundkey r] (addRoundKey · (roundKey (keyExpansion key) r.toNat)) := by
  rintro s rfl
  exact ⟨_, execAll_cons (exec_aesAddroundkey_completes (Nat.not_lt.mpr hr)), rfl, .inr rfl, rfl⟩

theorem transforms_aesAddroundkey_ofNat {n : Nat} (hn : n ≤ 10) :
    Transforms key [.aesAddroundkey (BitVec.ofNat 8 n)] (addRoundKey · (roundKey (keyExpansion key) n)) := by
  have hval : (BitVec.ofNat 8 n).toNat = n := Nat.mod_eq_of_lt (by omega)
  have h := transforms_aesAddroundkey (key := key) (r := BitVec.ofNat 8 n) (hval.trans_le hn)
  rwa [hval] at h

theorem transforms_cipherRoundSteps {n : Nat} (hn : n ≤ 10) :
    Transforms key (cipherRoundSteps n) (cipherRounds (keyExpansion key) · n) := by
  induction n with
  | zero => exact .nil
  | succ n ih =>
    have hround := transforms_aesSubbytes.append (transforms_aesShiftrows.append (transforms_aesMixcolumns.append
      (transforms_aesAddroundkey_ofNat (key := key) hn)))
    exact (ih (by omega)).append hround

theorem transforms_invCipherRoundSteps {n : Nat} (hn : n ≤ 10) :
    Transforms key (invCipherRoundSteps n) (invCipherRounds (keyExpansion key) n) := by
  induction n with
  | zero => exact .nil
  | succ n ih =>
    have hround := transforms_aesInvShiftrows.append (transforms_aesInvSubbytes.append
      ((transforms_aesAddroundkey_ofNat (key := key) hn).append transforms_aesInvMixcolumns))
    exact hround.append (ih (by omega))

end Commands

/-- An AES_ADDROUNDKEY at the start writes the schedule, which the commands after it leave in RK. -/
theorem Transforms.after_aesAddroundkey {is : List Instr} {f : Block → Block} {s : State} (h : Transforms s.key is f)
    {r : Byte} (hr : r.toNat ≤ 10) : ∃ u : State, execAll (.aesAddroundkey r :: is) s = .next u ∧
      u.rk = keyExpansion s.key ∧ u.data = f (addRoundKey s.data (roundKey (keyExpansion s.key) r.toNat)) := by
  have hfirst := exec_aesAddroundkey_completes (s := s) (Nat.not_lt.mpr hr)
  rw [execAll_cons hfirst]
  obtain ⟨u, hu, -, hrk | hrk, hdata⟩ := h (State.complete
    { s with
      rk := keyExpansion s.key
      data := addRoundKey s.data (roundKey (keyExpansion s.key) r.toNat) } false) rfl
  · exact ⟨u, hu, hrk, hdata⟩
  · exact ⟨u, hu, hrk, hdata⟩

end Sys2Proof.Machine

/-! The commands on single blocks and their inverses, against the single steps. -/

namespace Sys2Proof.Machine

/-- Settles O36: each pair is a pair of transformations that undo each other. -/
theorem inverseTransformationCommandsRestoreData : Obligations.InverseTransformationCommandsRestoreData := by
  rintro s i j (h | ⟨r, hr, rfl, rfl⟩)
  · simp only [List.mem_cons, List.not_mem_nil, Prod.mk.injEq, or_false] at h
    obtain ⟨rfl, rfl⟩ | ⟨rfl, rfl⟩ | ⟨rfl, rfl⟩ | ⟨rfl, rfl⟩ | ⟨rfl, rfl⟩ | ⟨rfl, rfl⟩ := h
    · exact transforms_aesSubbytes.restore transforms_aesInvSubbytes invSubBytes_subBytes
    · exact transforms_aesInvSubbytes.restore transforms_aesSubbytes subBytes_invSubBytes
    · exact transforms_aesShiftrows.restore transforms_aesInvShiftrows invShiftRows_shiftRows
    · exact transforms_aesInvShiftrows.restore transforms_aesShiftrows shiftRows_invShiftRows
    · exact transforms_aesMixcolumns.restore transforms_aesInvMixcolumns invMixColumns_mixColumns
    · exact transforms_aesInvMixcolumns.restore transforms_aesMixcolumns mixColumns_invMixColumns
  · exact (transforms_aesAddroundkey hr).restore (transforms_aesAddroundkey hr) (addRoundKey_addRoundKey · _)

/-- Settles O37: nine full rounds and the last, after the initial AES_ADDROUNDKEY. -/
theorem encBlockIsItsSingleSteps : Obligations.EncBlockIsItsSingleSteps := by
  intro s
  have hlast := transforms_aesSubbytes.append (transforms_aesShiftrows.append
    (transforms_aesAddroundkey (key := s.key) (r := 10#8) (by decide)))
  have hrounds := (transforms_cipherRoundSteps (by decide : 9 ≤ 10)).append hlast
  obtain ⟨u, hu, hrk, hdata⟩ := hrounds.after_aesAddroundkey (r := 0#8) (by decide)
  exact ⟨_, u, rfl, hu, hdata.symm, hrk.symm, rfl, complete_succeeds s _ false rfl, rfl, memoryKept_of_mem_eq rfl rfl⟩

/-- Settles O38: the rounds of the inverse cipher and the last, after the initial AES_ADDROUNDKEY. -/
theorem decBlockIsItsSingleSteps : Obligations.DecBlockIsItsSingleSteps := by
  intro s
  have hlast := transforms_aesInvShiftrows.append (transforms_aesInvSubbytes.append
    (transforms_aesAddroundkey (key := s.key) (r := 0#8) (by decide)))
  have hrounds := (transforms_invCipherRoundSteps (by decide : 9 ≤ 10)).append hlast
  obtain ⟨u, hu, hrk, hdata⟩ := hrounds.after_aesAddroundkey (r := 10#8) (by decide)
  exact ⟨_, u, rfl, hu, hdata.symm, hrk.symm, rfl, complete_succeeds s _ false rfl, rfl, memoryKept_of_mem_eq rfl rfl⟩

/-- Settles O39: both commands use the schedule of one KEY. -/
theorem decBlockRestoresTheBlock : Obligations.DecBlockRestoresTheBlock :=
  fun s => ⟨_, _, rfl, rfl, invCipher_cipher (keyExpansion s.key) s.data⟩

end Sys2Proof.Machine

/-! The transformation commands byte by byte. -/

namespace Sys2Proof.Machine

/-- What R162 to R167 and R169 have in common: the command succeeds and writes DATA alone. -/
theorem exists_next_of_exec_data {i : Instr} {s : State} {d : Block} {P : State → Prop}
    (h : exec i s = .next (State.complete { s with data := d } false))
    (hP : P (State.complete { s with data := d } false)) :
    ∃ t : State, exec i s = .next t ∧ Succeeds s t false ∧
      t = { s with data := t.data, phase := t.phase, status := t.status } ∧ MemoryKept s t ∧ P t :=
  ⟨_, h, complete_succeeds s _ false rfl, rfl, memoryKept_of_mem_eq rfl rfl, hP⟩

/-- Settles O31: the byte forms of R148 and R149. -/
theorem substitutionCommands : Obligations.SubstitutionCommands := fun s =>
  ⟨exists_next_of_exec_data rfl fun _ hi => byteAt_subBytes s.data hi,
    exists_next_of_exec_data rfl fun _ hi => byteAt_invSubBytes s.data hi⟩

/-- Settles O32: the byte permutations of R150 and R151. -/
theorem rowShiftCommands : Obligations.RowShiftCommands := fun s =>
  ⟨exists_next_of_exec_data rfl fun _ hi => byteAt_shiftRows s.data hi,
    exists_next_of_exec_data rfl fun _ hi => byteAt_invShiftRows s.data hi⟩

/-- The four rows of one column of a circulant product. -/
theorem byteAt_blockOfState_circulant (k0 k1 k2 k3 : Byte) (x : Block) {c : Nat} (hc : c < 4) {x0 x1 x2 x3 : Byte}
    (h0 : x0 = byteAt x (0 + 4 * c)) (h1 : x1 = byteAt x (1 + 4 * c)) (h2 : x2 = byteAt x (2 + 4 * c))
    (h3 : x3 = byteAt x (3 + 4 * c)) :
    byteAt (blockOfState (circulant k0 k1 k2 k3 x)) (0 + 4 * c) =
      gmul k0 x0 ^^^ gmul k1 x1 ^^^ gmul k2 x2 ^^^ gmul k3 x3 ∧
    byteAt (blockOfState (circulant k0 k1 k2 k3 x)) (1 + 4 * c) =
      gmul k3 x0 ^^^ gmul k0 x1 ^^^ gmul k1 x2 ^^^ gmul k2 x3 ∧
    byteAt (blockOfState (circulant k0 k1 k2 k3 x)) (2 + 4 * c) =
      gmul k2 x0 ^^^ gmul k3 x1 ^^^ gmul k0 x2 ^^^ gmul k1 x3 ∧
    byteAt (blockOfState (circulant k0 k1 k2 k3 x)) (3 + 4 * c) =
      gmul k1 x0 ^^^ gmul k2 x1 ^^^ gmul k3 x2 ^^^ gmul k0 x3 := by
  have hrow : ∀ r < 4, byteAt (blockOfState (circulant k0 k1 k2 k3 x)) (r + 4 * c) = circulant k0 k1 k2 k3 x r c :=
    fun r hr => stateByte_blockOfState _ hr hc
  subst h0 h1 h2 h3
  rw [hrow 0 (by decide), hrow 1 (by decide), hrow 2 (by decide), hrow 3 (by decide)]
  refine ⟨rfl, ?_, ?_, ?_⟩ <;>
  · simp only [circulant, stateByte, Nat.reduceAdd, Nat.reduceMod]
    ac_rfl

/-- Settles O33: the rows of a circulant product with the constants of R152 and R153. -/
theorem columnMixCommands : Obligations.ColumnMixCommands := by
  intro s
  refine ⟨exists_next_of_exec_data rfl fun c hc x0 x1 x2 x3 h0 h1 h2 h3 => ?_,
    exists_next_of_exec_data rfl fun c hc x0 x1 x2 x3 h0 h1 h2 h3 =>
      byteAt_blockOfState_circulant 0x0e#8 0x0b#8 0x0d#8 0x09#8 s.data hc h0 h1 h2 h3⟩
  have hrows := byteAt_blockOfState_circulant 0x02#8 0x03#8 0x01#8 0x01#8 s.data hc h0 h1 h2 h3
  simp only [gmul_one_left] at hrows
  exact hrows

/-- Settles O34: byte by byte, with the products by `{00}` and `{01}` of R142. -/
theorem gfmulCommand : Obligations.GfmulCommand := by
  intro c s
  have hbyte {i : Nat} (hi : i < 16) :
      byteAt (blockOfBytes fun i => gmul (byteAt s.data i) c) i = gmul (byteAt s.data i) c :=
    byteAt_blockOfBytes _ i hi
  refine exists_next_of_exec_data rfl ⟨fun _ hi => hbyte hi, ?_, ?_⟩
  · rintro rfl
    refine block_ext fun i hi => (hbyte hi).trans ?_
    rw [gmul_zero_right, byteAt, BitVec.extractLsb'_zero]
  · rintro rfl
    exact block_ext fun i hi => (hbyte hi).trans (gmul_one_right _)

/-- Settles O35: the two sides of the check of R168. -/
theorem addroundkeyCommand : Obligations.AddroundkeyCommand := by
  refine fun r s => ⟨fun hr => ?_, fun hr => ?_⟩
  · refine ⟨_, exec_aesAddroundkey_completes (Nat.not_lt.mpr hr), complete_succeeds s _ false rfl, rfl,
      memoryKept_of_mem_eq rfl rfl, rfl, fun i hi => ?_⟩
    rw [complete_data, complete_rk, addRoundKey, byteAt_xor, byteAt_roundKey _ _ hi, argValue]
  · exact ⟨_, exec_aesAddroundkey_rejects hr, raise_rejectsWith s _ _ _⟩

end Sys2Proof.Machine

/-! SUPPORT. Sixteen draws of a byte that the queue of answers serves (R77, R180). -/

namespace Sys2Proof.Machine

/-- Answers that are bytes are taken as they are, the first first. -/
theorem bytes_of_queue (answers : List Byte) (rest : List Nat) (count : Nat) :
    Rng.bytes answers.length { queue := answers.map BitVec.toNat ++ rest, count := count } =
      (answers, { queue := rest, count := count + answers.length }) := by
  induction answers generalizing count with
  | nil => rfl
  | cons x xs ih =>
    have hdraw : Rng.byte { queue := x.toNat :: (xs.map BitVec.toNat ++ rest), count := count } =
        (x, { queue := xs.map BitVec.toNat ++ rest, count := count + 1 }) := by
      simp [Rng.byte, range_of_queue _ _ (Nat.zero_le _) (Nat.le_of_lt_succ x.isLt)]
    rw [List.length_cons, List.map_cons, List.cons_append, Rng.bytes, hdraw, ih (count + 1),
      Nat.add_assoc, Nat.add_comm 1]

theorem byteAt_blockOfDraws (X : List Byte) {i : Nat} (hi : i < 16) : byteAt (blockOfDraws X) i = X.getD i 0#8 :=
  byteAt_blockOfBytes _ i hi

theorem sixteen_bytes_of_queue {g : Rng} {answers : List Byte} {rest : List Nat} (hlen : answers.length = 16)
    (hq : g.queue = answers.map BitVec.toNat ++ rest) :
    (Rng.bytes 16 g).2.queue = rest ∧
      ∀ i : Nat, i < 16 → byteAt (blockOfDraws (Rng.bytes 16 g).1) i = answers.getD i 0#8 := by
  obtain ⟨queue, count⟩ := g
  subst hq
  rw [← hlen, bytes_of_queue]
  exact ⟨rfl, fun i hi => byteAt_blockOfDraws answers (hlen ▸ hi)⟩

end Sys2Proof.Machine

/-! SUPPORT. The length checks (R185 to R190), and what memory reads as where a string was written. -/

namespace Sys2Proof.Machine

theorem badBlockLength_iff {L : Nat} : badBlockLength L = true ↔ 4096 < L ∨ L % 16 ≠ 0 := by
  simp [badBlockLength]

theorem not_badBlockLength {L : Nat} (h : L ≤ 4096) (h16 : L % 16 = 0) : ¬ badBlockLength L = true := by
  rw [badBlockLength_iff]
  omega

theorem badPaddedLength_iff {L : Nat} : badPaddedLength L = true ↔ 4096 < L + padCount L := by
  simp [badPaddedLength]

theorem not_badPaddedLength {L : Nat} (h : L + padCount L ≤ 4096) : ¬ badPaddedLength L = true := by
  rw [badPaddedLength_iff]
  omega

/-- A padded message has whole blocks (R182). -/
theorem add_padCount_mod (L : Nat) : (L + padCount L) % 16 = 0 := by
  rw [padCount]
  omega

section Written

variable {t : State} {m : Memory} {base : Nat} {X : List Byte}

theorem readByte_of_write (hm : t.mem = m.write base X) {i : Nat} (hi : i < X.length) :
    t.readByte (base + i) = X[i] := by
  simp [State.readByte, hm, lookup_write, hi]

theorem readBytes_of_write (hm : t.mem = m.write base X) {n : Nat} (hn : n ≤ X.length) :
    t.readBytes base n = X.take n := by
  refine List.ext_getElem (by simp [hn]) fun i h1 _ => ?_
  rw [length_readBytes] at h1
  simp [State.readBytes, readByte_of_write hm (h1.trans_le hn)]

theorem message_of_write (hm : t.mem = m.write mbufBase X) (hlen : t.messageLength = X.length) : t.message = X := by
  rw [State.message, readBytes_of_write hm hlen.le, hlen, List.take_length]

theorem readBytes_add (s : State) (base a b : Nat) :
    s.readBytes base (a + b) = s.readBytes base a ++ s.readBytes (base + a) b := by
  simp [State.readBytes, List.range_add, Nat.add_assoc]

end Written

end Sys2Proof.Machine

/-! SUPPORT. PKCS7 padding (R182, R183): what `Unpad7` accepts, and that it undoes `Pad7`. -/

namespace Sys2Proof.Machine

/-- The padding is the last byte, repeated as often as it says. -/
theorem endsInPadding_iff {X : List Byte} {n : Nat} : EndsInPadding X n ↔
    1 ≤ n ∧ n ≤ 16 ∧ n ≤ X.length ∧
      ∃ last : Byte, X.getLast? = some last ∧ last.toNat = n ∧ ∀ x ∈ X.drop (X.length - n), x = last := by
  constructor
  · rintro ⟨h1, h16, hlen, hbytes⟩
    have hbyte {k : Nat} (hk : k < X.length) (hn : X.length - n ≤ k) : X[k].toNat = n := by
      simpa [hk] using hbytes k hn hk
    have hpos : X.length - 1 < X.length := by omega
    refine ⟨h1, h16, hlen, X[X.length - 1], by rw [List.getLast?_eq_getElem?, List.getElem?_eq_getElem hpos],
      hbyte _ (by omega), fun x hx => ?_⟩
    obtain ⟨j, hj, rfl⟩ := List.mem_drop_iff_getElem.mp hx
    exact BitVec.eq_of_toNat_eq ((hbyte _ (by omega)).trans (hbyte _ (by omega)).symm)
  · rintro ⟨h1, h16, hlen, last, -, rfl, hall⟩
    refine ⟨h1, h16, hlen, fun k hn hk => ?_⟩
    have hmem : X[k] ∈ X.drop (X.length - last.toNat) :=
      List.mem_drop_iff_getElem.mpr ⟨k - (X.length - last.toNat), by omega, by simp [Nat.add_sub_cancel' hn]⟩
    simp [hk, hall _ hmem]

theorem unpad7_of_endsInPadding {X : List Byte} {n : Nat} (h : EndsInPadding X n) :
    unpad7 X = some (X.take (X.length - n)) := by
  obtain ⟨h1, h16, -, last, hlast, rfl, hall⟩ := endsInPadding_iff.mp h
  have hbeq : (X.drop (X.length - last.toNat)).all (fun x => x == last) = true := by simpa using hall
  simp only [unpad7, hlast]
  rw [if_neg (by omega), if_pos hbeq]

/-- `Unpad7` accepts nothing else: of whole blocks no padding is longer than the string. -/
theorem endsInPadding_of_unpad7 {X Y : List Byte} (h16 : X.length % 16 = 0) (h : unpad7 X = some Y) :
    ∃ n : Nat, EndsInPadding X n := by
  unfold unpad7 at h
  split at h
  · cases h
  · next last hlast =>
    have hpos : 0 < X.length := List.length_pos_of_mem (List.mem_of_getLast? hlast)
    dsimp only at h
    split_ifs at h with hrange hall
    exact ⟨last.toNat, endsInPadding_iff.mpr
      ⟨by omega, by omega, by omega, last, hlast, rfl, by simpa using hall⟩⟩

theorem unpad7_eq_none {X : List Byte} (h16 : X.length % 16 = 0) (h : ∀ n : Nat, ¬ EndsInPadding X n) :
    unpad7 X = none := by
  refine Option.eq_none_iff_forall_ne_some.mpr fun Y hY => ?_
  obtain ⟨n, hn⟩ := endsInPadding_of_unpad7 h16 hY
  exact h n hn

/-- The length that removing the padding leaves (R183). -/
theorem lengthWord_take_toNat {X : List Byte} {L : Nat} (hX : X.length = L) (hL : L ≤ 4096) (n : Nat) :
    (lengthWord (X.take (X.length - n)).length).toNat = L - n := by
  rw [List.length_take_of_le (Nat.sub_le _ _), hX, lengthWord_toNat (by omega)]

theorem endsInPadding_pad7 (X : List Byte) : EndsInPadding (pad7 X) (padCount X.length) := by
  have hn : padCount X.length ≤ 16 := Nat.sub_le 16 _
  refine ⟨by rw [padCount]; omega, hn, by simp, fun k hk hlt => ?_⟩
  rw [length_pad7, Nat.add_sub_cancel] at hk
  rw [length_pad7] at hlt
  rw [pad7, List.getD_append_right _ _ _ _ hk, List.getD_replicate _ (by omega), BitVec.toNat_ofNat]
  omega

theorem unpad7_pad7 (X : List Byte) : unpad7 (pad7 X) = some X := by
  rw [unpad7_of_endsInPadding (endsInPadding_pad7 X), length_pad7, Nat.add_sub_cancel, pad7, List.take_left]

end Sys2Proof.Machine

/-! SUPPORT. Byte strings by blocks, and the chaining of R184 block by block. -/

namespace Sys2Proof.Machine

theorem byteAt_blockOfString (X : List Byte) (j : Nat) {i : Nat} (hi : i < 16) :
    byteAt (blockOfString X j) i = X.getD (16 * j + i) 0#8 := byteAt_blockOfBytes _ i hi

/-- A string of whole blocks is determined by them. -/
theorem eq_of_blockOfString_eq {X Y : List Byte} (hlen : X.length = Y.length) (h16 : X.length % 16 = 0)
    (h : ∀ j, 16 * j < X.length → blockOfString X j = blockOfString Y j) : X = Y := by
  refine List.ext_getElem hlen fun k hX hY => ?_
  have hk : k % 16 < 16 := Nat.mod_lt k (by decide)
  have hbyte := congrArg (byteAt · (k % 16)) (h (k / 16) (by omega))
  simpa [byteAt_blockOfString _ _ hk, Nat.div_add_mod, hX, hY] using hbyte

theorem blockOfString_bytesOf {Bs : List Block} {j : Nat} (hj : j < Bs.length) :
    blockOfString (bytesOf Bs) j = Bs.getD j 0#128 := by
  induction Bs generalizing j with
  | nil => exact absurd hj (Nat.not_lt_zero j)
  | cons b rest ih =>
    have hbytes : bytesOf (b :: rest) = blockBytes b ++ bytesOf rest := rfl
    refine block_ext fun i hi => ?_
    rw [byteAt_blockOfString _ _ hi, hbytes]
    cases j with
    | zero => rw [List.getD_append _ _ _ _ (by simpa using hi), Nat.mul_zero, Nat.zero_add, getD_blockBytes b i hi]; rfl
    | succ j =>
      rw [List.getD_append_right _ _ _ _ (by rw [length_blockBytes]; omega), length_blockBytes,
        show 16 * (j + 1) + i - 16 = 16 * j + i by omega, ← byteAt_blockOfString _ _ hi,
        ih (Nat.lt_of_succ_lt_succ hj), List.getD_cons_succ]

theorem length_blocksOf (X : List Byte) : (blocksOf X).length = X.length / 16 := by simp [blocksOf]

theorem getD_blocksOf {X : List Byte} {j : Nat} (hj : j < X.length / 16) :
    (blocksOf X).getD j 0#128 = blockOfString X j := by
  simp [blocksOf, hj]

/-- Each ciphertext block is chained to the one before it, the first to `prev`. -/
theorem getD_cbcEncBlocks (sched : BitVec 1408) (prev : Block) {Bs : List Block} {j : Nat} (hj : j < Bs.length) :
    (cbcEncBlocks sched prev Bs).getD j 0#128 =
      cipher sched (Bs.getD j 0#128 ^^^
        (if j = 0 then prev else (cbcEncBlocks sched prev Bs).getD (j - 1) 0#128)) := by
  induction Bs generalizing prev j with
  | nil => exact absurd hj (Nat.not_lt_zero j)
  | cons p rest ih =>
    cases j with
    | zero => simp [cbcEncBlocks]
    | succ j =>
      rw [cbcEncBlocks, List.getD_cons_succ, List.getD_cons_succ, ih _ (Nat.lt_of_succ_lt_succ hj)]
      cases j <;> simp

/-- Each plaintext block is chained to the ciphertext block before it, the first to `prev`. -/
theorem getD_cbcDecBlocks (sched : BitVec 1408) (prev : Block) {Bs : List Block} {j : Nat} (hj : j < Bs.length) :
    (cbcDecBlocks sched prev Bs).getD j 0#128 =
      invCipher sched (Bs.getD j 0#128) ^^^ (if j = 0 then prev else Bs.getD (j - 1) 0#128) := by
  induction Bs generalizing prev j with
  | nil => exact absurd hj (Nat.not_lt_zero j)
  | cons c rest ih =>
    cases j with
    | zero => simp [cbcDecBlocks]
    | succ j =>
      rw [cbcDecBlocks, List.getD_cons_succ, List.getD_cons_succ, ih _ (Nat.lt_of_succ_lt_succ hj)]
      cases j <;> simp

section Chains

variable {X : List Byte} {j : Nat} (sched : BitVec 1408) (iv : Block)

theorem length_cbcDec_of_blocks (h16 : X.length % 16 = 0) : (cbcDec X sched iv).length = X.length := by
  rw [cbcDec, length_bytesOf, length_cbcDecBlocks, length_blocksOf]
  omega

theorem blockOfString_cbcEnc (hj : j < X.length / 16) :
    blockOfString (cbcEnc X sched iv) j =
      cipher sched (blockOfString X j ^^^
        (if j = 0 then iv else blockOfString (cbcEnc X sched iv) (j - 1))) := by
  have hblock {k : Nat} (hk : k < X.length / 16) :
      blockOfString (cbcEnc X sched iv) k = (cbcEncBlocks sched iv (blocksOf X)).getD k 0#128 :=
    blockOfString_bytesOf (by rwa [length_cbcEncBlocks, length_blocksOf])
  rw [hblock hj, getD_cbcEncBlocks sched iv (by rwa [length_blocksOf]), getD_blocksOf hj, hblock (by omega)]

theorem blockOfString_cbcDec (hj : j < X.length / 16) :
    blockOfString (cbcDec X sched iv) j =
      invCipher sched (blockOfString X j) ^^^ (if j = 0 then iv else blockOfString X (j - 1)) := by
  rw [cbcDec, blockOfString_bytesOf (by rwa [length_cbcDecBlocks, length_blocksOf]),
    getD_cbcDecBlocks sched iv (by rwa [length_blocksOf]), getD_blocksOf hj, getD_blocksOf (by omega)]

/-- Block by block, the inverse cipher undoes the cipher and the block chained in cancels (R191). -/
theorem cbcDec_cbcEnc (h16 : X.length % 16 = 0) : cbcDec (cbcEnc X sched iv) sched iv = X := by
  have henc := length_cbcEnc_of_blocks h16 sched iv
  have hdec := length_cbcDec_of_blocks (X := cbcEnc X sched iv) sched iv (henc ▸ h16)
  refine eq_of_blockOfString_eq (hdec.trans henc) (by omega) fun j hj => ?_
  rw [blockOfString_cbcDec sched iv (by omega), blockOfString_cbcEnc sched iv (by omega), invCipher_cipher,
    BitVec.xor_assoc, BitVec.xor_self, BitVec.xor_zero]

end Chains

end Sys2Proof.Machine

/-! SUPPORT. The state PKCS7_PAD leaves where the padded message fits (R185). -/

namespace Sys2Proof.Machine

/-- The bytes PKCS7 adds to `L` bytes (R182). -/
def padding7 (L : Nat) : List Byte := List.replicate (padCount L) (BitVec.ofNat 8 (padCount L))

@[simp] theorem length_padding7 (L : Nat) : (padding7 L).length = padCount L := List.length_replicate

/-- The state after PKCS7_PAD has appended its bytes (R185). -/
def State.padded (s : State) : State := State.complete
  { s.writeBytes (mbufBase + s.messageLength) (padding7 s.messageLength) with
    mlen := lengthWord (s.messageLength + padCount s.messageLength) } false

section Padded

variable {s : State}

theorem exec_pkcs7Pad_eq_padded (h : s.messageLength + padCount s.messageLength ≤ 4096) :
    exec .pkcs7Pad s = .next s.padded := exec_pkcs7Pad_completes (not_badPaddedLength h)

theorem padded_messageLength (h : s.messageLength + padCount s.messageLength ≤ 4096) :
    s.padded.messageLength = s.messageLength + padCount s.messageLength := lengthWord_toNat h

@[simp] theorem padded_key (s : State) : s.padded.key = s.key := rfl
@[simp] theorem padded_iv (s : State) : s.padded.iv = s.iv := rfl

theorem padded_keptOutside (s : State) :
    MemoryKeptOutside s s.padded (mbufBase + s.messageLength) (padCount s.messageLength) := by
  rw [← length_padding7]
  exact memoryKeptOutside_of_write rfl rfl

/-- Each byte appended has the value of their count. -/
theorem padded_readByte_toNat (s : State) {i : Nat} (hi : i < padCount s.messageLength) :
    (s.padded.readByte (mbufBase + s.messageLength + i)).toNat = padCount s.messageLength := by
  have hn : padCount s.messageLength ≤ 16 := Nat.sub_le 16 _
  rw [readByte_of_write (X := padding7 s.messageLength) rfl (by simpa using hi)]
  simp only [padding7, List.getElem_replicate, BitVec.toNat_ofNat]
  omega

theorem padded_message (h : s.messageLength + padCount s.messageLength ≤ 4096) :
    s.padded.message = pad7 s.message := by
  have hold : s.padded.readBytes mbufBase s.messageLength = s.message :=
    readBytes_congr fun k hk => padded_keptOutside s _ (.inl (by omega))
  have hnew : s.padded.readBytes (mbufBase + s.messageLength) (padCount s.messageLength) =
      padding7 s.messageLength := by
    rw [readBytes_of_write rfl (length_padding7 _).ge, ← length_padding7, List.take_length]
  rw [State.message, padded_messageLength h, readBytes_add, hold, hnew, pad7, length_message, padding7]

end Padded

end Sys2Proof.Machine

/-! SUPPORT. The state a CBC command leaves: a string at the start of MBUF, its length in MLEN and the schedule of KEY
in RK (R187 to R190). -/

namespace Sys2Proof.Machine

/-- The state after a CBC command has stored `X`, with `n` in MLEN. -/
def State.stored (s : State) (X : List Byte) (n : Word) : State := State.complete
  { s.writeBytes mbufBase X with rk := keyExpansion s.key, mlen := n } false

section Stored

variable {s : State} {X : List Byte} {n : Word}

theorem exec_cbcEncRaw_eq_stored (hfits : s.messageLength ≤ 4096) (h16 : s.messageLength % 16 = 0) :
    exec .cbcEncRaw s = .next (s.stored (cbcEnc s.message (keyExpansion s.key) s.iv) s.mlen) :=
  exec_cbcEncRaw_completes (not_badBlockLength hfits h16)

theorem exec_cbcDecRaw_eq_stored (hfits : s.messageLength ≤ 4096) (h16 : s.messageLength % 16 = 0) :
    exec .cbcDecRaw s = .next (s.stored (cbcDec s.message (keyExpansion s.key) s.iv) s.mlen) :=
  exec_cbcDecRaw_completes (not_badBlockLength hfits h16)

theorem exec_cbcEnc_eq_stored (h : s.messageLength + padCount s.messageLength ≤ 4096) :
    exec .cbcEnc s = .next (s.stored (cbcEnc (pad7 s.message) (keyExpansion s.key) s.iv)
      (lengthWord (s.messageLength + padCount s.messageLength))) :=
  exec_cbcEnc_completes (not_badPaddedLength h)

theorem exec_cbcDec_eq_stored (hfits : s.messageLength ≤ 4096) (h16 : s.messageLength % 16 = 0) {Y : List Byte}
    (hu : unpad7 (cbcDec s.message (keyExpansion s.key) s.iv) = some Y) :
    exec .cbcDec s = .next (s.stored (cbcDec s.message (keyExpansion s.key) s.iv) (lengthWord Y.length)) :=
  exec_cbcDec_completes (not_badBlockLength hfits h16) hu

@[simp] theorem stored_rk (s : State) (X : List Byte) (n : Word) : (s.stored X n).rk = keyExpansion s.key := rfl

theorem stored_succeeds (s : State) (X : List Byte) (n : Word) : Succeeds s (s.stored X n) false :=
  complete_succeeds s _ false rfl

theorem stored_keptOutside {L : Nat} (hX : X.length = L) : MemoryKeptOutside s (s.stored X n) mbufBase L :=
  hX ▸ memoryKeptOutside_of_write rfl rfl

theorem stored_message (hn : n.toNat ≤ X.length) : (s.stored X n).message = X.take n.toNat :=
  readBytes_of_write rfl hn

theorem stored_message_of_length (hX : X.length = n.toNat) : (s.stored X n).message = X := by
  rw [stored_message hX.ge, ← hX, List.take_length]

/-- One string stored over memories that agree elsewhere. -/
theorem memoryKept_stored {p : State} {n' : Word} (h : MemoryKeptOutside s p mbufBase X.length) :
    MemoryKept (p.stored X n') (s.stored X n) := by
  intro o
  by_cases ho : o < mbufBase ∨ mbufBase + X.length ≤ o
  · rw [stored_keptOutside rfl o ho, stored_keptOutside rfl o ho, h o ho]
  · obtain ⟨i, rfl⟩ := Nat.exists_eq_add_of_le (show mbufBase ≤ o by omega)
    rw [readByte_of_write (X := X) rfl (by omega), readByte_of_write (X := X) rfl (by omega)]

theorem length_cbcEnc_message (h16 : s.messageLength % 16 = 0) (sched : BitVec 1408) (iv : Block) :
    (cbcEnc s.message sched iv).length = s.messageLength := by
  rw [length_cbcEnc_of_blocks (by rwa [length_message]), length_message]

theorem length_cbcDec_message (h16 : s.messageLength % 16 = 0) (sched : BitVec 1408) (iv : Block) :
    (cbcDec s.message sched iv).length = s.messageLength := by
  rw [length_cbcDec_of_blocks sched iv (by rwa [length_message]), length_message]

theorem length_cbcEnc_pad7_message (s : State) (sched : BitVec 1408) (iv : Block) :
    (cbcEnc (pad7 s.message) sched iv).length = s.messageLength + padCount s.messageLength := by
  rw [length_cbcEnc_of_blocks (length_pad7_mod _), length_pad7, length_message]

/-- The round trip of whole blocks through MBUF, under one KEY and IV (R191). -/
theorem cbcDec_stored_cbcEnc (h16 : X.length % 16 = 0) (hn : n.toNat = X.length) :
    cbcDec (s.stored (cbcEnc X (keyExpansion s.key) s.iv) n).message (keyExpansion s.key) s.iv = X := by
  have hlen := length_cbcEnc_of_blocks h16 (keyExpansion s.key) s.iv
  rw [stored_message_of_length (hlen.trans hn.symm), cbcDec_cbcEnc _ _ h16]

/-- CBC_DEC of what decrypts to a padded string. -/
theorem exec_cbcDec_of_pad7 (hfits : (pad7 X).length ≤ 4096) (hlen : s.messageLength = (pad7 X).length)
    (hdec : cbcDec s.message (keyExpansion s.key) s.iv = pad7 X) :
    exec .cbcDec s = .next (s.stored (pad7 X) (lengthWord X.length)) := by
  rw [exec_cbcDec_eq_stored (hlen.trans_le hfits) (hlen ▸ length_pad7_mod X) (hdec ▸ unpad7_pad7 X), hdec]

end Stored

end Sys2Proof.Machine

/-! Random keys and IVs, and the padding commands. -/

namespace Sys2Proof.Machine

/-- Settles O41: both commands store the sixteen bytes of one run of draws. -/
theorem rngCommandsTakeSixteenDraws : Obligations.RngCommandsTakeSixteenDraws := fun s =>
  ⟨⟨_, rfl, complete_succeeds s _ false rfl, rfl, memoryKept_of_mem_eq rfl rfl, count_bytes 16 s.rng,
      fun _ _ => sixteen_bytes_of_queue⟩,
    ⟨_, rfl, complete_succeeds s _ false rfl, rfl, memoryKept_of_mem_eq rfl rfl, count_bytes 16 s.rng,
      fun _ _ => sixteen_bytes_of_queue⟩⟩

/-- Settles O42: the two sides of the check of R185. -/
theorem pkcs7PadCommand : Obligations.Pkcs7PadCommand := by
  rintro s _ _ rfl rfl
  refine ⟨fun h => ⟨_, exec_pkcs7Pad_eq_padded h, complete_succeeds s _ false rfl, rfl, padded_messageLength h,
      fun k hk hlt => ?_, padded_keptOutside s⟩,
    fun h => ⟨_, exec_pkcs7Pad_rejects (badPaddedLength_iff.mpr h), raise_rejectsWith s _ _ _⟩⟩
  obtain ⟨i, rfl⟩ := Nat.exists_eq_add_of_le hk
  rw [← Nat.add_assoc]
  exact padded_readByte_toNat s (Nat.add_lt_add_iff_left.mp hlt)

/-- Settles O43: the checks of R186 in their order; the message has whole blocks when its padding is looked at. -/
theorem pkcs7UnpadCommand : Obligations.Pkcs7UnpadCommand := by
  rintro s _ rfl
  refine ⟨fun h => ⟨_, exec_pkcs7Unpad_rejects_length (badBlockLength_iff.mpr h), raise_rejectsWith s _ _ _⟩,
    fun hfits h16 => ⟨fun n hn => ?_, fun hnone => ?_⟩⟩
  · exact ⟨_, exec_pkcs7Unpad_completes (not_badBlockLength hfits h16) (unpad7_of_endsInPadding hn),
      complete_succeeds s _ false rfl, rfl, lengthWord_take_toNat (length_message s) hfits n,
      memoryKept_of_mem_eq rfl rfl⟩
  · exact ⟨_, exec_pkcs7Unpad_rejects_padding (not_badBlockLength hfits h16)
      (unpad7_eq_none (by rwa [length_message]) hnone), raise_rejectsWith s _ _ _⟩

end Sys2Proof.Machine

/-! CBC encryption and decryption of the message in MBUF. -/

namespace Sys2Proof.Machine

/-- Settles O44: the message written is `CbcEnc` of the message found. -/
theorem cbcEncRawChains : Obligations.CbcEncRawChains := by
  rintro s _ rfl
  refine ⟨fun h => ⟨_, exec_cbcEncRaw_rejects (badBlockLength_iff.mpr h), raise_rejectsWith s _ _ _⟩,
    fun hfits h16 => ?_⟩
  have hlen := length_cbcEnc_message h16 (keyExpansion s.key) s.iv
  refine ⟨_, exec_cbcEncRaw_eq_stored hfits h16, stored_succeeds s _ _, rfl, rfl, stored_keptOutside hlen,
    fun j hj => ?_⟩
  rw [stored_message_of_length hlen]
  exact blockOfString_cbcEnc _ _ (by rw [length_message, State.messageLength]; omega)

/-- Settles O45: the message written is `CbcDec` of the message found. -/
theorem cbcDecRawChains : Obligations.CbcDecRawChains := by
  rintro s _ rfl
  refine ⟨fun h => ⟨_, exec_cbcDecRaw_rejects (badBlockLength_iff.mpr h), raise_rejectsWith s _ _ _⟩,
    fun hfits h16 => ?_⟩
  have hlen := length_cbcDec_message h16 (keyExpansion s.key) s.iv
  refine ⟨_, exec_cbcDecRaw_eq_stored hfits h16, stored_succeeds s _ _, rfl, rfl, stored_keptOutside hlen,
    fun j hj => ?_⟩
  rw [stored_message_of_length hlen]
  exact blockOfString_cbcDec _ _ (by rw [length_message, State.messageLength]; omega)

/-- Settles O46: both ways store `CbcEnc` of the padded message, over memories that differ under it alone. -/
theorem cbcEncIsPadThenRaw : Obligations.CbcEncIsPadThenRaw := by
  rintro s _ _ rfl rfl
  refine ⟨fun h => ?_, fun h => ⟨_, exec_cbcEnc_rejects (badPaddedLength_iff.mpr h), raise_rejectsWith s _ _ _⟩⟩
  have hlen := length_cbcEnc_pad7_message s (keyExpansion s.key) s.iv
  have hplen := padded_messageLength h
  have hraw := exec_cbcEncRaw_eq_stored (s := s.padded) (hplen.trans_le h) (hplen ▸ add_padCount_mod _)
  rw [padded_message h, padded_key, padded_iv] at hraw
  refine ⟨_, _, exec_cbcEnc_eq_stored h, (execAll_cons (exec_pkcs7Pad_eq_padded h)).trans (execAll_cons hraw),
    stored_succeeds s _ _, rfl, lengthWord_toNat h, rfl, by rw [stored_rk, stored_rk, padded_key],
    memoryKept_stored fun o ho => ?_, stored_keptOutside hlen⟩
  rw [hlen] at ho
  exact padded_keptOutside s o (by omega)

/-- Settles O47: both commands store one string; the padding is looked for in it. -/
theorem cbcDecIsRawThenUnpad : Obligations.CbcDecIsRawThenUnpad := by
  rintro s _ rfl
  refine ⟨fun h => ⟨_, exec_cbcDec_rejects_length (badBlockLength_iff.mpr h), raise_rejectsWith s _ _ _⟩,
    fun hfits h16 => ⟨_, exec_cbcDecRaw_eq_stored hfits h16, ?_⟩⟩
  have hlen := length_cbcDec_message h16 (keyExpansion s.key) s.iv
  rw [stored_message_of_length hlen]
  refine ⟨fun n hn => ?_, fun hnone => ?_⟩
  · exact ⟨_, exec_cbcDec_eq_stored hfits h16 (unpad7_of_endsInPadding hn), stored_succeeds s _ _, rfl,
      lengthWord_take_toNat hlen hfits n, rfl, memoryKept_of_mem_eq rfl rfl, stored_keptOutside hlen⟩
  · exact ⟨_, exec_cbcDec_rejects_padding (not_badBlockLength hfits h16)
      (unpad7_eq_none (hlen ▸ h16) hnone), raise_rejectsWith s _ _ _⟩

/-- Settles O48: `cbcDec_cbcEnc` gives the padded message back, `unpad7_pad7` the message. -/
theorem cbcDecRestoresTheMessage : Obligations.CbcDecRestoresTheMessage := by
  intro s (h : s.messageLength + padCount s.messageLength ≤ 4096)
  have hpad : (pad7 s.message).length = s.messageLength + padCount s.messageLength := by
    rw [length_pad7, length_message]
  have hn := (lengthWord_toNat h).trans hpad.symm
  have hback : lengthWord s.message.length = s.mlen := by
    rw [length_message, lengthWord, State.messageLength, BitVec.ofNat_toNat, BitVec.setWidth_eq]
  have hdec := cbcDec_stored_cbcEnc (s := s) (length_pad7_mod s.message) hn
  refine ⟨_, _, exec_cbcEnc_eq_stored h, exec_cbcDec_of_pad7 (hpad.trans_le h) hn hdec, stored_succeeds s _ _,
    stored_succeeds _ _ _, hback, ?_⟩
  have hle : s.mlen.toNat ≤ (pad7 s.message).length := hpad.ge.trans' (Nat.le_add_right _ _)
  rw [hback, stored_message hle, pad7]
  exact List.take_left' (length_message s)

end Sys2Proof.Machine

/-! SUPPORT. The test by its cases, and by the answers its source gives (R221, R222). -/

namespace Sys2Proof.Machine

theorem argValue_eq_zero_iff {t : Byte} : argValue t = 0 ↔ t = 0#8 := BitVec.toNat_inj (y := 0#8)

theorem millerRabin_of_lt_two {n : Nat} (t : Nat) (g : Rng) (h : n < 2) : millerRabin n t g = (false, g) := if_pos h

theorem millerRabin_of_two_or_three {n : Nat} (t : Nat) (g : Rng) (h : n = 2 ∨ n = 3) :
    millerRabin n t g = (true, g) := by
  rw [millerRabin, if_neg (by omega), if_pos h]

theorem millerRabin_of_even {n : Nat} (t : Nat) (g : Rng) (h4 : 4 ≤ n) (heven : n % 2 = 0) :
    millerRabin n t g = (false, g) := by
  rw [millerRabin, if_neg (by omega), if_neg (by omega), if_pos heven]

theorem count_millerRabinRounds_le (n k d t : Nat) (g : Rng) :
    (millerRabinRounds n k d t g).2.count ≤ g.count + t := by
  induction t generalizing g with
  | zero => exact le_refl _
  | succ t ih =>
    have hdraw := count_range g 2 (n - 2)
    rw [millerRabinRounds]
    split
    · have := ih (g.range 2 (n - 2)).2
      omega
    · dsimp only; omega

/-- The first round draws whether or not it passes. -/
theorem count_lt_millerRabinRounds (n k d : Nat) {t : Nat} (g : Rng) (ht : t ≠ 0) :
    g.count < (millerRabinRounds n k d t g).2.count := by
  obtain ⟨t, rfl⟩ := Nat.exists_eq_succ_of_ne_zero ht
  have hdraw := count_range g 2 (n - 2)
  rw [millerRabinRounds]
  split
  · have := count_le_millerRabinRounds n k d t (g.range 2 (n - 2)).2
    omega
  · dsimp only; omega

theorem millerRabinRounds_verdict_of_queue {n k d : Nat} (bases rest : List Nat) (count : Nat)
    (hin : ∀ b ∈ bases, 2 ≤ b ∧ b ≤ n - 2) :
    (millerRabinRounds n k d bases.length { queue := bases ++ rest, count := count }).1 = true ↔
      ∀ b ∈ bases, roundPasses n k d b = true := by
  induction bases generalizing count with
  | nil => simp [millerRabinRounds]
  | cons b bs ih =>
    obtain ⟨⟨h1, h2⟩, hbs⟩ := List.forall_mem_cons.mp hin
    rw [List.length_cons, List.cons_append, millerRabinRounds, range_of_queue _ _ h1 h2, List.forall_mem_cons]
    by_cases hb : roundPasses n k d b = true
    · rw [if_pos hb, ih _ hbs, and_iff_right hb]
    · simp [hb]

/-- A number whose every base in range passes is passed whatever the draws (R221). -/
theorem millerRabinRounds_verdict_of_every_base {n k d : Nat} (t : Nat) (g : Rng) (h4 : 4 ≤ n)
    (h : ∀ b, 2 ≤ b → b ≤ n - 2 → roundPasses n k d b = true) : (millerRabinRounds n k d t g).1 = true := by
  induction t generalizing g with
  | zero => rfl
  | succ t ih =>
    have hdraw : 2 ≤ (g.range 2 (n - 2)).1 ∧ (g.range 2 (n - 2)).1 ≤ n - 2 := fitRange_bounds _ _ _ (by omega)
    rw [millerRabinRounds, if_pos (h _ hdraw.1 hdraw.2), ih]

section OddNumber

variable {n : Nat} (h4 : 4 ≤ n) (hodd : n % 2 = 1)

include h4 hodd

theorem count_millerRabin_of_odd {t : Nat} (g : Rng) (ht : t ≠ 0) :
    g.count + 1 ≤ (millerRabin n t g).2.count ∧ (millerRabin n t g).2.count ≤ g.count + t := by
  rw [millerRabin_of_odd t g h4 hodd]
  exact ⟨count_lt_millerRabinRounds _ _ _ g ht, count_millerRabinRounds_le _ _ _ t g⟩

theorem millerRabin_verdict_of_queue {g : Rng} {bases rest : List Nat} (hin : ∀ b ∈ bases, 2 ≤ b ∧ b ≤ n - 2)
    (hq : g.queue = bases ++ rest) :
    (millerRabin n bases.length g).1 = true ↔ ∀ b ∈ bases, PassesRound n b := by
  obtain ⟨queue, count⟩ := g
  subst hq
  rw [millerRabin_of_odd _ _ h4 hodd, millerRabinRounds_verdict_of_queue _ _ _ hin]
  simp only [roundPasses_iff_passesRound (by omega) hodd]

theorem millerRabin_of_all_pass {g : Rng} {bases rest : List Nat} (hin : ∀ b ∈ bases, 2 ≤ b ∧ b ≤ n - 2)
    (hpass : ∀ b ∈ bases, PassesRound n b) (hq : g.queue = bases ++ rest) :
    millerRabin n bases.length g = (true, { queue := rest, count := g.count + bases.length }) := by
  obtain ⟨queue, count⟩ := g
  subst hq
  rw [millerRabin_of_odd _ _ h4 hodd, millerRabinRounds_of_all_pass]
  intro b hb
  obtain ⟨hlo, hhi⟩ := hin b hb
  exact ⟨hlo, hhi, (roundPasses_iff_passesRound (by omega) hodd b).mpr (hpass b hb)⟩

theorem millerRabin_of_first_failure {g : Rng} {passed rest : List Nat} {b t : Nat} (ht : passed.length < t)
    (hpass : ∀ a ∈ passed, 2 ≤ a ∧ a ≤ n - 2 ∧ PassesRound n a) (hlo : 2 ≤ b) (hhi : b ≤ n - 2)
    (hfail : ¬ PassesRound n b) (hq : g.queue = passed ++ b :: rest) :
    millerRabin n t g = (false, { queue := rest, count := g.count + passed.length + 1 }) := by
  obtain ⟨queue, count⟩ := g
  subst hq
  simp only [← roundPasses_iff_passesRound (show 3 ≤ n by omega) hodd, Bool.not_eq_true] at hpass hfail
  rw [millerRabin_of_odd _ _ h4 hodd, millerRabinRounds_of_first_failure _ _ _ ht hpass hlo hhi hfail]

theorem millerRabin_verdict_of_every_base (t : Nat) (g : Rng) (h : ∀ a, 2 ≤ a → a ≤ n - 2 → PassesRound n a) :
    (millerRabin n t g).1 = true := by
  rw [millerRabin_of_odd t g h4 hodd]
  exact millerRabinRounds_verdict_of_every_base t g h4 fun a hlo hhi =>
    (roundPasses_iff_passesRound (by omega) hodd a).mpr (h a hlo hhi)

end OddNumber

end Sys2Proof.Machine

/-! SUPPORT. A prime passes every round: by Fermat `a ^ (p - 1) = 1` modulo `p`, and 1 has no square roots but 1 and
-1 there (R223). -/

namespace Sys2Proof.Machine

/-- Where squaring `x` again and again ends in 1, it starts there or passes through -1. -/
theorem eq_one_or_neg_one_of_pow_two_pow {p : Nat} [Fact p.Prime] {x : ZMod p} {k : Nat} (h : x ^ 2 ^ k = 1) :
    x = 1 ∨ ∃ r < k, x ^ 2 ^ r = -1 := by
  induction k with
  | zero => exact .inl (by simpa using h)
  | succ k ih =>
    rw [pow_succ, pow_mul, sq_eq_one_iff] at h
    rcases h with h | h
    · exact (ih h).imp_right fun ⟨r, hr, hx⟩ => ⟨r, hr.trans k.lt_succ_self, hx⟩
    · exact .inr ⟨k, k.lt_succ_self, h⟩

theorem mod_eq_one_of_cast {p v : Nat} (hp : 1 < p) (h : (v : ZMod p) = 1) : v % p = 1 := by
  rwa [← Nat.cast_one, ZMod.natCast_eq_natCast_iff', Nat.mod_eq_of_lt hp] at h

theorem mod_eq_sub_one_of_cast {p v : Nat} (hp : 1 < p) (h : (v : ZMod p) = -1) : v % p = p - 1 := by
  have hcast : ((p - 1 : Nat) : ZMod p) = -1 := by simp [Nat.cast_sub hp.le]
  rwa [← hcast, ZMod.natCast_eq_natCast_iff', Nat.mod_eq_of_lt (by omega : p - 1 < p)] at h

theorem passesRound_of_prime {p a : Nat} (hp : p.Prime) (ha : ¬ p ∣ a) : PassesRound p a := by
  have : Fact p.Prime := ⟨hp⟩
  obtain ⟨k, d, hd, hkd⟩ := Nat.exists_eq_two_pow_mul_odd (Nat.sub_ne_zero_of_lt hp.one_lt)
  have hfermat : ((a : ZMod p) ^ d) ^ 2 ^ k = 1 := by
    rw [← pow_mul, Nat.mul_comm, ← hkd]
    exact ZMod.pow_card_sub_one_eq_one (mt (ZMod.natCast_eq_zero_iff a p).mp ha)
  refine ⟨k, d, hkd, Nat.odd_iff.mp hd, ?_⟩
  rcases eq_one_or_neg_one_of_pow_two_pow hfermat with h | ⟨r, hr, h⟩
  · exact .inl (mod_eq_one_of_cast hp.one_lt (by exact_mod_cast h))
  · exact .inr ⟨r, hr, mod_eq_sub_one_of_cast hp.one_lt (by rw [Nat.cast_pow, pow_mul, h])⟩

/-- R223 (a): 2 and 3 pass without a draw, an odd prime by its rounds. -/
theorem millerRabin_verdict_of_prime {p : Nat} (hp : p.Prime) (t : Nat) (g : Rng) : (millerRabin p t g).1 = true := by
  by_cases h4 : 4 ≤ p
  · have hodd : p % 2 = 1 := hp.eq_two_or_odd.resolve_left (by omega)
    exact millerRabin_verdict_of_every_base h4 hodd t g fun a hlo hhi =>
      passesRound_of_prime hp (Nat.not_dvd_of_pos_of_lt (by omega) (by omega))
  · have := hp.two_le
    rw [millerRabin_of_two_or_three t g (by omega)]

end Sys2Proof.Machine

/-! The primality test. -/

namespace Sys2Proof.Machine

/-- Settles O49: `exec_mrTest_completes`, then the verdict and the draws of `millerRabin` by the range of `n`. -/
theorem mrTestCommand : Obligations.MrTestCommand := by
  rintro t s n rfl
  refine ⟨fun ht => ⟨_, exec_mrTest_rejects (argValue_eq_zero_iff.mpr ht), raise_rejectsWith s _ _ _⟩, fun ht => ?_⟩
  have ht0 : ¬ argValue t = 0 := mt argValue_eq_zero_iff.mp ht
  refine ⟨_, _, exec_mrTest_completes ht0, complete_succeeds s _ _ rfl, rfl, memoryKept_of_mem_eq rfl rfl, ?_⟩
  rw [complete_rng, ← argValue]
  refine ⟨fun h => ?small, fun h => ?twoOrThree, fun h4 heven => ?even, fun h4 hodd => ?odd,
    fun h4 hodd passed rest b hlen hpass hlo hhi hfail hq => ?firstFailure⟩
  case small => simp [millerRabin_of_lt_two _ _ h]
  case twoOrThree => simp [millerRabin_of_two_or_three _ _ h]
  case even => simp [millerRabin_of_even _ _ h4 heven]
  case odd =>
    obtain ⟨hlow, hhigh⟩ := count_millerRabin_of_odd h4 hodd s.rng ht0
    refine ⟨hlow, hhigh, fun bases rest hlen hin hq => ?_⟩
    rw [← hlen]
    have hiff := millerRabin_verdict_of_queue h4 hodd hin hq
    exact ⟨hiff, fun hres => by rw [millerRabin_of_all_pass h4 hodd hin (hiff.mp hres) hq]⟩
  case firstFailure => simp [millerRabin_of_first_failure h4 hodd hlen hpass hlo hhi hfail hq]

/-- Settles O50: MR_TEST gives the verdict of `millerRabin_verdict_of_prime`. -/
theorem primesPassMrTest : Obligations.PrimesPassMrTest := by
  intro t s ht hp
  have h := exec_mrTest_completes (s := s) (mt argValue_eq_zero_iff.mp ht)
  rw [millerRabin_verdict_of_prime hp] at h
  exact ⟨_, h, complete_succeeds s _ true rfl⟩

end Sys2Proof.Machine

/-! SUPPORT. One candidate of the key generator: its draw, its test and the source after them (R242). -/

namespace Sys2Proof.Machine

theorem Rng.skip_skip (g : Rng) (m n : Nat) : (g.skip m).skip n = g.skip (m + n) := by
  simp [Rng.skip, Nat.add_assoc]

theorem Rng.skip_of_queue {g : Rng} {answers rest : List Nat} (hq : g.queue = answers ++ rest) :
    g.skip answers.length = { queue := rest, count := g.count + answers.length } := by
  simp [Rng.skip, hq]

theorem Rng.skip_queue {g : Rng} {answers rest : List Nat} (hq : g.queue = answers ++ rest) :
    (g.skip answers.length).queue = rest := congrArg Rng.queue (skip_of_queue hq)

theorem Rng.answer_source (g : Rng) : g.answer.2 = g.skip 1 := by
  obtain ⟨_ | _, count⟩ := g <;> rfl

theorem Rng.range_source (g : Rng) (lo hi : Nat) : (g.range lo hi).2 = g.skip 1 := g.answer_source

theorem bits_lt (g : Rng) (k : Nat) : (g.bits k).1 < 2 ^ k :=
  have ⟨_, hbits, _⟩ := drawsAreAnsweredInRange g
  hbits k

theorem bits_of_queue {g : Rng} {x k : Nat} {rest : List Nat} (hx : x < 2 ^ k) (hq : g.queue = x :: rest) :
    g.bits k = (x, g.skip 1) := by
  obtain ⟨queue, count⟩ := g
  subst hq
  exact range_of_queue rest count (Nat.zero_le x) (Nat.le_pred_of_lt hx)

theorem count_millerRabin_le (n t : Nat) (g : Rng) : (millerRabin n t g).2.count ≤ g.count + t := by
  unfold millerRabin
  split_ifs
  · exact Nat.le_add_right _ _
  · exact Nat.le_add_right _ _
  · exact Nat.le_add_right _ _
  · exact count_millerRabinRounds_le _ _ _ _ _

/-- A test that passes has drawn a base for each of its rounds. -/
theorem millerRabinRounds_source_of_passed {n k d t : Nat} {g : Rng} (h : (millerRabinRounds n k d t g).1 = true) :
    (millerRabinRounds n k d t g).2 = g.skip t := by
  induction t generalizing g with
  | zero => rfl
  | succ t ih =>
    rw [millerRabinRounds] at h ⊢
    split at h
    · next hpass => rw [if_pos hpass, ih h, Rng.range_source, Rng.skip_skip, Nat.add_comm]
    · cases h

theorem millerRabin_of_prime {p : Nat} (hp : p.Prime) (h4 : 4 ≤ p) (t : Nat) (g : Rng) :
    millerRabin p t g = (true, g.skip t) := by
  have hverdict := millerRabin_verdict_of_prime hp t g
  have hodd : p % 2 = 1 := hp.eq_two_or_odd.resolve_left (by omega)
  rw [millerRabin_of_odd t g h4 hodd] at hverdict ⊢
  exact Prod.ext hverdict (millerRabinRounds_source_of_passed hverdict)

/-- `c` is odd and has exactly `h` bits, as each candidate is (R242). -/
structure OddOfBits (h c : Nat) : Prop where
  low : 2 ^ (h - 1) ≤ c
  high : c < 2 ^ h
  odd : c % 2 = 1

theorem primeCandidate_oddOfBits {h x : Nat} (hh : 2 ≤ h) (hx : x < 2 ^ h) : OddOfBits h (primeCandidate h x) :=
  have ⟨low, high, odd⟩ := primeCandidate_bounds hh hx
  { low, high, odd }

theorem OddOfBits.two_pow_le {h c k : Nat} (hc : OddOfBits h c) (hk : k < h) : 2 ^ k ≤ c :=
  (Nat.pow_le_pow_right Nat.two_pos (Nat.le_pred_of_lt hk)).trans hc.low

theorem OddOfBits.four_le {h c : Nat} (hc : OddOfBits h c) (hh : 3 ≤ h) : 4 ≤ c := hc.two_pow_le (k := 2) hh

theorem oddOfBits_of_prime {h p : Nat} (hh : 3 ≤ h) (hp : p.Prime) (hlo : 2 ^ (h - 1) ≤ p) (hhi : p < 2 ^ h) :
    OddOfBits h p := by
  have h4 : 2 ^ 2 ≤ 2 ^ (h - 1) := Nat.pow_le_pow_right Nat.two_pos (by omega)
  exact ⟨hlo, hhi, hp.eq_two_or_odd.resolve_left (by omega)⟩

theorem or_two_pow_of_testBit {c k : Nat} (hk : c.testBit k = true) : c ||| 2 ^ k = c := by
  refine Nat.eq_of_testBit_eq fun i => ?_
  rw [Nat.testBit_or, Nat.testBit_two_pow]
  by_cases hi : k = i
  · simp [← hi, hk]
  · simp [hi]

theorem primeCandidate_of_oddOfBits {h c : Nat} (hh : 1 ≤ h) (hc : OddOfBits h c) : primeCandidate h c = c := by
  have htop : c.testBit (h - 1) = true :=
    Nat.testBit_of_two_pow_le_and_two_pow_add_one_gt hc.low (by rw [Nat.sub_add_cancel hh]; exact hc.high)
  rw [primeCandidate, or_two_pow_of_testBit htop]
  exact or_two_pow_of_testBit (k := 0) (by simp [hc.odd])

/-- One candidate: the draw gives `c`, its test the verdict `v`, and the source is then `g'` (R242). -/
def Tries (h t : Nat) (g : Rng) (c : Nat) (v : Bool) (g' : Rng) : Prop :=
  primeCandidate h (g.bits h).1 = c ∧ millerRabin c t (g.bits h).2 = (v, g')

/-- Whatever the source, the next candidate is odd and of `h` bits, for `1 + t` draws at most (R242). -/
theorem exists_tries {h : Nat} (hh : 2 ≤ h) (t : Nat) (g : Rng) :
    ∃ c v g', Tries h t g c v g' ∧ OddOfBits h c ∧ g'.count ≤ g.count + (1 + t) := by
  refine ⟨_, _, _, ⟨rfl, rfl⟩, primeCandidate_oddOfBits hh (bits_lt g h), ?_⟩
  have := count_millerRabin_le (primeCandidate h (g.bits h).1) t (g.bits h).2
  rwa [count_bits, Nat.add_assoc] at this

theorem tries_of_queue {h t x n : Nat} {g : Rng} {rest : List Nat} {v : Bool} (hx : x < 2 ^ h)
    (hq : g.queue = x :: rest) (htest : millerRabin (primeCandidate h x) t (g.skip 1) = (v, (g.skip 1).skip n)) :
    Tries h t g (primeCandidate h x) v (g.skip (1 + n)) := by
  rw [Rng.skip_skip] at htest
  rw [Tries, bits_of_queue hx hq]
  exact ⟨rfl, htest⟩

/-- A prime of `h` bits is a candidate that passes, whatever its bases. -/
theorem tries_of_prime {h t p : Nat} {g : Rng} {rest : List Nat} (hh : 3 ≤ h) (hp : p.Prime) (hbits : OddOfBits h p)
    (hq : g.queue = p :: rest) : Tries h t g p true (g.skip (1 + t)) := by
  have hself := primeCandidate_of_oddOfBits (by omega) hbits
  have h := tries_of_queue (t := t) hbits.high hq
    (by rw [hself]; exact millerRabin_of_prime hp (hbits.four_le hh) t _)
  rwa [hself] at h

theorem Candidate.InRange.oddOfBits {c : Candidate} {h : Nat} (hc : c.InRange h) (hh : 2 ≤ h) :
    OddOfBits h (c.value h) := primeCandidate_oddOfBits hh hc.1

theorem Candidate.Accepted.oddOfBits {c : Candidate} {h t : Nat} (hc : c.Accepted h t) (hh : 2 ≤ h) :
    OddOfBits h (c.value h) := hc.1.oddOfBits hh

theorem Candidate.Accepted.tries {c : Candidate} {h t : Nat} {g : Rng} {rest : List Nat} (hc : c.Accepted h t)
    (hh : 3 ≤ h) (hq : g.queue = c.drawn :: (c.bases ++ rest)) :
    Tries h t g (c.value h) true (g.skip (1 + c.bases.length)) := by
  obtain ⟨hin, rfl, hpass⟩ := hc
  have hbits := hin.oddOfBits (by omega)
  have hrest : (g.skip 1).queue = c.bases ++ rest := Rng.skip_queue (answers := [c.drawn]) hq
  refine tries_of_queue hin.1 hq ?_
  rw [Rng.skip_of_queue hrest]
  exact millerRabin_of_all_pass (hbits.four_le hh) hbits.odd hin.2 hpass hrest

theorem Candidate.Rejected.tries {c : Candidate} {h t : Nat} {g : Rng} {rest : List Nat} (hc : c.Rejected h t)
    (hh : 3 ≤ h) (hq : g.queue = c.drawn :: (c.bases ++ rest)) :
    Tries h t g (c.value h) false (g.skip (1 + c.bases.length)) := by
  obtain ⟨hin, passed, b, hbases, hlen, hpass, hfail⟩ := hc
  have hbits := hin.oddOfBits (by omega)
  have hrest : (g.skip 1).queue = c.bases ++ rest := Rng.skip_queue (answers := [c.drawn]) hq
  have hrange : ∀ a ∈ passed ++ [b], 2 ≤ a ∧ a ≤ c.value h - 2 := hbases ▸ hin.2
  obtain ⟨hlo, hhi⟩ := hrange b (by simp)
  refine tries_of_queue hin.1 hq ?_
  rw [Rng.skip_of_queue hrest, hbases, List.length_append, ← Nat.add_assoc]
  refine millerRabin_of_first_failure (hbits.four_le hh) hbits.odd hlen (fun a ha => ?_) hlo hhi hfail
    (by simp [hrest, hbases])
  obtain ⟨h2, hn⟩ := hrange a (List.mem_append_left _ ha)
  exact ⟨h2, hn, hpass a ha⟩

end Sys2Proof.Machine

/-! SUPPORT. The candidate loop turn by turn, and over the candidates its source answers with (R242, R244). -/

namespace Sys2Proof.Machine

section Turn

variable {h t c fuel : Nat} {g g' : Rng}

theorem keyGenLoop_of_fails (hc : Tries h t g c false g') (p : Option Nat) :
    keyGenLoop h t (fuel + 1) p g = keyGenLoop h t fuel p g' := by
  obtain ⟨rfl, hv⟩ := hc
  exact keyGenLoop_turn rfl hv fuel p

theorem keyGenLoop_of_first (hc : Tries h t g c true g') :
    keyGenLoop h t (fuel + 1) none g = keyGenLoop h t fuel (some c) g' := by
  obtain ⟨rfl, hv⟩ := hc
  exact keyGenLoop_turn rfl hv fuel none

theorem keyGenLoop_of_noPair {p : Nat} (hc : Tries h t g c true g') (hp : keyPairOf p c = none) :
    keyGenLoop h t (fuel + 1) (some p) g = keyGenLoop h t fuel (some p) g' := by
  obtain ⟨rfl, hv⟩ := hc
  rw [keyGenLoop_turn Prod.mk.eta.symm hv, if_pos rfl]
  simp only [hp]

theorem keyGenLoop_of_pair {p : Nat} {kp : KeyPair} (hc : Tries h t g c true g') (hp : keyPairOf p c = some kp) :
    keyGenLoop h t (fuel + 1) (some p) g = (some kp, g') := by
  obtain ⟨rfl, hv⟩ := hc
  rw [keyGenLoop_turn Prod.mk.eta.symm hv, if_pos rfl]
  simp only [hp]

/-- What a turn can do, whatever the source: it goes on, with the same first prime or with its candidate as the
first prime, or it ends with the pair its candidate makes (R242, R244). -/
theorem keyGenLoop_succ_cases (hh : 2 ≤ h) (t fuel : Nat) (p : Option Nat) (g : Rng) :
    ∃ c g', OddOfBits h c ∧ g'.count ≤ g.count + (1 + t) ∧
      ((∃ p', (p' = p ∨ p' = some c) ∧ keyGenLoop h t (fuel + 1) p g = keyGenLoop h t fuel p' g') ∨
        ∃ first kp, p = some first ∧ keyPairOf first c = some kp ∧
          keyGenLoop h t (fuel + 1) p g = (some kp, g')) := by
  obtain ⟨c, v, g', htries, hbits, hcount⟩ := exists_tries hh t g
  refine ⟨c, g', hbits, hcount, ?_⟩
  cases v with
  | false => exact .inl ⟨p, .inl rfl, keyGenLoop_of_fails htries p⟩
  | true =>
    cases p with
    | none => exact .inl ⟨some c, .inr rfl, keyGenLoop_of_first htries⟩
    | some first =>
      cases hkp : keyPairOf first c with
      | none => exact .inl ⟨some first, .inl rfl, keyGenLoop_of_noPair htries hkp⟩
      | some kp => exact .inr ⟨first, kp, rfl, hkp, keyGenLoop_of_pair htries hkp⟩

end Turn

/-- The bound of R243. -/
theorem count_keyGenLoop_le {h : Nat} (hh : 2 ≤ h) (t fuel : Nat) (p : Option Nat) (g : Rng) :
    (keyGenLoop h t fuel p g).2.count ≤ g.count + fuel * (1 + t) := by
  induction fuel generalizing p g with
  | zero => exact Nat.le_add_right _ _
  | succ fuel ih =>
    rw [Nat.succ_mul]
    obtain ⟨c, g', -, hcount, ⟨p', -, heq⟩ | ⟨first, kp, -, -, heq⟩⟩ := keyGenLoop_succ_cases hh t fuel p g
    · rw [heq]
      have := ih p' g'
      omega
    · rw [heq]
      dsimp only
      omega

/-- A pair takes two candidates. -/
theorem keyGenLoop_of_fuel_lt_two {h fuel : Nat} (hh : 2 ≤ h) (t : Nat) (g : Rng) (hf : fuel < 2) :
    (keyGenLoop h t fuel none g).1 = none := by
  match fuel, hf with
  | 0, _ => rfl
  | 1, _ =>
    obtain ⟨c, g', -, -, ⟨p', -, heq⟩ | ⟨first, kp, hfirst, -, -⟩⟩ := keyGenLoop_succ_cases hh t 0 none g
    · rw [heq]; rfl
    · cases hfirst

/-- Whatever the source, a key pair is made of two numbers of `h` bits (R242, R244). -/
theorem keyGenLoop_pair_of_eq_some {h : Nat} (hh : 2 ≤ h) {t fuel : Nat} {p : Option Nat} {g : Rng} {kp : KeyPair}
    (hp : ∀ first ∈ p, OddOfBits h first) (hkp : (keyGenLoop h t fuel p g).1 = some kp) :
    ∃ p q, OddOfBits h p ∧ OddOfBits h q ∧ keyPairOf p q = some kp := by
  induction fuel generalizing p g with
  | zero => cases hkp
  | succ fuel ih =>
    obtain ⟨c, g', hbits, -, ⟨p', hp', heq⟩ | ⟨first, kp', rfl, hpair, heq⟩⟩ :=
      keyGenLoop_succ_cases hh t fuel p g
    · rw [heq] at hkp
      obtain rfl | rfl := hp'
      · exact ih hp hkp
      · exact ih (fun first hfirst => Option.mem_some_iff.mp hfirst ▸ hbits) hkp
    · rw [heq] at hkp
      cases hkp
      exact ⟨first, c, hp first rfl, hbits, hpair⟩

/-- The candidate fails its test or makes no pair with the first prime `p` (R242, R244). -/
def Candidate.PassedOver (c : Candidate) (h t : Nat) (p : Option Nat) : Prop :=
  c.Rejected h t ∨ ∃ first, p = some first ∧ c.Accepted h t ∧ ¬ Suitable first (c.value h)

theorem Candidate.passedOver_some_iff {c : Candidate} {h t p : Nat} :
    c.PassedOver h t (some p) ↔ c.Rejected h t ∨ c.Accepted h t ∧ ¬ Suitable p (c.value h) := by
  simp [Candidate.PassedOver]

theorem drawsOf_append (cs ds : List Candidate) : drawsOf (cs ++ ds) = drawsOf cs ++ drawsOf ds :=
  List.flatMap_append

theorem drawsOf_append_cons (before ds : List Candidate) (x : Candidate) :
    drawsOf (before ++ x :: ds) = drawsOf (before ++ [x]) ++ drawsOf ds := by
  rw [List.append_cons, drawsOf_append]

theorem drawsOf_cons (c : Candidate) (cs : List Candidate) : drawsOf (c :: cs) = c.drawn :: (c.bases ++ drawsOf cs) :=
  rfl

section Answers

variable {h t : Nat} (hh : 3 ≤ h) {g : Rng} {rest : List Nat}

include hh

theorem keyGenLoop_of_passedOver {cs : List Candidate} {p : Option Nat} (fuel : Nat)
    (hcs : ∀ c ∈ cs, c.PassedOver h t p) (hq : g.queue = drawsOf cs ++ rest) :
    keyGenLoop h t (cs.length + fuel) p g = keyGenLoop h t fuel p (g.skip (drawsOf cs).length) := by
  induction cs generalizing g with
  | nil => simp [drawsOf, Rng.skip]
  | cons c cs ih =>
    obtain ⟨hc, hcs⟩ := List.forall_mem_cons.mp hcs
    rw [drawsOf_cons, List.cons_append, List.append_assoc] at hq
    have hturn : keyGenLoop h t (cs.length + fuel + 1) p g =
        keyGenLoop h t (cs.length + fuel) p (g.skip (1 + c.bases.length)) := by
      rcases hc with hrej | ⟨first, rfl, hacc, hs⟩
      · exact keyGenLoop_of_fails (hrej.tries hh hq) p
      · exact keyGenLoop_of_noPair (hacc.tries hh hq) (keyPairOf_eq_none hs)
    have hrest : (g.skip (1 + c.bases.length)).queue = drawsOf cs ++ rest := by
      simp [Rng.skip, hq, Nat.add_comm 1]
    rw [List.length_cons, Nat.add_right_comm, hturn, ih hcs hrest, Rng.skip_skip, drawsOf_cons, List.length_cons,
      List.length_append, Nat.add_comm 1, Nat.add_right_comm]

theorem Candidate.Accepted.tries_last {cs : List Candidate} {x : Candidate} (hx : x.Accepted h t)
    (hq : g.queue = drawsOf cs ++ (drawsOf [x] ++ rest)) :
    Tries h t (g.skip (drawsOf cs).length) (x.value h) true (g.skip (drawsOf (cs ++ [x])).length) := by
  have hone : drawsOf [x] = x.drawn :: x.bases := List.append_nil _
  rw [drawsOf_append, hone, List.length_append, List.length_cons, Nat.add_comm x.bases.length, ← Rng.skip_skip]
  rw [hone] at hq
  exact hx.tries hh (Rng.skip_queue hq)

/-- The first candidate that passes becomes the first prime (R244). -/
theorem keyGenLoop_finds_first {before : List Candidate} {x : Candidate} (fuel : Nat)
    (hbefore : ∀ c ∈ before, c.Rejected h t) (hx : x.Accepted h t)
    (hq : g.queue = drawsOf (before ++ [x]) ++ rest) :
    keyGenLoop h t (before.length + (fuel + 1)) none g =
      keyGenLoop h t fuel (some (x.value h)) (g.skip (drawsOf (before ++ [x])).length) := by
  rw [drawsOf_append, List.append_assoc] at hq
  rw [keyGenLoop_of_passedOver hh _ (fun c hc => .inl (hbefore c hc)) hq, keyGenLoop_of_first (hx.tries_last hh hq)]

/-- The next candidate that passes and makes a pair ends the loop (R244). -/
theorem keyGenLoop_finds_pair {between : List Candidate} {y : Candidate} {p : Nat} {kp : KeyPair} (fuel : Nat)
    (hbetween : ∀ c ∈ between, c.PassedOver h t (some p)) (hy : y.Accepted h t)
    (hkp : keyPairOf p (y.value h) = some kp) (hq : g.queue = drawsOf (between ++ [y]) ++ rest) :
    keyGenLoop h t (between.length + (fuel + 1)) (some p) g =
      (some kp, g.skip (drawsOf (between ++ [y])).length) := by
  rw [drawsOf_append, List.append_assoc] at hq
  rw [keyGenLoop_of_passedOver hh _ hbetween hq, keyGenLoop_of_pair (hy.tries_last hh hq) hkp]

/-- `p`, then `q`, among the candidates the source answers with (R244). -/
theorem keyGenLoop_finds_both {before between : List Candidate} {x y : Candidate} {kp : KeyPair} (fuel : Nat)
    (hbefore : ∀ c ∈ before, c.Rejected h t) (hx : x.Accepted h t)
    (hbetween : ∀ c ∈ between, c.Rejected h t ∨ c.Accepted h t ∧ ¬ Suitable (x.value h) (c.value h))
    (hy : y.Accepted h t) (hkp : keyPairOf (x.value h) (y.value h) = some kp)
    (hq : g.queue = drawsOf (before ++ x :: (between ++ [y])) ++ rest) :
    keyGenLoop h t (before.length + 1 + between.length + 1 + fuel) none g =
      (some kp, g.skip (drawsOf (before ++ x :: (between ++ [y]))).length) := by
  have hturns : before.length + 1 + between.length + 1 + fuel = before.length + (between.length + (fuel + 1) + 1) := by
    omega
  rw [drawsOf_append_cons, List.append_assoc] at hq
  rw [hturns, keyGenLoop_finds_first hh _ hbefore hx hq,
    keyGenLoop_finds_pair hh fuel (fun c hc => c.passedOver_some_iff.mpr (hbetween c hc)) hy hkp (Rng.skip_queue hq),
    Rng.skip_skip, drawsOf_append_cons before (between ++ [y]), List.length_append]

/-- No pair among the candidates the source answers with: each fails, or one passes and each after it is passed over
(R242, R244). -/
theorem keyGenLoop_exhausts {tried : List Candidate}
    (htried : (∀ c ∈ tried, c.Rejected h t) ∨ ∃ (before between : List Candidate) (x : Candidate),
      tried = before ++ x :: between ∧ (∀ c ∈ before, c.Rejected h t) ∧ x.Accepted h t ∧
        ∀ c ∈ between, c.Rejected h t ∨ c.Accepted h t ∧ ¬ Suitable (x.value h) (c.value h))
    (hq : g.queue = drawsOf tried ++ rest) :
    keyGenLoop h t tried.length none g = (none, g.skip (drawsOf tried).length) := by
  rcases htried with hrej | ⟨before, between, x, rfl, hbefore, hx, hbetween⟩
  · exact keyGenLoop_of_passedOver hh 0 (fun c hc => .inl (hrej c hc)) hq
  · rw [drawsOf_append_cons, List.append_assoc] at hq
    rw [List.length_append, List.length_cons, keyGenLoop_finds_first hh _ hbefore hx hq]
    have hrest := keyGenLoop_of_passedOver hh 0 (fun c hc => c.passedOver_some_iff.mpr (hbetween c hc))
      (Rng.skip_queue hq)
    rw [Nat.add_zero] at hrest
    rw [hrest, Rng.skip_skip, drawsOf_append_cons before between, List.length_append]
    rfl

/-- Two primes that make a pair are found at once, whatever their bases. -/
theorem keyGenLoop_of_primes {p q : Nat} {bases bases' : List Nat} {kp : KeyPair} (fuel : Nat) (hp : p.Prime)
    (hq : q.Prime) (hpbits : OddOfBits h p) (hqbits : OddOfBits h q) (hkp : keyPairOf p q = some kp)
    (hbases : bases.length = t) (hbases' : bases'.length = t) (hqueue : g.queue = p :: bases ++ q :: bases' ++ rest) :
    ∃ g', keyGenLoop h t (2 + fuel) none g = (some kp, g') ∧ g'.queue = rest := by
  have hlen : (p :: bases).length = 1 + t := by rw [List.length_cons, hbases, Nat.add_comm]
  have hlen' : (q :: bases').length = 1 + t := by rw [List.length_cons, hbases', Nat.add_comm]
  rw [List.append_assoc] at hqueue
  have hqueue' := Rng.skip_queue hqueue
  have hrest := Rng.skip_queue hqueue'
  rw [hlen] at hqueue' hrest
  rw [hlen'] at hrest
  refine ⟨_, ?_, hrest⟩
  rw [Nat.add_comm 2, keyGenLoop_of_first (tries_of_prime hh hp hpbits hqueue),
    keyGenLoop_of_pair (tries_of_prime hh hq hqbits hqueue') hkp]

end Answers

end Sys2Proof.Machine

/-! SUPPORT. RSA_KEYGEN with legal operands: how it ends, and the key pair it writes (R241, R243, R244). -/

namespace Sys2Proof.Machine

theorem badKeygenOperands_iff {t : Byte} {bits : Nat} :
    argValue t = 0 ∨ badKeyBits bits = true ↔ t = 0#8 ∨ bits % 2 = 1 ∨ bits < 210 ∨ 2048 < bits := by
  simp only [argValue_eq_zero_iff, badKeyBits, Bool.or_eq_true, decide_eq_true_eq, Nat.mod_two_ne_zero, or_assoc]
  exact Iff.rfl

theorem suitable_of_keyPairOf {p q : Nat} {kp : KeyPair} (h : keyPairOf p q = some kp) : Suitable p q := by
  by_contra hs
  rw [keyPairOf_eq_none hs] at h
  cases h

theorem OddOfBits.mul_bounds {h p q : Nat} (hh : 1 ≤ h) (hp : OddOfBits h p) (hq : OddOfBits h q) :
    p * q % 2 = 1 ∧ 2 ^ (2 * h - 2) ≤ p * q ∧ p * q < 2 ^ (2 * h) := by
  refine ⟨by rw [Nat.mul_mod, hp.odd, hq.odd], ?_, ?_⟩
  · rw [show 2 * h - 2 = (h - 1) + (h - 1) by omega, Nat.pow_add]
    exact Nat.mul_le_mul hp.low hq.low
  · rw [Nat.two_mul, Nat.pow_add]
    exact Nat.mul_lt_mul'' hp.high hq.high

theorem exists_keyPairOf {p q h : Nat} (hlo : 105 ≤ h) (hs : Suitable p q) (hp : OddOfBits h p) (hq : OddOfBits h q) :
    ∃ kp, keyPairOf p q = some kp := by
  obtain ⟨kp, hkp, -⟩ := keyPairOf_eq_some hs (hp.two_pow_le hlo) (hq.two_pow_le hlo)
  exact ⟨kp, hkp⟩

theorem exec_rsaKeygen_of_legal {t : Byte} {s : State}
    (hlegal : ¬ (argValue t = 0 ∨ badKeyBits s.kgBits.toNat = true)) :
    ∃ u, exec (.rsaKeygen t) s = .next u ∧
      u.rng = (keyGen s.kgMaxCandidates s.kgBits.toNat (argValue t) s.rng).2 ∧
      ((keyGen s.kgMaxCandidates s.kgBits.toNat (argValue t) s.rng).1 = none →
        FailsWith s u (.keygenExhausted, .keygen, .compute)) := by
  obtain ⟨made, g, hk⟩ : ∃ made g, keyGen s.kgMaxCandidates s.kgBits.toNat (argValue t) s.rng = (made, g) :=
    ⟨_, _, rfl⟩
  rw [hk]
  cases made with
  | none => exact ⟨_, exec_rsaKeygen_exhausted hlegal hk, rfl, fun _ => raise_failsWith s g _ _ _⟩
  | some kp => exact ⟨_, exec_rsaKeygen_completes hlegal hk, rfl, nofun⟩

/-- The registers hold the pair as it is: `N`, `E` and `D` fit in `BIG_BITS` bits. -/
theorem exec_rsaKeygen_writesKeyPair {t : Byte} {s : State} {p q h : Nat} {kp : KeyPair} {g : Rng} (ht : t ≠ 0#8)
    (hbits : s.kgBits.toNat = 2 * h) (hlo : 105 ≤ h) (hhi : h ≤ 1024) (hp : OddOfBits h p) (hq : OddOfBits h q)
    (hkp : keyPairOf p q = some kp)
    (hk : keyGenLoop h (argValue t) s.kgMaxCandidates none s.rng = (some kp, g)) :
    ∃ u, exec (.rsaKeygen t) s = .next u ∧ WritesKeyPair s u p q ∧ u.rng = g := by
  have hlegal : ¬ (argValue t = 0 ∨ badKeyBits s.kgBits.toNat = true) := by
    rw [badKeygenOperands_iff, or_iff_right ht]
    omega
  have hmade : keyGen s.kgMaxCandidates s.kgBits.toNat (argValue t) s.rng = (some kp, g) := by
    rwa [keyGen, hbits, Nat.mul_div_cancel_left h Nat.two_pos]
  have hp104 := hp.two_pow_le (k := 104) hlo
  have hq104 := hq.two_pow_le (k := 104) hlo
  obtain ⟨kp', hkp', hn, he, hinv, hlt⟩ := keyPairOf_eq_some (suitable_of_keyPairOf hkp) hp104 hq104
  obtain rfl : kp = kp' := Option.some.inj (hkp.symm.trans hkp')
  obtain ⟨-, -, hhigh⟩ := hp.mul_bounds (by omega) hq
  have hfits : p * q < 2 ^ Config.bigBits :=
    hhigh.trans_le (Nat.pow_le_pow_right Nat.two_pos (Nat.mul_le_mul_left 2 hhi))
  have hlcm : Nat.lcm (p - 1) (q - 1) ≤ p * q :=
    (Nat.le_of_dvd (Nat.mul_pos (by omega) (by omega)) (Nat.lcm_dvd_mul _ _)).trans
      (Nat.mul_le_mul (Nat.sub_le _ _) (Nat.sub_le _ _))
  have hN : bigVal (bigOf kp.n) = p * q := hn ▸ Nat.mod_eq_of_lt (hn ▸ hfits)
  have hE : bigVal (bigOf kp.e) = 65537 := by
    rw [he]
    exact Nat.mod_eq_of_lt ((show 65537 < 2 ^ 17 by decide).trans_le (Nat.pow_le_pow_right Nat.two_pos (by decide)))
  have hD : bigVal (bigOf kp.d) = kp.d := Nat.mod_eq_of_lt (hlt.trans_le (hlcm.trans hfits.le))
  refine ⟨_, exec_rsaKeygen_completes hlegal hmade, ⟨complete_succeeds s _ _ rfl, rfl, memoryKept_of_mem_eq rfl rfl,
    hN, hE, ?_, ?_⟩, rfl⟩
  · rwa [complete_rsaD, hD]
  · rwa [complete_rsaD, hD]

/-- Whatever the source, RSA_KEYGEN without an error had legal operands and wrote the pair of two candidates that make
one. -/
theorem writesKeyPair_of_no_error {t : Byte} {s u : State} (hu : exec (.rsaKeygen t) s = .next u)
    (huerr : u.status.err = false) :
    ∃ h p q, s.kgBits.toNat = 2 * h ∧ 105 ≤ h ∧ OddOfBits h p ∧ OddOfBits h q ∧ Suitable p q ∧
      WritesKeyPair s u p q := by
  by_cases hbad : argValue t = 0 ∨ badKeyBits s.kgBits.toNat = true
  · cases hu.symm.trans (exec_rsaKeygen_rejects hbad)
    cases huerr
  · obtain ⟨ht, hrange⟩ := not_or.mp (mt badKeygenOperands_iff.mpr hbad)
    obtain ⟨h, hbits⟩ : ∃ h, s.kgBits.toNat = 2 * h := Nat.dvd_of_mod_eq_zero (by omega)
    obtain ⟨made, g, hk⟩ : ∃ made g, keyGen s.kgMaxCandidates s.kgBits.toNat (argValue t) s.rng = (made, g) :=
      ⟨_, _, rfl⟩
    cases made with
    | none =>
      cases hu.symm.trans (exec_rsaKeygen_exhausted hbad hk)
      cases huerr
    | some kp =>
      rw [keyGen, hbits, Nat.mul_div_cancel_left h Nat.two_pos] at hk
      obtain ⟨p, q, hp, hq, hkp⟩ := keyGenLoop_pair_of_eq_some (by omega) (by simp) (congrArg Prod.fst hk)
      obtain ⟨v, hv, hw, -⟩ := exec_rsaKeygen_writesKeyPair ht hbits (by omega) (by omega) hp hq hkp hk
      cases hu.symm.trans hv
      exact ⟨h, p, q, hbits, by omega, hp, hq, suitable_of_keyPairOf hkp, hw⟩

end Sys2Proof.Machine

/-! The RSA key generator. -/

namespace Sys2Proof.Machine

/-- Settles O51: the loop of R242 with the candidates its source answers with, none of which ends it. -/
theorem rsaKeygenRejectsAndExhausts : Obligations.RsaKeygenRejectsAndExhausts := by
  rintro t s bits rfl
  by_cases hbad : argValue t = 0 ∨ badKeyBits s.kgBits.toNat = true
  · have hbad' := badKeygenOperands_iff.mp hbad
    refine ⟨_, exec_rsaKeygen_rejects hbad, Nat.le_add_right _ _, fun _ => raise_rejectsWith s _ _ _,
      fun ht heven hlo hhi _ => absurd (hbad'.resolve_left ht) (by omega),
      fun h tried rest ht hbits hlo hhi => absurd (hbad'.resolve_left ht) (by omega)⟩
  · have hok := mt badKeygenOperands_iff.mpr hbad
    have hh : 105 ≤ s.kgBits.toNat / 2 := by omega
    obtain ⟨u, hu, hrng, hfails⟩ := exec_rsaKeygen_of_legal hbad
    refine ⟨u, hu, ?count, fun h => absurd h hok, fun _ _ _ _ hfew => hfails ?few,
      fun h tried rest _ hbits _ _ hlen htried hq => ?tried⟩
    case count =>
      rw [hrng]
      exact count_keyGenLoop_le (by omega) _ _ _ _
    case few => exact keyGenLoop_of_fuel_lt_two (by omega) _ _ hfew
    case tried =>
      obtain rfl : h = s.kgBits.toNat / 2 := by omega
      have hk : keyGen s.kgMaxCandidates s.kgBits.toNat (argValue t) s.rng =
          (none, s.rng.skip (drawsOf tried).length) := hlen ▸ keyGenLoop_exhausts (by omega) htried hq
      rw [hk] at hrng hfails
      exact ⟨hfails rfl, hrng.trans (Rng.skip_of_queue hq)⟩

/-- Settles O52: the loop finds `p` and `q` among the candidates of its source, and the registers hold their pair. -/
theorem rsaKeygenWritesTheKeyPair : Obligations.RsaKeygenWritesTheKeyPair := by
  intro t s h p q rest ht hbits hlo hhi hs
  refine ⟨fun before between x y hp hq hbefore hx hbetween hy hmax hqueue => ?run,
    fun bases bases' hmax hp hq hplo hphi hqlo hqhi hlen hlen' hqueue => ?primes⟩
  case run =>
    subst hp hq
    have hxbits := hx.oddOfBits (by omega)
    have hybits := hy.oddOfBits (by omega)
    obtain ⟨kp, hkp⟩ := exists_keyPairOf hlo hs hxbits hybits
    obtain ⟨fuel, hfuel⟩ := Nat.exists_eq_add_of_le hmax
    rw [← Rng.skip_of_queue hqueue]
    refine exec_rsaKeygen_writesKeyPair ht hbits hlo hhi hxbits hybits hkp ?_
    rw [hfuel]
    exact keyGenLoop_finds_both (by omega) fuel hbefore hx hbetween hy hkp hqueue
  case primes =>
    have hpbits : OddOfBits h p := oddOfBits_of_prime (by omega) hp hplo hphi
    have hqbits : OddOfBits h q := oddOfBits_of_prime (by omega) hq hqlo hqhi
    obtain ⟨kp, hkp⟩ := exists_keyPairOf hlo hs hpbits hqbits
    obtain ⟨fuel, hfuel⟩ := Nat.exists_eq_add_of_le hmax
    obtain ⟨g, hk, hrest⟩ := keyGenLoop_of_primes (by omega) fuel hp hq hpbits hqbits hkp hlen hlen' hqueue
    obtain ⟨u, hu, hw, rfl⟩ := exec_rsaKeygen_writesKeyPair ht hbits hlo hhi hpbits hqbits hkp (hfuel ▸ hk)
    exact ⟨u, hu, hw, hrest⟩

/-- Settles O53: the pair is made of two candidates of `h` bits. -/
theorem generatedKeyPairsAreValid : Obligations.GeneratedKeyPairsAreValid := by
  rintro t s u _ rfl - hu huerr
  obtain ⟨h, p, q, hbits, hlo, hp, hq, ⟨hne, hgcd⟩, -, -, -, hN, hE, hinv, hlt⟩ :=
    writesKeyPair_of_no_error hu huerr
  obtain ⟨hodd, hNlo, hNhi⟩ := hp.mul_bounds (by omega) hq
  have hpos : bigVal u.rsaD ≠ 0 := fun h0 => by simp [h0] at hinv
  rw [hbits, Nat.mul_div_cancel_left h Nat.two_pos, hN]
  exact ⟨p, q, hne, hp.odd, hq.odd, hp.low, hp.high, hq.low, hq.high, rfl, hE, hgcd, hinv,
    Nat.one_le_iff_ne_zero.mpr hpos, hlt, hodd, hNlo, hNhi⟩

end Sys2Proof.Machine

/-! The big-integer engine: modular exponentiation and the modular inverse. -/

namespace Sys2Proof.Machine

/-- A residue modulo a register's value fits in a register (R33), so R keeps it whole. -/
theorem bigVal_bigOf_of_lt_bigVal {v : Nat} {m : BitVec Config.bigBits} (h : v < bigVal m) : bigVal (bigOf v) = v :=
  Nat.mod_eq_of_lt (h.trans m.isLt)

/-- What the successful ends of R262 and R263 have in common: the command writes R alone, with a number below `M`. -/
theorem exists_next_of_exec_r {i : Instr} {s : State} {x : Nat} {P : Nat → Prop}
    (h : exec i s = .next (State.complete { s with r := bigOf x } false)) (hx : x < bigVal s.m) (hP : P x) :
    ∃ t : State, exec i s = .next t ∧ Succeeds s t false ∧
      t = { s with r := t.r, phase := t.phase, status := t.status } ∧ MemoryKept s t ∧ P (bigVal t.r) :=
  ⟨_, h, complete_succeeds s _ false rfl, rfl, memoryKept_of_mem_eq rfl rfl,
    (bigVal_bigOf_of_lt_bigVal hx).symm ▸ hP⟩

/-- Settles O54: square and multiply gives the power, which fits in R as a residue modulo `M`. -/
theorem modexpCommand : Obligations.ModexpCommand := by
  refine fun s => ⟨fun hm => ?power, fun hm => ⟨_, exec_modexp_rejects hm, raise_rejectsWith s _ _ _⟩⟩
  have hpow := modExp_eq (bigVal s.a) (bigVal s.b) (bigVal s.m)
  have hlt := hpow.trans_lt (Nat.mod_lt _ (Nat.pos_of_ne_zero hm))
  exact exists_next_of_exec_r (P := (· = _)) (exec_modexp_completes hm) hlt hpow

/-- Settles O55: Euclid's loop finds the inverse just when the greatest common divisor is 1. -/
theorem modinvCommand : Obligations.ModinvCommand := by
  refine fun s => ⟨fun hm => ⟨_, exec_modinv_rejects hm, raise_rejectsWith s _ _ _⟩, fun hm hgcd => ?inverse,
    fun hm hgcd => ⟨_, exec_modinv_noInverse hm (modInv_eq_none hgcd), raise_rejectsWith s _ _ _⟩⟩
  obtain ⟨x, hx, hlt, hinv⟩ := modInv_eq_some hm hgcd
  exact exists_next_of_exec_r (P := fun v => v < bigVal s.m ∧ bigVal s.a * v % bigVal s.m = 1 % bigVal s.m)
    (exec_modinv_completes hm hx) hlt ⟨hlt, hinv⟩

end Sys2Proof.Machine

/-! SUPPORT. The width of the modulus, the check of a payload's length, and draws of nonzero bytes that the queue of
answers serves (R77, R280, R281, R284). -/

namespace Sys2Proof.Machine

theorem byteLen_le_iff (v k : Nat) : byteLen v ≤ k ↔ v < 256 ^ k := by
  rw [show (256 : Nat) ^ k = 2 ^ (8 * k) from (Nat.pow_mul 2 8 k).symm, ← bitlen_le_iff, byteLen]
  omega

/-- The modulus has no leading zero byte (R280). -/
theorem pow_modulusBytes_le {s : State} (h : 1 ≤ s.modulusBytes) : 256 ^ (s.modulusBytes - 1) ≤ bigVal s.rsaN :=
  Nat.le_of_not_lt fun hlt => absurd ((byteLen_le_iff _ _).mpr hlt) (Nat.not_le.mpr (Nat.sub_one_lt_of_lt h))

theorem modulus_lt (s : State) : bigVal s.rsaN < 256 ^ s.modulusBytes := (byteLen_le_iff _ _).mp le_rfl

theorem modulus_pos {s : State} (h : 1 ≤ s.modulusBytes) : 0 < bigVal s.rsaN :=
  (Nat.pow_pos (by decide)).trans_le (pow_modulusBytes_le h)

theorem badPayloadLength_iff {L K : Nat} : badPayloadLength L K = true ↔ 256 < L ∨ K < L + 11 := by
  simp [badPayloadLength]

theorem not_badPayloadLength {L K : Nat} (hL : L ≤ 256) (hK : L + 11 ≤ K) : ¬ badPayloadLength L K = true := by
  rw [badPayloadLength_iff]
  omega

/-- Answers that are nonzero bytes are taken as they are, the first first. -/
theorem nonzeroBytes_of_queue {answers : List Byte} (rest : List Nat) (count : Nat)
    (h : ∀ x ∈ answers, x ≠ 0x00#8) :
    Rng.nonzeroBytes answers.length { queue := answers.map BitVec.toNat ++ rest, count := count } =
      (answers, { queue := rest, count := count + answers.length }) := by
  induction answers generalizing count with
  | nil => rfl
  | cons x xs ih =>
    obtain ⟨hx, hxs⟩ := List.forall_mem_cons.mp h
    have hlo : 1 ≤ x.toNat := Nat.one_le_iff_ne_zero.mpr fun h0 => hx (BitVec.eq_of_toNat_eq h0)
    have hdraw : Rng.nonzeroByte { queue := x.toNat :: (xs.map BitVec.toNat ++ rest), count := count } =
        (x, { queue := xs.map BitVec.toNat ++ rest, count := count + 1 }) := by
      simp [Rng.nonzeroByte, range_of_queue _ _ hlo (Nat.le_of_lt_succ x.isLt)]
    rw [List.length_cons, List.map_cons, List.cons_append, Rng.nonzeroBytes, hdraw, ih (count + 1) hxs,
      Nat.add_assoc, Nat.add_comm 1]

end Sys2Proof.Machine

/-! SUPPORT. The integer of a PKCS#1 block, and what `Unpad1` accepts (R282, R283, R288). -/

namespace Sys2Proof.Machine

section Encoding

variable {EM PS P : List Byte}

theorem length_of_isEncoding (h : IsEncoding EM PS P) : EM.length = PS.length + P.length + 3 := by
  obtain ⟨rfl, -⟩ := h
  simp only [List.length_cons, List.length_append]
  omega

/-- The block begins with the bytes 0 and 2, so its integer is below 3 in the second byte's place (R288). -/
theorem os2ip_lt_of_isEncoding (h : IsEncoding EM PS P) : os2ip EM < 3 * 256 ^ (EM.length - 2) := by
  obtain ⟨rfl, -⟩ := h
  have hrest := os2ip_lt (PS ++ 0x00#8 :: P)
  rw [os2ip_cons, os2ip_cons]
  change 0 * _ + (2 * _ + _) < 3 * 256 ^ (PS ++ 0x00#8 :: P).length
  omega

/-- `Unpad1` accepts the blocks that hold a payload, and gives that payload (R282). -/
theorem unpad1_of_isEncoding (h : IsEncoding EM PS P) : unpad1 EM = some P := (unpad1_eq_some_iff EM P).mpr ⟨PS, h⟩

theorem unpad1_eq_none (h : ∀ PS P : List Byte, ¬ IsEncoding EM PS P) : unpad1 EM = none := by
  refine Option.eq_none_iff_forall_ne_some.mpr fun P hP => ?_
  obtain ⟨PS, hE⟩ := (unpad1_eq_some_iff EM P).mp hP
  exact h PS P hE

end Encoding

end Sys2Proof.Machine

/-! SUPPORT. The block that PKCS1_PAD and RSA_ENC make of a payload that fits (R281, R288). -/

namespace Sys2Proof.Machine

/-- The padding string drawn for the payload (R281), and the source after its draws. -/
def State.paddingDraws (s : State) : List Byte × Rng :=
  Rng.nonzeroBytes (s.modulusBytes - s.payloadLength - 3) s.rng

/-- The block made of the payload, as the integer RSA_MB is to hold (R284, R286). -/
def State.paddedInteger (s : State) : Nat := os2ip (encodedMessage s.paddingDraws.1 s.payload)

theorem pad1_payload (s : State) :
    pad1 s.payload s.modulusBytes s.rng = (encodedMessage s.paddingDraws.1 s.payload, s.paddingDraws.2) := by
  rw [pad1, length_payload, State.paddingDraws]

theorem length_paddingDraws (s : State) :
    s.paddingDraws.1.length = s.modulusBytes - s.payloadLength - 3 := length_nonzeroBytes _ _

theorem count_paddingDraws (s : State) :
    s.paddingDraws.2.count = s.rng.count + (s.modulusBytes - s.payloadLength - 3) := count_nonzeroBytes _ _

theorem isEncoding_encodedMessage (s : State) :
    IsEncoding (encodedMessage s.paddingDraws.1 s.payload) s.paddingDraws.1 s.payload :=
  ⟨rfl, nonzeroBytes_ne_zero _ _⟩

theorem paddingDraws_of_queue {s : State} {answers : List Byte} {rest : List Nat}
    (hlen : answers.length = s.modulusBytes - s.payloadLength - 3) (h : ∀ x ∈ answers, x ≠ 0x00#8)
    (hq : s.rng.queue = answers.map BitVec.toNat ++ rest) :
    s.paddingDraws.1 = answers ∧ s.paddingDraws.2.queue = rest := by
  have hdraws := nonzeroBytes_of_queue rest s.rng.count h
  rw [← hq, hlen] at hdraws
  rw [State.paddingDraws, hdraws]
  exact ⟨rfl, rfl⟩

section Padded

variable {s : State} (hK : s.payloadLength + 11 ≤ s.modulusBytes)

include hK

theorem length_encodedMessage_payload : (encodedMessage s.paddingDraws.1 s.payload).length = s.modulusBytes := by
  rw [length_of_isEncoding (isEncoding_encodedMessage s), length_paddingDraws, length_payload]
  omega

theorem paddedInteger_lt : s.paddedInteger < 3 * 256 ^ (s.modulusBytes - 2) := by
  have h := os2ip_lt_of_isEncoding (isEncoding_encodedMessage s)
  rwa [length_encodedMessage_payload hK] at h

theorem three_mul_pow_lt : 3 * 256 ^ (s.modulusBytes - 2) < 256 ^ (s.modulusBytes - 1) := by
  rw [show s.modulusBytes - 1 = s.modulusBytes - 2 + 1 by omega, Nat.pow_succ']
  exact Nat.mul_lt_mul_of_pos_right (by decide) (Nat.pow_pos (by decide))

/-- The integer is below the modulus (R288), so RSA_MB holds it whole. -/
theorem paddedInteger_lt_modulus : s.paddedInteger < bigVal s.rsaN :=
  ((paddedInteger_lt hK).trans (three_mul_pow_lt hK)).trans_le (pow_modulusBytes_le (by omega))

theorem isEncoding_i2osp_paddedInteger :
    IsEncoding (i2osp s.paddedInteger s.modulusBytes) s.paddingDraws.1 s.payload := by
  have h := i2osp_os2ip (encodedMessage s.paddingDraws.1 s.payload)
  rw [length_encodedMessage_payload hK] at h
  rw [State.paddedInteger, h]
  exact isEncoding_encodedMessage s

theorem exec_pkcs1Pad_of_fits (hL : s.payloadLength ≤ 256) :
    exec .pkcs1Pad s = .next (State.complete
      { s with rsaMb := bigOf s.paddedInteger, rng := s.paddingDraws.2 } false) := by
  rw [exec_pkcs1Pad_completes (not_badPayloadLength hL hK), pad1_payload, State.paddedInteger]

theorem exec_rsaEnc_of_fits (hL : s.payloadLength ≤ 256) :
    exec .rsaEnc s = .next (State.complete
      { s with
        rsaMb := bigOf s.paddedInteger
        rsaC := bigOf (s.paddedInteger ^ bigVal s.rsaE % bigVal s.rsaN)
        rng := s.paddingDraws.2 } false) := by
  rw [exec_rsaEnc_completes (not_badPayloadLength hL hK), pad1_payload, modExp_eq, State.paddedInteger]

end Padded

end Sys2Proof.Machine

/-! SUPPORT. The state that PKCS1_UNPAD and RSA_DEC leave: a payload in PBUF, its length in PLEN, and the integer it
came from in RSA_MB (R285, R287). -/

namespace Sys2Proof.Machine

/-- The state after the payload `P` has been taken from the block whose integer `x` is in RSA_MB. -/
def State.unpadded (s : State) (x : BitVec Config.bigBits) (P : List Byte) : State := State.complete
  { s.writeBytes pbufBase P with rsaMb := x, plen := lengthWord P.length } false

section Unpadded

variable {s : State} {m : Nat} {PS P : List Byte}

theorem exec_pkcs1Unpad_of_isEncoding (hK : 2 ≤ s.modulusBytes) (hm : bigVal s.rsaMb < 256 ^ s.modulusBytes)
    (h : IsEncoding (i2osp (bigVal s.rsaMb) s.modulusBytes) PS P) :
    exec .pkcs1Unpad s = .next (s.unpadded s.rsaMb P) :=
  exec_pkcs1Unpad_completes (by omega) (unpad1_of_isEncoding h)

theorem exec_rsaDec_of_isEncoding (hK : 2 ≤ s.modulusBytes)
    (hm : m = bigVal s.rsaC ^ bigVal s.rsaD % bigVal s.rsaN) (h : IsEncoding (i2osp m s.modulusBytes) PS P) :
    exec .rsaDec s = .next (s.unpadded (bigOf m) P) := by
  rw [← modExp_eq] at hm
  subst hm
  exact exec_rsaDec_completes (modulus_pos (by omega)).ne' (by omega) (unpad1_of_isEncoding h)

theorem unpadded_succeeds (s : State) (x : BitVec Config.bigBits) (P : List Byte) :
    Succeeds s (s.unpadded x P) false := complete_succeeds s _ false rfl

theorem unpadded_keptOutside (s : State) (x : BitVec Config.bigBits) (P : List Byte) :
    MemoryKeptOutside s (s.unpadded x P) pbufBase P.length := memoryKeptOutside_of_write rfl rfl

/-- A payload that comes from a block as wide as the modulus fits in PBUF (R285). -/
theorem unpadded_payloadLength (x : BitVec Config.bigBits) (h : IsEncoding (i2osp m s.modulusBytes) PS P) :
    (s.unpadded x P).plen.toNat = P.length :=
  lengthWord_toNat ((length_of_unpad1 s (unpad1_of_isEncoding h)).trans (by decide))

theorem unpadded_payload (x : BitVec Config.bigBits) (h : IsEncoding (i2osp m s.modulusBytes) PS P) :
    (s.unpadded x P).payload = P := by
  have hlen : (s.unpadded x P).payloadLength = P.length := unpadded_payloadLength x h
  rw [State.payload, hlen, readBytes_of_write (X := P) rfl le_rfl, List.take_length]

end Unpadded

end Sys2Proof.Machine

/-! SUPPORT. RSA undoes itself: for a product of two distinct primes, `m ^ k = m` where `k = 1` modulo
`lcm (p - 1) (q - 1)` (R289). -/

namespace Sys2Proof.Machine

theorem pow_modEq_self_of_prime {p k : Nat} (hp : p.Prime) (m : Nat) : m ^ ((p - 1) * k + 1) ≡ m [MOD p] := by
  by_cases hdvd : p ∣ m
  · exact (Nat.modEq_zero_iff_dvd.mpr (dvd_pow hdvd (Nat.succ_ne_zero _))).trans
      (Nat.modEq_zero_iff_dvd.mpr hdvd).symm
  · have hfermat := Nat.ModEq.pow_card_sub_one_eq_one hp ((hp.coprime_iff_not_dvd.mpr hdvd).symm)
    have h := (hfermat.pow k).mul_right m
    rwa [one_pow, one_mul, ← Nat.pow_mul, ← Nat.pow_succ] at h

theorem pow_mod_eq_self_of_primes {p q k m : Nat} (hp : p.Prime) (hq : q.Prime) (hne : p ≠ q)
    (hk : k % Nat.lcm (p - 1) (q - 1) = 1) (hm : m < p * q) : m ^ k % (p * q) = m := by
  have hsplit := Nat.div_add_mod k (Nat.lcm (p - 1) (q - 1))
  rw [hk] at hsplit
  have hmod {r : Nat} (hr : r.Prime) (hdvd : r - 1 ∣ Nat.lcm (p - 1) (q - 1)) : m ^ k ≡ m [MOD r] := by
    obtain ⟨c, hc⟩ := hdvd
    rw [← hsplit, hc, Nat.mul_assoc]
    exact pow_modEq_self_of_prime hr m
  have hboth : m ^ k ≡ m [MOD p * q] := (Nat.modEq_and_modEq_iff_modEq_mul ((Nat.coprime_primes hp hq).mpr hne)).mp
    ⟨hmod hp (Nat.dvd_lcm_left _ _), hmod hq (Nat.dvd_lcm_right _ _)⟩
  exact Nat.mod_eq_of_modEq hboth hm

end Sys2Proof.Machine

/-! PKCS#1 padding, and RSA encryption and decryption. -/

namespace Sys2Proof.Machine

/-- Settles O56: the block has the width of the modulus, so RSA_MB holds its integer whole. -/
theorem pkcs1PadCommand : Obligations.Pkcs1PadCommand := by
  rintro s _ _ rfl rfl
  refine ⟨fun h => ⟨pow_modulusBytes_le h, modulus_lt s⟩, fun h => ?zero, fun hL hK => ?fits,
    fun h => ⟨_, exec_pkcs1Pad_rejects (badPayloadLength_iff.mpr h), raise_rejectsWith s _ _ _⟩⟩
  case zero =>
    have hlt := modulus_lt s
    rwa [h, Nat.pow_zero, Nat.lt_one_iff] at hlt
  case fits =>
    have hlt := paddedInteger_lt_modulus hK
    refine ⟨_, s.paddingDraws.1, exec_pkcs1Pad_of_fits hK hL, complete_succeeds s _ false rfl, rfl,
      memoryKept_of_mem_eq rfl rfl, length_paddingDraws s, ?_, ?_, count_paddingDraws s,
      fun _ _ => paddingDraws_of_queue⟩
    · rw [complete_rsaMb, bigVal_bigOf_of_lt_bigVal hlt]
      exact isEncoding_i2osp_paddedInteger hK
    · rw [complete_rsaMb, bigVal_bigOf_of_lt_bigVal hlt]
      exact hlt.trans (modulus_lt s)

/-- Settles O57: the check of the width, then `Unpad1` accepts just the blocks that hold a payload. -/
theorem pkcs1UnpadCommand : Obligations.Pkcs1UnpadCommand := by
  rintro s _ _ rfl rfl
  refine ⟨fun h => ⟨_, exec_pkcs1Unpad_rejects_width h, raise_rejectsWith s _ _ _⟩,
    fun hK hm => ⟨fun PS P h => ?_, fun hnone => ?_⟩⟩
  · exact ⟨_, exec_pkcs1Unpad_of_isEncoding hK hm h, unpadded_succeeds s _ P, rfl, unpadded_payloadLength _ h,
      unpadded_payload _ h, unpadded_keptOutside s _ P⟩
  · exact ⟨_, exec_pkcs1Unpad_rejects_padding (by omega) (unpad1_eq_none hnone), raise_rejectsWith s _ _ _⟩

/-- Settles O58: both commands make one block, whose integer is below the modulus. -/
theorem rsaEncCommand : Obligations.RsaEncCommand := by
  rintro s _ _ rfl rfl
  refine ⟨fun hL hK => ?_,
    fun h => ⟨_, exec_rsaEnc_rejects (badPayloadLength_iff.mpr h), raise_rejectsWith s _ _ _⟩⟩
  have hlt := paddedInteger_lt_modulus hK
  refine ⟨_, _, exec_rsaEnc_of_fits hK hL, exec_pkcs1Pad_of_fits hK hL, complete_succeeds s _ false rfl, rfl,
    memoryKept_of_mem_eq rfl rfl, rfl, rfl, ?_, three_mul_pow_lt hK, pow_modulusBytes_le (by omega), ?_⟩
  · rw [complete_rsaMb, bigVal_bigOf_of_lt_bigVal hlt]
    exact paddedInteger_lt hK
  · rw [complete_rsaC, complete_rsaMb, bigVal_bigOf_of_lt_bigVal hlt,
      bigVal_bigOf_of_lt_bigVal (Nat.mod_lt _ (Nat.zero_lt_of_lt hlt))]

/-- Settles O59: the checks of R287 in their order; the decrypted integer is a residue modulo RSA_N, so RSA_MB holds it
whole. -/
theorem rsaDecCommand : Obligations.RsaDecCommand := by
  rintro s _ m rfl hm
  refine ⟨fun h => ⟨_, exec_rsaDec_rejects h, raise_rejectsWith s _ _ _⟩,
    fun h hK => ⟨_, exec_rsaDec_rejects_width h hK, raise_rejectsWith s _ _ _⟩,
    fun hK => ?_⟩
  have hpos : 0 < bigVal s.rsaN := modulus_pos (by omega)
  refine ⟨fun PS P h => ?_, fun hnone => ?_⟩
  · exact ⟨_, exec_rsaDec_of_isEncoding hK hm h, unpadded_succeeds s _ P, rfl,
      bigVal_bigOf_of_lt_bigVal (hm.trans_lt (Nat.mod_lt _ hpos)), unpadded_payloadLength _ h, unpadded_payload _ h,
      unpadded_keptOutside s _ P⟩
  · rw [← modExp_eq] at hm
    exact ⟨_, exec_rsaDec_rejects_padding hpos.ne' (by omega) (hm ▸ unpad1_eq_none hnone), raise_rejectsWith s _ _ _⟩

/-- Settles O60: the power by RSA_E and then by RSA_D is the integer of the block, and the block holds the payload. -/
theorem rsaDecRestoresThePayload : Obligations.RsaDecRestoresThePayload := by
  intro s p q hp hq hne hN hED hK
  have hL : s.plen.toNat ≤ 256 := by
    have := modulusBytes_le s
    omega
  have hlt := paddedInteger_lt_modulus hK
  have hpow : bigVal (bigOf (s.paddedInteger ^ bigVal s.rsaE % bigVal s.rsaN)) ^ bigVal s.rsaD % bigVal s.rsaN =
      s.paddedInteger := by
    rw [bigVal_bigOf_of_lt_bigVal (Nat.mod_lt _ (Nat.zero_lt_of_lt hlt)), ← Nat.pow_mod, ← Nat.pow_mul]
    rw [hN] at hlt ⊢
    exact pow_mod_eq_self_of_primes hp hq hne hED hlt
  have hE := isEncoding_i2osp_paddedInteger hK
  have hwide : 2 ≤ s.modulusBytes := by omega
  exact ⟨_, _, exec_rsaEnc_of_fits hK hL, exec_rsaDec_of_isEncoding hwide hpow.symm hE,
    complete_succeeds s _ false rfl, unpadded_succeeds _ _ _, unpadded_payload _ hE⟩

end Sys2Proof.Machine

/-! Where a step leads: the issue of a command, the engine's turn and each input (R310 to R312, R327). -/

namespace Sys2Proof.Machine

section Turns

variable {s : State} {cw : Word} {i : Instr} {rest : List Input}

/-- The word address 3 is CMD (R64). -/
theorem placeAt_cmd {a : Nat} (h : a / 4 = 3) : placeAt a = .cmd := placeAt_congr (b := 0x0000C) h

/-- The engine's turn, taken from the list of inputs, executes the decoded command (R311). -/
theorem step_engine_busy (hp : s.phase = .busy cw) (hd : decode cw = .ok i) (h : s.inputs = .engine :: rest) :
    step s = exec i { s with inputs := rest } := by
  rw [step_cons h]
  exact engineTurn_busy hp hd

/-- A word the table's numbering reads is a 32-bit word that decodes (R90, R93). -/
theorem decode_of_decodeTableWord {w : Nat} (h : decodeTableWord 32 w = some i) :
    w < 2 ^ 32 ∧ decode (BitVec.ofNat 32 w) = .ok i := by
  obtain ⟨⟨-, hw⟩, hread⟩ := Option.ite_none_right_eq_some.mp h
  refine ⟨hw, ?_⟩
  cases hd : decode (BitVec.ofNat 32 w) with
  | error e => simp [hd, Except.toOption] at hread
  | ok j => simpa [hd, Except.toOption] using hread

/-- Every command completes, with success, with an error or with the reset (R311, R312, R319, R350). -/
theorem exec_completes (i : Instr) (s : State) : ∃ t : State, exec i s = .next t ∧ t.phase = .idle := by
  by_cases hi : i = .sreset
  · subst hi
    exact ⟨s.applyReset, rfl, rfl⟩
  · obtain ⟨w, st, o, e⟩ := command_ends hi s
    exact ⟨_, e.exec_eq, rfl⟩

/-- After the engine's turn nothing runs (R92, R311, R312, R326). -/
theorem engineTurn_completes (s : State) : ∃ t : State, s.engineTurn = .next t ∧ t.phase = .idle := by
  cases hp : s.phase with
  | idle => exact ⟨s, engineTurn_idle hp, hp⟩
  | busy cw =>
    cases hd : decode cw with
    | error e => exact ⟨_, engineTurn_illegal hp hd, rfl⟩
    | ok i => rw [engineTurn_busy hp hd]; exact exec_completes i s

/-- Each input takes effect without a stop (R327, R363). -/
theorem takeInput_answers (s : State) (x : Input) : ∃ t : State, s.takeInput x = .next t := by
  cases x with
  | read | write | hardwareReset => exact ⟨_, rfl⟩
  | engine =>
    obtain ⟨t, ht, -⟩ := engineTurn_completes s
    exact ⟨t, ht⟩

end Turns

/-- Settles O5: both turns are the engine's, and the number of a placed word is below `2^32`. -/
theorem stepRunsTheDecodedCommand : Obligations.StepRunsTheDecodedCommand := by
  refine ⟨fun s cw i hp hd => ⟨fun hin => (step_nil hin).trans (engineTurn_busy hp hd),
    fun rest hin => step_engine_busy hp hd hin⟩, fun s w i h => ?_⟩
  obtain ⟨hw, hd⟩ := decode_of_decodeTableWord h
  rw [State.withFetchWord, Nat.mod_eq_of_lt hw]
  exact step_engine_busy rfl hd rfl

/-- Settles O6: the place of the offset is CMD, and only CTRL is written in the BUSY window. -/
theorem cmdWriteIssuesTheCommand : Obligations.CmdWriteIssuesTheCommand := by
  intro s off v rest hin h1 h2
  have hplace : placeAt off.toNat = .cmd := placeAt_cmd (by omega)
  refine ⟨fun hp => ⟨_, step_issue_of_idle hplace hp hin, rfl, ?_⟩, fun cw hp => ?_⟩
  · rw [statusWord_toNat]
    simp [errorCodeBits, engineCodeBits, stageCodeBits, Phase.isBusy]
  · rw [step_write_of_busy hp hin, hplace, if_neg nofun]

/-- Settles O9: `takeInput_answers`, and `engineTurn_completes` where the turn is the engine's. -/
theorem everyStepAnswersNext : Obligations.EveryStepAnswersNext := by
  refine fun s => ⟨?_, fun cw _ hin => ?_⟩
  · cases hin : s.inputs with
    | nil =>
      obtain ⟨t, ht, -⟩ := engineTurn_completes s
      exact ⟨t, (step_nil hin).trans ht⟩
    | cons x rest =>
      rw [step_cons hin]
      exact takeInput_answers _ x
  · rcases hin with hin | ⟨rest, hin⟩
    · rw [step_nil hin]
      exact engineTurn_completes s
    · rw [step_cons hin]
      exact engineTurn_completes _

end Sys2Proof.Machine

/-! The table of errors (R318): a command that fails changes nothing but STATUS and the random source. -/

namespace Sys2Proof.Machine

/-- The outcome `p` of the command `i` on `s` is a success, with RESULT = 1 only of MR_TEST (R311, R44), or one of the
errors of its row, with nothing else changed (R312, R318). -/
def EndsAsListed (i : Instr) (s : State) (p : Host.Outcome State Fault Refusal) : Prop :=
  ∃ t : State, p = .next t ∧
    ((∃ res : Bool, Succeeds s t res ∧ (res = true → ∃ n : Byte, i = .mrTest n)) ∨
      ∃ e ∈ errorsOf i, FailsWith s t e)

namespace EndsAsListed

variable {i : Instr} {s : State} {p q : Host.Outcome State Fault Refusal}

theorem completes {w : State} {res : Bool} (h : p = .next (w.complete res) := by rfl)
    (hw : w.status = s.status := by rfl) (hres : res = true → ∃ n : Byte, i = .mrTest n := by nofun) :
    EndsAsListed i s p := ⟨_, h, .inl ⟨res, complete_succeeds s w res hw, hres⟩⟩

theorem raises {g : Rng} {c : ErrorCode} {e : EngineCode} {x : StageCode}
    (h : p = .next (State.raise { s with rng := g } c e x) := by rfl)
    (hlisted : (c, e, x) ∈ errorsOf i := by simp [errorsOf]) :
    EndsAsListed i s p := ⟨_, h, .inr ⟨_, hlisted, raise_failsWith s g c e x⟩⟩

/-- A check that leads to a listed ending either way. -/
theorem ite {c : Prop} [Decidable c] (hpos : EndsAsListed i s p) (hneg : EndsAsListed i s q) :
    EndsAsListed i s (if c then p else q) := by
  by_cases h : c
  · rwa [if_pos h]
  · rwa [if_neg h]

end EndsAsListed

/-- R318, command by command: no error, one check, or a check and a computation that may find no result. -/
theorem exec_endsAsListed {i : Instr} (hi : i ≠ .sreset) (s : State) : EndsAsListed i s (exec i s) := by
  cases i with
  | sreset => exact absurd rfl hi
  | nop | aesKeyexp | aesEncBlock | aesDecBlock | aesSubbytes | aesInvSubbytes | aesShiftrows | aesInvShiftrows
  | aesMixcolumns | aesInvMixcolumns | aesGfmul _ | rngKey | rngIv => exact .completes
  | aesAddroundkey _ | pkcs7Pad | cbcEncRaw | cbcDecRaw | cbcEnc | modexp | pkcs1Pad | rsaEnc =>
    exact .ite .raises .completes
  | mrTest n => exact .ite .raises (.completes (hres := fun _ => ⟨n, rfl⟩))
  | pkcs7Unpad | cbcDec | modinv | pkcs1Unpad | rsaKeygen _ =>
    refine .ite .raises ?_
    split
    · exact .raises
    · exact .completes
  | rsaDec =>
    refine .ite .raises (.ite .raises ?_)
    split
    · exact .raises
    · exact .completes

/-- Settles O8: `exec_endsAsListed`, and SRESET answers `State.applyReset`. -/
theorem commandsEndAsTheErrorTableSays : Obligations.CommandsEndAsTheErrorTableSays := by
  intro i s
  by_cases hi : i = .sreset
  · subst hi
    exact ⟨s.applyReset, rfl, .inl ⟨rfl, rfl⟩⟩
  · obtain ⟨t, ht, hends⟩ := exec_endsAsListed hi s
    exact ⟨t, ht, .inr ⟨hi, hends⟩⟩

end Sys2Proof.Machine

/-! The draws of an abandoned command (R351, U10). -/

namespace Sys2Proof.Machine

/-- The random source after a command, which a check made before any draw leaves as it is (R317). -/
def State.rngAfter (s : State) : Instr → Rng
  | .rngKey | .rngIv => (Rng.bytes 16 s.rng).2
  | .mrTest n => if argValue n = 0 then s.rng else (millerRabin (bigVal s.a) (argValue n) s.rng).2
  | .rsaKeygen n =>
    if argValue n = 0 ∨ badKeyBits s.kgBits.toNat then s.rng
    else (keyGen s.kgMaxCandidates s.kgBits.toNat (argValue n) s.rng).2
  | .pkcs1Pad | .rsaEnc =>
    if badPayloadLength s.payloadLength s.modulusBytes then s.rng else (pad1 s.payload s.modulusBytes s.rng).2
  | _ => s.rng

/-- What a command draws does not depend on the inputs still to come. -/
theorem rngAfter_inputs (s : State) (rest : List Input) (i : Instr) :
    State.rngAfter { s with inputs := rest } i = s.rngAfter i := by
  cases i <;> rfl

/-- The outcome `p` is a next state with the random source `g`. -/
def LeavesRng (g : Rng) (p : Host.Outcome State Fault Refusal) : Prop := ∃ t : State, p = .next t ∧ t.rng = g

namespace LeavesRng

variable {g g' : Rng} {p q : Host.Outcome State Fault Refusal} {t : State}

theorem answers (h : p = .next t := by rfl) (hg : t.rng = g := by rfl) : LeavesRng g p := ⟨t, h, hg⟩

theorem ite {c : Prop} [Decidable c] (hpos : LeavesRng g p) (hneg : LeavesRng g' q) :
    LeavesRng (if c then g else g') (if c then p else q) := by
  by_cases h : c
  · simpa only [if_pos h] using hpos
  · simpa only [if_neg h] using hneg

end LeavesRng

/-- The six commands that draw, and the others by `engineWritesOnlyItsRegisters`. -/
theorem exec_leavesRng (i : Instr) (s : State) : LeavesRng (s.rngAfter i) (exec i s) := by
  cases i with
  | rngKey | rngIv => exact .answers
  | mrTest _ | pkcs1Pad | rsaEnc => exact .ite .answers .answers
  | rsaKeygen n =>
    refine .ite .answers ?_
    split
    · exact .answers
    · exact .answers
  | _ =>
    obtain ⟨t, ht, -⟩ := exec_completes _ s
    obtain ⟨-, -, -, -, -, hdraws, -⟩ := engineWritesOnlyItsRegisters _ s t ht
    refine ⟨t, ht, by_contra fun hne => ?_⟩
    simpa using hdraws hne

theorem rng_of_exec {i : Instr} {s u : State} (h : exec i s = .next u) : u.rng = s.rngAfter i := by
  obtain ⟨t, ht, hrng⟩ := exec_leavesRng i s
  rw [h] at ht
  injection ht with ht
  rw [ht, hrng]

theorem hardwareReset_rng (s : State) (draws : Nat) :
    (s.hardwareReset draws).rng = s.rng.skip (min draws s.drawsOfCommand) := rfl

section Abandoned

variable {s : State} {cw : Word}

theorem drawsOfCommand_of_busy {i : Instr} (hp : s.phase = .busy cw) (hd : decode cw = .ok i) :
    s.drawsOfCommand = (s.rngAfter i).count - s.rng.count := by
  obtain ⟨t, ht, hrng⟩ := exec_leavesRng i s
  rw [State.drawsOfCommand, engineTurn_busy hp hd, ht, ← hrng]

/-- An illegal word draws nothing (R92). -/
theorem drawsOfCommand_of_illegal {e : DecodeError} (hp : s.phase = .busy cw) (hd : decode cw = .error e) :
    s.drawsOfCommand = 0 := by
  rw [State.drawsOfCommand, engineTurn_illegal hp hd]
  exact Nat.sub_self _

end Abandoned

/-- Settles O23: the reset of R350, after as many answers are skipped as the abandoned command has draws. -/
theorem hardwareResetAbandonsTheCommand : Obligations.HardwareResetAbandonsTheCommand := by
  intro s draws rest hin
  refine ⟨_, step_cons hin, resetValues_applyReset _, rfl, rfl, fun hp => ?_, fun cw e hp hd => ?_,
    fun cw i u hp hd hu => ?_⟩
  · rw [hardwareReset_of_idle (s := { s with inputs := rest }) hp, applyReset_rng]
  · rw [hardwareReset_rng, drawsOfCommand_of_illegal (s := { s with inputs := rest }) hp hd, Nat.min_zero]
    rfl
  · rw [hardwareReset_rng, drawsOfCommand_of_busy (s := { s with inputs := rest }) hp hd, rngAfter_inputs,
      ← rng_of_exec hu]
    exact ⟨rfl, rfl⟩

end Sys2Proof.Machine
